-- ==== Sys2Proof/Word.lean ====
section
/-! DEFINITION. The word types of the ultrawave voice engine and the type of its binary64 values.

A binary64 value is held as the datum its bits stand for, so that a NaN keeps its payload (93_implementation_defined.md
U12) and every test for NaN or infinity is a match on a constructor. `F64.ofBits` and `F64.toBits` of
Machine/Float.lean are the two directions between a datum and its 64 bits. -/

namespace Sys2Proof

/-- One byte, the cell of `Host.Cell`. -/
abbrev Byte := BitVec 8

/-- One storage word of a sample memory (10_state.md R26). -/
abbrev SampleWord := BitVec 16

/-- A 64-bit operand or result word (30_encoding.md R55). -/
abbrev Word := BitVec 64

/-- A 7-bit parameter value (10_state.md R23). -/
abbrev Param := BitVec 7

/-- A channel 0..7, naming one voice and the buffer it plays (00_scope.md R17). -/
abbrev Channel := Fin 8

/-- An IEEE 754 binary64 datum (00_scope.md R12).
`nan s p` has the sign bit `s` and the fraction field `p + 1`, so a NaN with a zero fraction cannot be written;
`fin s e f` has the sign bit `s`, the biased exponent field `e` and the fraction field `f`. -/
inductive F64 where
  | nan (sign : Bool) (payload : Fin 4503599627370495)
  | inf (sign : Bool)
  | fin (sign : Bool) (expo : Fin 2047) (frac : Fin 4503599627370496)
deriving DecidableEq, Repr

end Sys2Proof
end

