-- ==== Sys2Proof/Syntax.lean ====
section
/-! DEFINITION. The command a host presents and the instructions of the command set UWCMD-1 (30_encoding.md).

An operand of an instruction is the raw field of the command word or the raw operand word (R54, R55): the channel clamp,
the sign extension of CODE and the reading of D0 and D1 as u64 or f64 are done where the meaning uses them
(Machine/Operands.lean). -/

namespace Sys2Proof

/-- One transaction as the host presents it: the command word CMD and the operand words D0 and D1 (R53). -/
structure Command where
  cmd : BitVec 32
  d0  : Word
  d1  : Word
deriving DecidableEq, Repr

/-- The commands of the opcode map (R60), each with the fields and operand words its row reads, and no others. -/
inductive Instr where
  /-- 0x00, R67 -/
  | nop
  /-- 0x01, R68 -/
  | setrate (d0 : Word)
  /-- 0x02, R69 -/
  | rdrate
  /-- 0x03, R70 -/
  | wrparam (idx : BitVec 8) (val : Param)
  /-- 0x04, R71 -/
  | rdparam (idx : BitVec 8)
  /-- 0x05, R72 -/
  | rdstatus
  /-- 0x10, R74 -/
  | bufclr (ch : BitVec 8)
  /-- 0x11, R75 -/
  | bufwr (ch : BitVec 8) (code : BitVec 12) (d0 : Word)
  /-- 0x12, R76 -/
  | bufapp (ch : BitVec 8) (code : BitVec 12)
  /-- 0x13, R77 -/
  | bufapq (ch : BitVec 8) (d0 : Word)
  /-- 0x14, R78 -/
  | bufrd (ch : BitVec 8) (d0 : Word)
  /-- 0x15, R79 -/
  | buflen (ch : BitVec 8)
  /-- 0x20, R126 -/
  | trig (ch : BitVec 8)
  /-- 0x21, R127 -/
  | stop (ch : BitVec 8)
  /-- 0x22, R128 -/
  | vstep (ch : BitVec 8)
  /-- 0x23, R129 -/
  | vstat (ch : BitVec 8)
  /-- 0x24, R130 -/
  | vrd (ch : BitVec 8) (sel : BitVec 8)
  /-- 0x25, R131 -/
  | pitch (val : Param)
  /-- 0x30, R133 -/
  | frame
  /-- 0x31, R108 -/
  | filt (d0 d1 : Word)
  /-- 0x32, R109 -/
  | fset (val : Param) (d0 d1 : Word)
  /-- 0x33, R110 -/
  | frd (sel : BitVec 8)
  /-- 0x34, R111 -/
  | fmode (val : Param)
  /-- 0x35, R112 -/
  | cuthz (val : Param)
  /-- 0x40, R93 -/
  | quant (d0 : Word)
  /-- 0x41, R94 -/
  | srrp (val : Param)
deriving DecidableEq, Repr

end Sys2Proof
end

