-- ==== Sys2Proof/WellFormed.lean ====
section
/-! DEFINITION. Which instructions name something the block has (30_encoding.md R61).

The types of Instr's operands admit exactly the values their fields can hold, so the only ill-formed instructions are
the ones R61 lists: a parameter index or a readback selector that names nothing. The decoder still reads them, because
they are assigned opcodes (R59, R138): performing one ends with STATUS = ILLEGAL. -/

namespace Sys2Proof

/-- The parameter registers are P[0..11] (10_state.md R23). -/
def paramIndexOk (idx : BitVec 8) : Bool := decide (idx.toNat < 12)

/-- The voice readback selectors are 0..10 and 16..24 (46_voice.md R130). -/
def voiceSelOk (sel : BitVec 8) : Bool :=
  decide (sel.toNat ≤ 10) || (decide (16 ≤ sel.toNat) && decide (sel.toNat ≤ 24))

/-- The filter readback selectors are 0..16 (45_filter.md R110). -/
def filterSelOk (sel : BitVec 8) : Bool := decide (sel.toNat < 17)

/-- The instruction names only what the block has (R61). -/
def Instr.wellFormed : Instr → Bool
  | .wrparam idx _ => paramIndexOk idx
  | .rdparam idx => paramIndexOk idx
  | .vrd _ sel => voiceSelOk sel
  | .frd sel => filterSelOk sel
  | .nop | .setrate _ | .rdrate | .rdstatus => true
  | .bufclr _ | .bufwr _ _ _ | .bufapp _ _ | .bufapq _ _ | .bufrd _ _ | .buflen _ => true
  | .trig _ | .stop _ | .vstep _ | .vstat _ | .pitch _ => true
  | .frame | .filt _ _ | .fset _ _ _ | .fmode _ | .cuthz _ => true
  | .quant _ | .srrp _ => true

end Sys2Proof
end

