-- ==== Sys2Proof/Decode.lean ====
section
/-! DEFINITION. Decoding a command and encoding an instruction (30_encoding.md R54, R57 to R61). Decoding depends on no
state (R59), reads only the fields of the opcode's row (R60) and rejects an unassigned opcode by name. -/

namespace Sys2Proof

/-- Why a command word names no instruction (R61). -/
inductive DecodeError where
  /-- OPC is not a row of the opcode map; the block answers STATUS = ILLEGAL (R59). -/
  | unassignedOpcode (opc : BitVec 8)
deriving DecidableEq, Repr

/-- OPC = CMD[31:24] (R54). -/
def opcField (cmd : BitVec 32) : BitVec 8 := cmd.extractLsb' 24 8

/-- CH = CMD[23:16] (R54). -/
def chField (cmd : BitVec 32) : BitVec 8 := cmd.extractLsb' 16 8

/-- IDX = CMD[15:8] (R54). -/
def idxField (cmd : BitVec 32) : BitVec 8 := cmd.extractLsb' 8 8

/-- CODE = CMD[11:0] (R54). -/
def codeField (cmd : BitVec 32) : BitVec 12 := cmd.extractLsb' 0 12

/-- SEL = CMD[7:0] (R54). -/
def selField (cmd : BitVec 32) : BitVec 8 := cmd.extractLsb' 0 8

/-- VAL = CMD[6:0] (R54). -/
def valField (cmd : BitVec 32) : Param := cmd.extractLsb' 0 7

/-- The decode procedure (R59) over the opcode map (R60). -/
def decode (c : Command) : Except DecodeError Instr :=
  match opcField c.cmd with
  | 0x00#8 => .ok .nop
  | 0x01#8 => .ok (.setrate c.d0)
  | 0x02#8 => .ok .rdrate
  | 0x03#8 => .ok (.wrparam (idxField c.cmd) (valField c.cmd))
  | 0x04#8 => .ok (.rdparam (idxField c.cmd))
  | 0x05#8 => .ok .rdstatus
  | 0x10#8 => .ok (.bufclr (chField c.cmd))
  | 0x11#8 => .ok (.bufwr (chField c.cmd) (codeField c.cmd) c.d0)
  | 0x12#8 => .ok (.bufapp (chField c.cmd) (codeField c.cmd))
  | 0x13#8 => .ok (.bufapq (chField c.cmd) c.d0)
  | 0x14#8 => .ok (.bufrd (chField c.cmd) c.d0)
  | 0x15#8 => .ok (.buflen (chField c.cmd))
  | 0x20#8 => .ok (.trig (chField c.cmd))
  | 0x21#8 => .ok (.stop (chField c.cmd))
  | 0x22#8 => .ok (.vstep (chField c.cmd))
  | 0x23#8 => .ok (.vstat (chField c.cmd))
  | 0x24#8 => .ok (.vrd (chField c.cmd) (selField c.cmd))
  | 0x25#8 => .ok (.pitch (valField c.cmd))
  | 0x30#8 => .ok .frame
  | 0x31#8 => .ok (.filt c.d0 c.d1)
  | 0x32#8 => .ok (.fset (valField c.cmd) c.d0 c.d1)
  | 0x33#8 => .ok (.frd (selField c.cmd))
  | 0x34#8 => .ok (.fmode (valField c.cmd))
  | 0x35#8 => .ok (.cuthz (valField c.cmd))
  | 0x40#8 => .ok (.quant c.d0)
  | 0x41#8 => .ok (.srrp (valField c.cmd))
  | opc => .error (.unassignedOpcode opc)

/-! ## The encoder, written from the same tables; fields and operands a command does not read are 0 (R63) -/

/-- A command word from OPC, CH and CMD[15:0] (R54). -/
def cmdWord (opc ch : BitVec 8) (low : BitVec 16) : BitVec 32 := opc ++ ch ++ low

/-- A command with both operand words 0. -/
def plainCommand (cmd : BitVec 32) : Command := ⟨cmd, 0, 0⟩

/-- The command of an instruction (R54, R60, R63). -/
def encode : Instr → Command
  | .nop => plainCommand (cmdWord 0x00 0 0)
  | .setrate d0 => ⟨cmdWord 0x01 0 0, d0, 0⟩
  | .rdrate => plainCommand (cmdWord 0x02 0 0)
  | .wrparam idx val => plainCommand (cmdWord 0x03 0 (idx ++ (0#1 ++ val)))
  | .rdparam idx => plainCommand (cmdWord 0x04 0 (idx ++ 0#8))
  | .rdstatus => plainCommand (cmdWord 0x05 0 0)
  | .bufclr ch => plainCommand (cmdWord 0x10 ch 0)
  | .bufwr ch code d0 => ⟨cmdWord 0x11 ch (0#4 ++ code), d0, 0⟩
  | .bufapp ch code => plainCommand (cmdWord 0x12 ch (0#4 ++ code))
  | .bufapq ch d0 => ⟨cmdWord 0x13 ch 0, d0, 0⟩
  | .bufrd ch d0 => ⟨cmdWord 0x14 ch 0, d0, 0⟩
  | .buflen ch => plainCommand (cmdWord 0x15 ch 0)
  | .trig ch => plainCommand (cmdWord 0x20 ch 0)
  | .stop ch => plainCommand (cmdWord 0x21 ch 0)
  | .vstep ch => plainCommand (cmdWord 0x22 ch 0)
  | .vstat ch => plainCommand (cmdWord 0x23 ch 0)
  | .vrd ch sel => plainCommand (cmdWord 0x24 ch (0#8 ++ sel))
  | .pitch val => plainCommand (cmdWord 0x25 0 (0#9 ++ val))
  | .frame => plainCommand (cmdWord 0x30 0 0)
  | .filt d0 d1 => ⟨cmdWord 0x31 0 0, d0, d1⟩
  | .fset val d0 d1 => ⟨cmdWord 0x32 0 (0#9 ++ val), d0, d1⟩
  | .frd sel => plainCommand (cmdWord 0x33 0 (0#8 ++ sel))
  | .fmode val => plainCommand (cmdWord 0x34 0 (0#9 ++ val))
  | .cuthz val => plainCommand (cmdWord 0x35 0 (0#9 ++ val))
  | .quant d0 => ⟨cmdWord 0x40 0 0, d0, 0⟩
  | .srrp val => plainCommand (cmdWord 0x41 0 (0#9 ++ val))

/-! ## What of a command its row reads (R60), for R61 -/

/-- The bits of CMD that the row of an instruction reads: OPC and the fields R60 lists for it. -/
def Instr.readMask : Instr → BitVec 32
  | .nop | .setrate _ | .rdrate | .rdstatus | .frame | .filt _ _ | .quant _ => 0xFF000000#32
  | .wrparam _ _ => 0xFF00FF7F#32
  | .rdparam _ => 0xFF00FF00#32
  | .bufclr _ | .bufapq _ _ | .bufrd _ _ | .buflen _ | .trig _ | .stop _ | .vstep _ | .vstat _ => 0xFFFF0000#32
  | .bufwr _ _ _ | .bufapp _ _ => 0xFFFF0FFF#32
  | .vrd _ _ => 0xFFFF00FF#32
  | .frd _ => 0xFF0000FF#32
  | .pitch _ | .fset _ _ _ | .fmode _ | .cuthz _ | .srrp _ => 0xFF00007F#32

/-- Does the row of an instruction read D0 (R60)? -/
def Instr.readsD0 : Instr → Bool
  | .setrate _ | .bufwr _ _ _ | .bufapq _ _ | .bufrd _ _ | .filt _ _ | .fset _ _ _ | .quant _ => true
  | .nop | .rdrate | .wrparam _ _ | .rdparam _ | .rdstatus | .bufclr _ | .bufapp _ _ | .buflen _ => false
  | .trig _ | .stop _ | .vstep _ | .vstat _ | .vrd _ _ | .pitch _ | .frame => false
  | .frd _ | .fmode _ | .cuthz _ | .srrp _ => false

/-- Does the row of an instruction read D1 (R60)? -/
def Instr.readsD1 : Instr → Bool
  | .filt _ _ | .fset _ _ _ => true
  | .nop | .setrate _ | .rdrate | .wrparam _ _ | .rdparam _ | .rdstatus => false
  | .bufclr _ | .bufwr _ _ _ | .bufapp _ _ | .bufapq _ _ | .bufrd _ _ | .buflen _ => false
  | .trig _ | .stop _ | .vstep _ | .vstat _ | .vrd _ _ | .pitch _ | .frame => false
  | .frd _ | .fmode _ | .cuthz _ | .quant _ | .srrp _ => false

/-! ## The host's numbering of an instruction's bits -/

/-- The transaction whose bits are w: CMD in bits 31..0, D0 in bits 95..32, D1 in bits 159..96; bits at nbits and above
are 0. -/
def commandOfBits (nbits w : Nat) : Command :=
  ⟨BitVec.ofNat 32 (w % 2 ^ nbits), BitVec.ofNat 64 (w % 2 ^ nbits / 2 ^ 32),
    BitVec.ofNat 64 (w % 2 ^ nbits / 2 ^ 96)⟩

/-- What the decoder reads from an instruction whose bits are w, or none where it rejects. -/
def decodeTableWord (nbits w : Nat) : Option Instr :=
  match decode (commandOfBits nbits w) with
  | .ok i => some i
  | .error _ => none

end Sys2Proof
end

