-- ==== Sys2Proof/Config.lean ====
section
/-! DEFINITION. What an implementation fixes (the OPEN parameters of 00_scope.md R9) and the free values. -/

namespace Sys2Proof

/-- The arithmetic operations of 00_scope.md R12 and the two functions of the parameter TRIG (R13). -/
inductive FloatOp where
  | add | sub | mul | div | sin | cos
deriving DecidableEq, Repr

/-- FREE VALUE (log entry 5). The sign and payload of the NaN that an arithmetic operation yields on these operands:
93_implementation_defined.md U12 says "the payload and sign of a NaN produced by an arithmetic operation are not
specified". For `sin` and `cos` the one operand is given twice. -/
opaque Config.nanBits : FloatOp → F64 → F64 → Bool × Fin 4503599627370495

/-- FREE VALUE (log entry 6). The integer that `trunc` gives for a NaN or an infinity: 00_scope.md R13 defines `trunc`
of a finite value only, and no run applies it to another. -/
opaque Config.truncNonFinite : F64 → Int

/-- One point at which the parameter TRIG differs from its default (log entry 1). -/
structure TrigPoint where
  arg : F64
  sin : F64
  cos : F64
deriving DecidableEq, Repr

/-- The OPEN parameters a model takes as arguments (00_scope.md R9, R10): BUF_CAP, SR_MAX and TRIG.
TRIG is given by the points at which it differs from the correctly rounded sine and cosine; a finite run evaluates
finitely many points, so every TRIG a run can tell apart is one of these lists. -/
structure Params where
  bufCap : Nat
  srMax  : F64
  trig   : List TrigPoint
deriving DecidableEq, Repr

end Sys2Proof
end

