-- ==== Sys2Proof/Machine/Float.lean ====
section
/-! DEFINITION. Binary64 arithmetic (00_scope.md R12, R13, R14).

Every finite value is an integer number of units of 2^-1074, the smallest subnormal. An operation computes its exact
result as a fraction of integers in those units and rounds it once, to nearest, ties to even (`F64.roundRat`), so the
comparisons, `floor` and `trunc` are comparisons and divisions of integers.

The operations are marked irreducible so that no unification evaluates them on numbers of a thousand bits; `unfold`
opens them, and the kernel evaluates them. -/

namespace Sys2Proof

/-! ## The datum and its 64 bits (00_scope.md R14) -/

/-- `f64(u)`: the binary64 value with the bit pattern u (R14). -/
def F64.ofBits (u : Word) : F64 :=
  let e := u.toNat / 2 ^ 52 % 2048
  let f : Fin 4503599627370496 := ⟨u.toNat % 2 ^ 52, Nat.mod_lt _ (by decide)⟩
  if he : e < 2047 then .fin u.msb ⟨e, he⟩ f
  else if hf : f.val = 0 then .inf u.msb
  else .nan u.msb ⟨f.val - 1, by have := f.isLt; omega⟩

/-- The fields of a binary64 pattern put together. -/
def F64.joinFields (sign : Bool) (expo frac : Nat) : Word :=
  BitVec.ofNat 64 (sign.toNat * 2 ^ 63 + expo * 2 ^ 52 + frac)

/-- `bits64(x)`: the bit pattern of x (R14). -/
def F64.toBits : F64 → Word
  | .nan s p => F64.joinFields s 2047 (p.val + 1)
  | .inf s => F64.joinFields s 2047 0
  | .fin s e f => F64.joinFields s e.val f.val

/-! ## Predicates and the exact value -/

/-- `isNaN(x)` (R13). -/
def F64.isNaN : F64 → Bool
  | .nan _ _ => true
  | _ => false

/-- `isFinite(x)` (R13). -/
def F64.isFinite : F64 → Bool
  | .fin _ _ _ => true
  | _ => false

/-- The sign bit. -/
def F64.sign : F64 → Bool
  | .nan s _ => s
  | .inf s => s
  | .fin s _ _ => s

/-- The magnitude of a finite value in units of 2^-1074 (0 for a NaN or an infinity, where nothing uses it). -/
def F64.mag : F64 → Nat
  | .fin _ e f => (if e.val = 0 then f.val else 2 ^ 52 + f.val) * 2 ^ (e.val - 1)
  | _ => 0

/-- The exact value of a finite x in units of 2^-1074. -/
def F64.units (x : F64) : Int := if x.sign then -(x.mag : Int) else (x.mag : Int)

/-- 1.0 in units of 2^-1074. -/
def F64.unitsOne : Nat := 2 ^ 1074

/-- 2^1024 in units of 2^-1074: a result rounded to this or more is infinite (R12). -/
def F64.unitsLimit : Nat := 2 ^ 2098

/-- The zero of the given sign. -/
def F64.zero (sign : Bool) : F64 := .fin sign 0 0

/-! ## Rounding: the one place where an exact result becomes a binary64 value (R12) -/

/-- The value `m * 2^k` units as a datum, for m ≤ 2^53 and k = 0 or 2^52 ≤ m; infinite past the largest finite value. -/
def F64.pack (sign : Bool) (m k : Nat) : F64 :=
  let e := if m < 2 ^ 52 then 0 else if m < 2 ^ 53 then k + 1 else k + 2
  if he : e < 2047 then .fin sign ⟨e, he⟩ ⟨m % 2 ^ 52, Nat.mod_lt _ (by decide)⟩
  else .inf sign

/-- The integer nearest to `num / den`, ties to even. -/
def F64.nearestEven (num den : Nat) : Nat :=
  let q := num / den
  let r := num % den
  if 2 * r < den then q else if den < 2 * r then q + 1 else q + q % 2

/-- The exponent of the last place of a result `num / den`: 0 below 2^53 units, else such that 53 bits remain. -/
def F64.lastPlace (num den : Nat) : Nat := (num / den).log2 - 52

/-- The value `num / den` units rounded to nearest, ties to even, with the sign given (R12); `den` is not 0. -/
@[irreducible] def F64.roundRat (sign : Bool) (num den : Nat) : F64 :=
  F64.pack sign (F64.nearestEven num (den * 2 ^ F64.lastPlace num den)) (F64.lastPlace num den)

/-- The integer z units rounded; the sign is that of z. -/
def F64.roundUnits (z : Int) : F64 := F64.roundRat (decide (z < 0)) z.natAbs 1

/-- The NaN an operation yields: its sign and payload are free (U12, log entry 5). -/
def F64.invalid (op : FloatOp) (x y : F64) : F64 :=
  .nan (Config.nanBits op x y).1 (Config.nanBits op x y).2

/-! ## The operations of R12 -/

/-- Unary minus: the sign bit flipped, exact. -/
def F64.neg : F64 → F64
  | .nan s p => .nan (!s) p
  | .inf s => .inf (!s)
  | .fin s e f => .fin (!s) e f

/-- `x + y` (R12). An exact zero sum is +0.0 unless both operands are negative zeros. -/
@[irreducible] def F64.add (x y : F64) : F64 :=
  match x, y with
  | .nan _ _, _ => F64.invalid .add x y
  | _, .nan _ _ => F64.invalid .add x y
  | .inf s, .inf t => if s = t then .inf s else F64.invalid .add x y
  | .inf s, .fin _ _ _ => .inf s
  | .fin _ _ _, .inf t => .inf t
  | .fin s _ _, .fin t _ _ =>
    if x.units + y.units = 0 then F64.zero (s && t) else F64.roundUnits (x.units + y.units)

/-- `x − y` (R12): x + (−y), but that a NaN operand makes the result a NaN of this operation. -/
@[irreducible] def F64.sub (x y : F64) : F64 :=
  if x.isNaN || y.isNaN then F64.invalid .sub x y else x.add y.neg

/-- `x × y` (R12). -/
@[irreducible] def F64.mul (x y : F64) : F64 :=
  match x, y with
  | .nan _ _, _ => F64.invalid .mul x y
  | _, .nan _ _ => F64.invalid .mul x y
  | .inf s, .inf t => .inf (s ^^ t)
  | .inf s, .fin t _ _ => if y.mag = 0 then F64.invalid .mul x y else .inf (s ^^ t)
  | .fin s _ _, .inf t => if x.mag = 0 then F64.invalid .mul x y else .inf (s ^^ t)
  | .fin s _ _, .fin t _ _ => F64.roundRat (s ^^ t) (x.mag * y.mag) F64.unitsOne

/-- `x / y` (R12). -/
@[irreducible] def F64.div (x y : F64) : F64 :=
  match x, y with
  | .nan _ _, _ => F64.invalid .div x y
  | _, .nan _ _ => F64.invalid .div x y
  | .inf _, .inf _ => F64.invalid .div x y
  | .inf s, .fin t _ _ => .inf (s ^^ t)
  | .fin s _ _, .inf t => F64.zero (s ^^ t)
  | .fin s _ _, .fin t _ _ =>
    if y.mag = 0 then (if x.mag = 0 then F64.invalid .div x y else .inf (s ^^ t))
    else F64.roundRat (s ^^ t) (x.mag * F64.unitsOne) y.mag

/-! ## Comparisons (R13): false when either operand is a NaN; −0.0 == +0.0 -/

/-- `x ≤ y`. -/
def F64.le (x y : F64) : Bool :=
  match x, y with
  | .nan _ _, _ => false
  | _, .nan _ _ => false
  | .inf true, _ => true
  | _, .inf false => true
  | .inf false, _ => false
  | _, .inf true => false
  | .fin _ _ _, .fin _ _ _ => decide (x.units ≤ y.units)

/-- `x < y`. -/
def F64.lt (x y : F64) : Bool := !x.isNaN && !y.isNaN && !y.le x

/-- `x ≥ y`. -/
def F64.ge (x y : F64) : Bool := y.le x

/-- `x > y`. -/
def F64.gt (x y : F64) : Bool := y.lt x

/-- `x == y`. -/
def F64.eq (x y : F64) : Bool := x.le y && y.le x

/-! ## The other primitives of R13 -/

/-- `min(a,b)` = a if a ≤ b else b. -/
def F64.min (a b : F64) : F64 := if a.le b then a else b

/-- `max(a,b)` = a if a ≥ b else b. -/
def F64.max (a b : F64) : F64 := if a.ge b then a else b

/-- `floor(x)`: the integer below a finite x; none for a NaN or an infinity, of which R13 defines no floor. -/
@[irreducible] def F64.floor (x : F64) : Option Int :=
  if x.isFinite then some (x.units / (F64.unitsOne : Int)) else none

/-- `trunc(x)`: the integer toward zero of a finite x; free for a NaN or an infinity (log entry 6). -/
@[irreducible] def F64.trunc (x : F64) : Int :=
  if x.isFinite then x.units.tdiv (F64.unitsOne : Int) else Config.truncNonFinite x

/-- `roundHalfAway(x)`: the integral value nearest to x, ties away from zero, the sign of a zero result kept;
infinities pass through (R13), and so does a NaN, to which no rule applies it. -/
@[irreducible] def F64.roundHalfAway (x : F64) : F64 :=
  match x with
  | .fin s _ _ =>
    F64.roundRat s ((2 * x.mag + F64.unitsOne) / (2 * F64.unitsOne) * F64.unitsOne) 1
  | _ => x

/-- `toF64(n)`: the integer n as a binary64 value, exact for |n| < 2^53 (R12). -/
@[irreducible] def F64.ofInt (n : Int) : F64 := F64.roundRat (decide (n < 0)) (n.natAbs * F64.unitsOne) 1

end Sys2Proof
end

