-- ==== Sys2Proof/Machine/Tables.lean ====
section
/-! DEFINITION. The fixed numbers of the block: the constants of 00_scope.md R9 that the pseudocode names, the pitch
table (46_voice.md R114), the cutoff table (45_filter.md R97) and the fallback coefficients (45_filter.md R102). -/

namespace Sys2Proof

/-! ## Binary64 literals of the pseudocode (R12: a decimal literal is the binary64 value nearest to it) -/

/-- +0.0. -/
def F64.cZero : F64 := F64.ofBits 0x0000000000000000#64

/-- 0.5. -/
def F64.cHalf : F64 := F64.ofBits 0x3FE0000000000000#64

/-- 1.0. -/
def F64.cOne : F64 := F64.ofBits 0x3FF0000000000000#64

/-- 2.0. -/
def F64.cTwo : F64 := F64.ofBits 0x4000000000000000#64

/-- 4.0. -/
def F64.cFour : F64 := F64.ofBits 0x4010000000000000#64

/-- 10.0. -/
def F64.cTen : F64 := F64.ofBits 0x4024000000000000#64

/-- 20.0: FC_MIN. -/
def F64.cTwenty : F64 := F64.ofBits 0x4034000000000000#64

/-- 0.45: FC_MAX_FRAC. -/
def F64.cFcMaxFrac : F64 := F64.ofBits 0x3FDCCCCCCCCCCCCD#64

/-- 127.0. -/
def F64.cN127 : F64 := F64.ofBits 0x405FC00000000000#64

/-- 2047.0. -/
def F64.cN2047 : F64 := F64.ofBits 0x409FFC0000000000#64

/-- 2048.0: Q12_SCALE. -/
def F64.cN2048 : F64 := F64.ofBits 0x40A0000000000000#64

/-- 32768.0: STORE_SCALE. -/
def F64.cN32768 : F64 := F64.ofBits 0x40E0000000000000#64

/-- −1.0. -/
def F64.cNegOne : F64 := F64.ofBits 0xBFF0000000000000#64

/-- −2.0. -/
def F64.cNegTwo : F64 := F64.ofBits 0xC000000000000000#64

/-- −2048.0. -/
def F64.cNeg2048 : F64 := F64.ofBits 0xC0A0000000000000#64

/-- PI = 0x400921FB54442D18 (45_filter.md R100). -/
def F64.cPi : F64 := F64.ofBits 0x400921FB54442D18#64

/-! ## PITCH_RATIO (46_voice.md R114) -/

/-- PITCH_RATIO, entries 0 to 15. -/
def pitchTablePart0 : List Word :=
  [0x3F9965FEA53D6E3D#64, 0x3F9AE89F995AD3AD#64, 0x3F9C823E074EC129#64, 0x3F9E3437E7101344#64,
   0x3FA0000000000000#64, 0x3FA0F38F92D97963#64, 0x3FA1F59AC3C7D6C0#64, 0x3FA306FE0A31B715#64,
   0x3FA428A2F98D728B#64, 0x3FA55B8108F0EC5E#64, 0x3FA6A09E667F3BCD#64, 0x3FA7F910D768CFB0#64,
   0x3FA965FEA53D6E3D#64, 0x3FAAE89F995AD3AD#64, 0x3FAC823E074EC129#64, 0x3FAE3437E7101344#64]

/-- PITCH_RATIO, entries 16 to 31. -/
def pitchTablePart1 : List Word :=
  [0x3FB0000000000000#64, 0x3FB0F38F92D97963#64, 0x3FB1F59AC3C7D6C0#64, 0x3FB306FE0A31B715#64,
   0x3FB428A2F98D728B#64, 0x3FB55B8108F0EC5E#64, 0x3FB6A09E667F3BCD#64, 0x3FB7F910D768CFB0#64,
   0x3FB965FEA53D6E3D#64, 0x3FBAE89F995AD3AD#64, 0x3FBC823E074EC129#64, 0x3FBE3437E7101344#64,
   0x3FC0000000000000#64, 0x3FC0F38F92D97963#64, 0x3FC1F59AC3C7D6C0#64, 0x3FC306FE0A31B715#64]

/-- PITCH_RATIO, entries 32 to 47. -/
def pitchTablePart2 : List Word :=
  [0x3FC428A2F98D728B#64, 0x3FC55B8108F0EC5E#64, 0x3FC6A09E667F3BCD#64, 0x3FC7F910D768CFB0#64,
   0x3FC965FEA53D6E3D#64, 0x3FCAE89F995AD3AD#64, 0x3FCC823E074EC129#64, 0x3FCE3437E7101344#64,
   0x3FD0000000000000#64, 0x3FD0F38F92D97963#64, 0x3FD1F59AC3C7D6C0#64, 0x3FD306FE0A31B715#64,
   0x3FD428A2F98D728B#64, 0x3FD55B8108F0EC5E#64, 0x3FD6A09E667F3BCD#64, 0x3FD7F910D768CFB0#64]

/-- PITCH_RATIO, entries 48 to 63. -/
def pitchTablePart3 : List Word :=
  [0x3FD965FEA53D6E3D#64, 0x3FDAE89F995AD3AD#64, 0x3FDC823E074EC129#64, 0x3FDE3437E7101344#64,
   0x3FE0000000000000#64, 0x3FE0F38F92D97963#64, 0x3FE1F59AC3C7D6C0#64, 0x3FE306FE0A31B715#64,
   0x3FE428A2F98D728B#64, 0x3FE55B8108F0EC5E#64, 0x3FE6A09E667F3BCD#64, 0x3FE7F910D768CFB0#64,
   0x3FE965FEA53D6E3D#64, 0x3FEAE89F995AD3AD#64, 0x3FEC823E074EC129#64, 0x3FEE3437E7101344#64]

/-- PITCH_RATIO, entries 64 to 79. -/
def pitchTablePart4 : List Word :=
  [0x3FF0000000000000#64, 0x3FF0F38F92D97963#64, 0x3FF1F59AC3C7D6C0#64, 0x3FF306FE0A31B715#64,
   0x3FF428A2F98D728B#64, 0x3FF55B8108F0EC5E#64, 0x3FF6A09E667F3BCD#64, 0x3FF7F910D768CFB0#64,
   0x3FF965FEA53D6E3D#64, 0x3FFAE89F995AD3AD#64, 0x3FFC823E074EC129#64, 0x3FFE3437E7101344#64,
   0x4000000000000000#64, 0x4000F38F92D97963#64, 0x4001F59AC3C7D6C0#64, 0x400306FE0A31B715#64]

/-- PITCH_RATIO, entries 80 to 95. -/
def pitchTablePart5 : List Word :=
  [0x400428A2F98D728B#64, 0x40055B8108F0EC5E#64, 0x4006A09E667F3BCD#64, 0x4007F910D768CFB0#64,
   0x400965FEA53D6E3D#64, 0x400AE89F995AD3AD#64, 0x400C823E074EC129#64, 0x400E3437E7101344#64,
   0x4010000000000000#64, 0x4010F38F92D97963#64, 0x4011F59AC3C7D6C0#64, 0x401306FE0A31B715#64,
   0x401428A2F98D728B#64, 0x40155B8108F0EC5E#64, 0x4016A09E667F3BCD#64, 0x4017F910D768CFB0#64]

/-- PITCH_RATIO, entries 96 to 111. -/
def pitchTablePart6 : List Word :=
  [0x401965FEA53D6E3D#64, 0x401AE89F995AD3AD#64, 0x401C823E074EC129#64, 0x401E3437E7101344#64,
   0x4020000000000000#64, 0x4020F38F92D97963#64, 0x4021F59AC3C7D6C0#64, 0x402306FE0A31B715#64,
   0x402428A2F98D728B#64, 0x40255B8108F0EC5E#64, 0x4026A09E667F3BCD#64, 0x4027F910D768CFB0#64,
   0x402965FEA53D6E3D#64, 0x402AE89F995AD3AD#64, 0x402C823E074EC129#64, 0x402E3437E7101344#64]

/-- PITCH_RATIO, entries 112 to 127. -/
def pitchTablePart7 : List Word :=
  [0x4030000000000000#64, 0x4030F38F92D97963#64, 0x4031F59AC3C7D6C0#64, 0x403306FE0A31B715#64,
   0x403428A2F98D728B#64, 0x40355B8108F0EC5E#64, 0x4036A09E667F3BCD#64, 0x4037F910D768CFB0#64,
   0x403965FEA53D6E3D#64, 0x403AE89F995AD3AD#64, 0x403C823E074EC129#64, 0x403E3437E7101344#64,
   0x4040000000000000#64, 0x4040F38F92D97963#64, 0x4041F59AC3C7D6C0#64, 0x404306FE0A31B715#64]

/-- PITCH_RATIO, entries 0 to 127. -/
def pitchTable : List Word :=
  pitchTablePart0 ++ pitchTablePart1 ++ pitchTablePart2 ++ pitchTablePart3 ++
  pitchTablePart4 ++ pitchTablePart5 ++ pitchTablePart6 ++ pitchTablePart7

/-- `PITCH_RATIO[p]` (R114). Every p below 128 names an entry. -/
def pitchRatio (p : Param) : F64 := F64.ofBits (pitchTable.getD p.toNat 0)

/-! ## CUTOFF_HZ (45_filter.md R97) -/

/-- CUTOFF_HZ, entries 0 to 15. -/
def cutoffTablePart0 : List Word :=
  [0x4034000000000000#64, 0x40351E32E1A3F412#64, 0x40364C653FCB7828#64, 0x40378B7C089E4D73#64,
   0x4038DC68F63EA4A1#64, 0x403A402B45E82964#64, 0x403BB7D0794B8238#64, 0x403D447522B8BEE8#64,
   0x403EE745BCB36072#64, 0x404050BFC6C9A51D#64, 0x40413A38CBEF86B4#64, 0x404230BECC0AD179#64,
   0x4043350C8853EB35#64, 0x404447E732763166#64, 0x40456A1F01F28DCA#64, 0x40469C8FD1DBBBD6#64]

/-- CUTOFF_HZ, entries 16 to 31. -/
def cutoffTablePart1 : List Word :=
  [0x4047E021C763BD5D#64, 0x404935CA01B8AA92#64, 0x404A9E8B53B61702#64, 0x404C1B7707F7B7C9#64,
   0x404DADADAFE1D405#64, 0x404F565FFE3C564F#64, 0x40508B67D7030D1C#64, 0x405178283B17A954#64,
   0x405272248579D616#64, 0x40537A1A16CB9044#64, 0x405490D0E5A9AB55#64, 0x4055B71C162775E1#64,
   0x4056EDDA99C21478#64, 0x405835F7D844BE97#64, 0x4059906C621DCF75#64, 0x405AFE3EACABC35F#64]

/-- CUTOFF_HZ, entries 32 to 47. -/
def cutoffTablePart2 : List Word :=
  [0x405C8083D910C775#64, 0x405E186086237AF9#64, 0x405FC709AE1BECBA#64, 0x4060C6E2C852617D#64,
   0x4061B6F65500EFB3#64, 0x4062B4755C03DCF5#64, 0x4063C01FE6D49255#64, 0x4064DAC0BAF61C1E#64,
   0x4066052DF391693E#64, 0x40674049A3A7B23B#64, 0x40688D028155E728#64, 0x4069EC549AAAE254#64,
   0x406B5F4A14995E16#64, 0x406CE6FBF4965463#64, 0x406E8492F57C84E6#64, 0x40701CA4342B33EA#64]

/-- CUTOFF_HZ, entries 48 to 63. -/
def cutoffTablePart3 : List Word :=
  [0x4071033390DC6BE1#64, 0x4071F6A63A3120AE#64, 0x4072F7B49CEE1A8D#64, 0x4074072174F3E9ED#64,
   0x407525BA60C461FD#64, 0x407654587D4718E4#64, 0x407793E10A42EE32#64, 0x4078E546180930CD#64,
   0x407A49873ED5F478#64, 0x407BC1B2607081E0#64, 0x407D4EE4749E8FED#64, 0x407EF24A61052813#64,
   0x40805690EE8D5FED#64, 0x4081405D316B9AF2#64, 0x4082373B166C03F8#64, 0x40833BE5A15CA435#64]

/-- CUTOFF_HZ, entries 64 to 79. -/
def cutoffTablePart4 : List Word :=
  [0x40844F224A374E9B#64, 0x408571C192B9772F#64, 0x4086A49FA458B576#64, 0x4087E8A4F70B9AD8#64,
   0x40893EC701653615#64, 0x408AA808F288AD05#64, 0x408C257C7681CADE#64, 0x408DB8428597412C#64,
   0x408F618C3F33AA10#64, 0x4090914DE88590E9#64, 0x40917E62B596497D#64, 0x409278B820DBCCF8#64,
   0x4093810BCE7D1D64#64, 0x40949825FC6246EC#64, 0x4095BEDA19E606B7#64, 0x4096F60768022CE4#64]

/-- CUTOFF_HZ, entries 80 to 95. -/
def cutoffTablePart5 : List Word :=
  [0x40983E99A27010AF#64, 0x40999989B23D3628#64, 0x409B07DE6A5B6E4D#64, 0x409C8AAD4EBB4A3B#64,
   0x409E231B6687B658#64, 0x409FD25E1A2200B6#64, 0x40A0CCDE0EC33A7C#64, 0x40A1BD4733E58F32#64,
   0x40A2BB209C3A16F8#64, 0x40A3C72A95B1FE5B#64, 0x40A4E2302E1BDA59#64, 0x40A60D07CCF6AC3A#64,
   0x40A74893D5DE1CB6#64, 0x40A895C3540AF995#64, 0x40A9F592AF69E1DD#64, 0x40AB690C6BD14FBD#64]

/-- CUTOFF_HZ, entries 96 to 111. -/
def cutoffTablePart6 : List Word :=
  [0x40ACF149F2E7DA6C#64, 0x40AE8F746953A338#64, 0x40B02262C7EA36BD#64, 0x40B1094458797436#64,
   0x40B1FD0DCDFC9CE7#64, 0x40B2FE77D6F974A6#64, 0x40B40E4574BE7668#64, 0x40B52D448F1CE786#64,
   0x40B65C4E9064E14B#64, 0x40B79C490A197B7D#64, 0x40B8EE2662D9DD7C#64, 0x40BA52E68E02F516#64,
   0x40BBCB97CD94EF6E#64, 0x40BD59577EEF5707#64, 0x40BEFD52F2FEEFF3#64, 0x40C05C6429408B4C#64]

/-- CUTOFF_HZ, entries 112 to 127. -/
def cutoffTablePart7 : List Word :=
  [0x40C14683C784C678#64, 0x40C23DB9B0C0A663#64, 0x40C342C12B6F950C#64, 0x40C4565FF5F2EBEC#64,
   0x40C57966DC5F2113#64, 0x40C6ACB256A89A9F#64, 0x40C7F12B2FA7FC00#64, 0x40C947C735747343#64,
   0x40CAB189F3999F24#64, 0x40CC2F8577B61E61#64, 0x40CDC2DB2117BB88#64, 0x40CF6CBC7BF27BB5#64,
   0x40D09736146C50D0#64, 0x40D1849F68917F38#64, 0x40D27F4E14815BA6#64, 0x40D3880000000000#64]

/-- CUTOFF_HZ, entries 0 to 127. -/
def cutoffTable : List Word :=
  cutoffTablePart0 ++ cutoffTablePart1 ++ cutoffTablePart2 ++ cutoffTablePart3 ++
  cutoffTablePart4 ++ cutoffTablePart5 ++ cutoffTablePart6 ++ cutoffTablePart7

/-- `CUTOFF_HZ[p]` (R97). Every p below 128 names an entry. -/
def cutoffHz (p : Param) : F64 := F64.ofBits (cutoffTable.getD p.toNat 0)

/-! ## Normalisation (00_scope.md R16) -/

/-- `norm(n)` = toF64(n) / 127.0. -/
def normParam (n : Param) : F64 := (F64.ofInt n.toNat).div F64.cN127

end Sys2Proof
end

