-- ==== Sys2Proof/Machine/State.lean ====
section
/-! DEFINITION. The state of the ultrawave voice engine as plain data (10_state.md R19 to R36), why a step may stop, and
the state after reset (70_reset_and_hazards.md R149 to R152). -/

namespace Sys2Proof.Machine

/-- Why a step stops with a fault. The spec has no fault: "A run never faults" (70_reset_and_hazards.md R156). Both
reasons arise only in states outside Safety.lean's invariant, which reset meets and every step keeps. -/
inductive Fault where
  /-- Raised by BUFRD, VSTEP and FRAME where they read a word of buffer c at an index below LEN[c] that nothing has
  written: MemRead is defined on written words only (20_memory.md R38, R25). Safe: no value is invented. -/
  | unwrittenWord (c : Channel) (index : Nat)
  /-- Raised by VSTEP and FRAME where voice c reads at a position that is not finite or is negative, of which R82 takes
  no floor (10_state.md R27 keeps POS finite and ≥ 0.0). Safe: no index is invented. -/
  | positionOutOfRange (c : Channel)
deriving DecidableEq, Repr

/-- Why a step refuses an instruction. Nothing of this model raises one. -/
inductive Refusal where
  /-- Raised by an arm of `exec` that has no meaning yet; no arm has one. Safe. -/
  | notModelled (mnemonic : String)
deriving DecidableEq, Repr

/-- A sample memory's bytes: word a is the bytes at 2a (low) and 2a+1 (high), log entry 4. Addresses rise strictly and
an unlisted byte has no value (log entry 3). -/
abbrev Memory := List Host.Cell

/-- One sample buffer: `LEN[c]` and `MEM[c]` (R25). -/
structure Buffer where
  len : BitVec 32
  mem : Memory
deriving DecidableEq, Repr

/-- One voice record `V[c]` (R27). -/
structure Voice where
  pos       : F64
  env       : F64
  active    : Bool
  holdRem   : BitVec 32
  decayRate : F64
  rtrgRem   : BitVec 7
  rtrgInt   : BitVec 32
  rtrgCnt   : BitVec 32
  srrCnt    : BitVec 6
  srrHold   : F64
  snap      : Vector Param 9
deriving DecidableEq, Repr

/-- `F.MODE` (R33, 45_filter.md R96): 0 low-pass, 1 band-pass, 2 high-pass; 3 is never held. -/
inductive FilterMode where
  | lowPass | bandPass | highPass
deriving DecidableEq, Repr

/-- The five normalised coefficients (R33). -/
structure Coeffs where
  b0 : F64
  b1 : F64
  b2 : F64
  a1 : F64
  a2 : F64
deriving DecidableEq, Repr

/-- The delay state of one lane: its last two inputs and last two outputs (R33). -/
structure Delay where
  x1 : F64
  x2 : F64
  y1 : F64
  y2 : F64
deriving DecidableEq, Repr

/-- The filter record `F` (R33). -/
structure FilterState where
  fcReq    : F64
  res      : F64
  mode     : FilterMode
  coeffs   : Coeffs
  fallback : Bool
  left     : Delay
  right    : Delay
deriving DecidableEq, Repr

/-- STATUS (30_encoding.md R56); the code 3 is never returned. -/
inductive Status where
  | ok | refused | illegal
deriving DecidableEq, Repr

/-- What the block returns for one command: STATUS, RSP0, RSP1 (R53). -/
structure Response where
  status : Status
  rsp0   : Word
  rsp1   : Word
deriving DecidableEq, Repr

/-- The state of the machine (R19, R21).
`cfg` holds the OPEN parameters and no step writes it (log entry 1). `commands` are the commands the host has still to
present, in issue order (R156, log entry 2); `response` is what the block returned for the last one. -/
structure State where
  cfg      : Params
  rate     : F64
  params   : Vector Param 12
  bufs     : Vector Buffer 8
  voices   : Vector Voice 8
  filter   : FilterState
  commands : List Command
  response : Response
deriving DecidableEq, Repr

/-! ## Reset (70_reset_and_hazards.md R150, R151) -/

/-- The defaults of the OPEN parameters (00_scope.md R9): BUF_CAP 1920000, SR_MAX 192000.0, the correctly rounded sine
and cosine. -/
def Params.default : Params := ⟨1920000, F64.ofBits 0x4107700000000000#64, []⟩

/-- The parameter file at reset (10_state.md R23). -/
def resetParams : Vector Param 12 := #v[0, 127, 64, 0, 0, 0, 0, 0, 127, 127, 0, 0]

/-- The snapshot at reset: the reset values of P[0..8] (R27). -/
def resetSnap : Vector Param 9 := #v[0, 127, 64, 0, 0, 0, 0, 0, 127]

/-- An empty buffer (R150); no word has a value. -/
def Buffer.reset : Buffer := ⟨0, []⟩

/-- A voice at reset (R150). -/
def Voice.reset : Voice where
  pos := F64.cZero
  env := F64.cZero
  active := false
  holdRem := 0
  decayRate := F64.cZero
  rtrgRem := 0
  rtrgInt := 0
  rtrgCnt := 0
  srrCnt := 0
  srrHold := F64.cZero
  snap := resetSnap

/-- A lane's delay state at reset and after SETRATE: +0.0 each (R150). -/
def Delay.reset : Delay := ⟨F64.cZero, F64.cZero, F64.cZero, F64.cZero⟩

/-- The coefficients at reset with the default TRIG (R151). -/
def Coeffs.reset : Coeffs where
  b0 := F64.ofBits 0x3FE7D8FBD79F1152#64
  b1 := F64.ofBits 0x3FF7D8FBD79F1152#64
  b2 := F64.ofBits 0x3FE7D8FBD79F1152#64
  a1 := F64.ofBits 0x3FF73FD61D9DF543#64
  a2 := F64.ofBits 0x3FE0E44323405AC2#64

/-- The filter record at reset (R150, R151). -/
def FilterState.reset : FilterState where
  fcReq := F64.ofBits 0x40D3880000000000#64
  res := F64.cZero
  mode := .lowPass
  coeffs := Coeffs.reset
  fallback := false
  left := Delay.reset
  right := Delay.reset

/-- The machine right after power-on reset with the default parameters (R150 to R152): no command presented, and the
response field at the value log entry 2 names. `State.resetWith` of Machine/Filter.lean is reset with other
parameters. -/
def State.reset : State where
  cfg := Params.default
  rate := F64.ofBits 0x40E5888000000000#64
  params := resetParams
  bufs := Vector.replicate 8 Buffer.reset
  voices := Vector.replicate 8 Voice.reset
  filter := FilterState.reset
  commands := []
  response := ⟨.ok, 0, 0⟩

end Sys2Proof.Machine
end

