-- ==== Sys2Proof/Machine/Ops.lean ====
section
/-! DEFINITION. The shared operations over memory, registers and the response.

The one exception operation of the spec is `raise` (00_scope.md R15): a return code, with no trap entry and no return
from one (60_exceptions.md R139, R140), so it stands here in the place of both. -/

namespace Sys2Proof.Machine

/-! ## Bytes of a sample memory -/

/-- The byte at an address; none where nothing has been written (log entry 3). -/
def Memory.read : Memory → Nat → Option Byte
  | [], _ => none
  | (k, b) :: rest, a => if k = a then some b else Memory.read rest a

/-- The memory with a byte written; the cells stay in rising order of address. -/
def Memory.write : Memory → Nat → Byte → Memory
  | [], a, v => [(a, v)]
  | (k, b) :: rest, a, v =>
    if a < k then (a, v) :: (k, b) :: rest
    else if a = k then (a, v) :: rest
    else (k, b) :: Memory.write rest a v

/-- The canonical form: addresses strictly rising. An unlisted byte has no value, so no cell can equal it. -/
abbrev Memory.wf (m : Memory) : Prop := m.Pairwise (fun x y => x.1 < y.1)

/-- The word at word index a, from its two bytes (log entry 4). -/
def Memory.readWord (m : Memory) (a : Nat) : Option SampleWord :=
  match m.read (2 * a), m.read (2 * a + 1) with
  | some lo, some hi => some (hi ++ lo)
  | _, _ => none

/-- The memory with the word at word index a written. -/
def Memory.writeWord (m : Memory) (a : Nat) (w : SampleWord) : Memory :=
  (m.write (2 * a) (w.extractLsb' 0 8)).write (2 * a + 1) (w.extractLsb' 8 8)

/-! ## The memory primitives of a buffer (20_memory.md R38) -/

/-- `MemRead(c, a)`, defined for a < LEN[c] on written words. -/
def Buffer.memRead (b : Buffer) (a : Nat) : Option SampleWord :=
  if a < b.len.toNat then b.mem.readWord a else none

/-- `MemWrite(c, a, w)`: the word is written and, at a = LEN[c], LEN[c] grows by one. -/
def Buffer.memWrite (b : Buffer) (a : Nat) (w : SampleWord) : Buffer :=
  { len := if a = b.len.toNat then b.len + 1 else b.len, mem := b.mem.writeWord a w }

/-- `toF64(LEN[c])`, the L of 43_sample_engine.md R80. -/
def Buffer.lenF64 (b : Buffer) : F64 := F64.ofInt b.len.toNat

/-- `maxLen(RATE) = min(BUF_CAP, trunc(RATE × 10.0))` (10_state.md R25). -/
def maxLen (p : Params) (rate : F64) : Nat := Nat.min p.bufCap (rate.mul F64.cTen).trunc.toNat

/-! ## Registers: each is read and written through these -/

/-- `P[i]`. -/
def State.param (s : State) (i : Fin 12) : Param := s.params[i.val]

/-- `P[i] <- v`. -/
def State.setParam (s : State) (i : Fin 12) (v : Param) : State :=
  { s with params := s.params.set i.val v }

/-- Buffer c. -/
def State.buf (s : State) (c : Channel) : Buffer := s.bufs[c.val]

/-- Buffer c replaced. -/
def State.setBuf (s : State) (c : Channel) (b : Buffer) : State :=
  { s with bufs := s.bufs.set c.val b }

/-- `V[c]`. -/
def State.voice (s : State) (c : Channel) : Voice := s.voices[c.val]

/-- `V[c] <- v`. -/
def State.setVoice (s : State) (c : Channel) (v : Voice) : State :=
  { s with voices := s.voices.set c.val v }

/-- `RATE <- r`. -/
def State.setRate (s : State) (r : F64) : State := { s with rate := r }

/-- `F <- f`. -/
def State.setFilter (s : State) (f : FilterState) : State := { s with filter := f }

/-- `V[c].SNAP[i]`. -/
def Voice.snapAt (v : Voice) (i : Fin 9) : Param := v.snap[i.val]

/-- The channels in the order `for c in 0..7` takes them. -/
def channels : List Channel := [0, 1, 2, 3, 4, 5, 6, 7]

/-! ## Completion (00_scope.md R15, 30_encoding.md R56) -/

/-- The response of the command that just completed. -/
def State.respond (s : State) (st : Status) (rsp0 rsp1 : Word) : State :=
  { s with response := ⟨st, rsp0, rsp1⟩ }

/-- A command that ends without `raise`: STATUS = OK. -/
def complete (s : State) (rsp0 rsp1 : Word) : Host.Outcome State Fault Refusal :=
  .next (s.respond .ok rsp0 rsp1)

/-- `raise ILLEGAL()` and `raise REFUSED()`: RSP0 = RSP1 = 0 and no state changed by the command (R15, R136). -/
def raise (s : State) (st : Status) : Host.Outcome State Fault Refusal :=
  .next (s.respond st 0 0)

end Sys2Proof.Machine
end

