-- ==== Sys2Proof/Machine/Operands.lean ====
section
/-! DEFINITION. How a meaning reads its operands (30_encoding.md R55, R57, R58). -/

namespace Sys2Proof.Machine

/-- The channel clamp: `ch = min(zext_8(CMD[23:16]), 7)` (R57). -/
def chan (ch : BitVec 8) : Channel := ⟨Nat.min ch.toNat 7, by
  have : Nat.min ch.toNat 7 ≤ 7 := Nat.min_le_right _ _
  omega⟩

/-- `u64(D)`: the unsigned integer of an operand word (R55). -/
def u64 (d : Word) : Nat := d.toNat

/-- `f64(D)`: the binary64 value of an operand word (R55). -/
def f64 (d : Word) : F64 := F64.ofBits d

/-- A code as it is stored: the word code × 16 (R58, 10_state.md R26). -/
def codeWord (code : BitVec 12) : SampleWord := code ++ 0#4

/-- The 12-bit code of a word: w[15:4] (42_buffer.md R78). -/
def wordCode (w : SampleWord) : BitVec 12 := w.extractLsb' 4 12

/-- The value of a word as the signed integer it holds (10_state.md R26). -/
def wordInt (w : SampleWord) : Int := w.toInt

/-- An unsigned result zero-extended to 64 bits (R55). -/
def zext64 (n : Nat) : Word := BitVec.ofNat 64 n

/-- A signed result as a 64-bit two's-complement integer. -/
def sext64 (z : Int) : Word := BitVec.ofInt 64 z

/-- One bit zero-extended to 64 bits. -/
def bit64 (b : Bool) : Word := BitVec.ofNat 64 b.toNat

/-- A binary64 result as its bit pattern (R55). -/
def bits64 (x : F64) : Word := x.toBits

/-- idx as a register of the parameter file, where it names one (41_control.md R70, R71). -/
def paramIndex (idx : BitVec 8) : Option (Fin 12) :=
  if h : idx.toNat < 12 then some ⟨idx.toNat, h⟩ else none

end Sys2Proof.Machine
end

