-- ==== Sys2Proof/Machine/Flags.lean ====
section
/-! DEFINITION. The flags of the block: STATUS (30_encoding.md R56) and, per voice, active and playing (10_state.md R32).
The block has no condition codes. F.FALLBACK is written by Machine/Filter.lean. -/

namespace Sys2Proof.Machine

/-- The STATUS codes: 0 OK, 1 REFUSED, 2 ILLEGAL (R56). -/
def Status.code : Status → BitVec 2
  | .ok => 0
  | .refused => 1
  | .illegal => 2

/-- `playing(c)`: ACTIVE = 1 or RTRGREM > 0 (R32). -/
def Voice.playing (v : Voice) : Bool := v.active || decide (0 < v.rtrgRem.toNat)

/-- The number whose bits are a list of flags, the first flag bit 0. -/
def flagBits : List Bool → Nat
  | [] => 0
  | b :: rest => b.toNat + 2 * flagBits rest

/-- RDSTATUS's RSP0: playing(c) in bit c, V[c].ACTIVE in bit 8 + c (41_control.md R72). -/
def State.statusWord (s : State) : Word :=
  zext64 (flagBits (channels.map (fun c => (s.voice c).playing) ++ channels.map (fun c => (s.voice c).active)))

/-- VSTAT's RSP0: `{V[c].ACTIVE, playing(c)}` (46_voice.md R129). -/
def Voice.statWord (v : Voice) : Word := zext64 (flagBits [v.playing, v.active])

end Sys2Proof.Machine
end

