-- ==== Sys2Proof/Machine/LoFi.lean ====
section
/-! DEFINITION. The lo-fi units and their commands QUANT and SRRP (44_lofi.md). -/

namespace Sys2Proof.Machine

/-- `quantize12(x)` (R88). -/
def quantize12 (x : F64) : F64 :=
  if x.isNaN then F64.cZero
  else
    let n := (x.mul F64.cN2048).roundHalfAway
    let n := F64.min (F64.max n F64.cNeg2048) F64.cN2047
    n.div F64.cN2048

/-- `srrPeriod(s) = 1 + (63 × s) div 127` (R90). -/
def srrPeriod (s : Param) : Nat := 1 + 63 * s.toNat / 127

/-- `srr(c, x, s)`: capture first, then count, then wrap (R91). The count is compared before it is stored, so it is
never cut to six bits. -/
def Voice.srr (v : Voice) (x : F64) (s : Param) : F64 × Voice :=
  if s = 0 then (x, v)
  else
    let hold := if v.srrCnt = 0 then x else v.srrHold
    let cnt := v.srrCnt.toNat + 1
    (hold, { v with srrHold := hold, srrCnt := if srrPeriod s ≤ cnt then 0 else BitVec.ofNat 6 cnt })

/-- QUANT (R93). -/
def execQuant (d0 : Word) (s : State) : Host.Outcome State Fault Refusal :=
  complete s (bits64 (quantize12 (f64 d0))) 0

/-- SRRP (R94): 0 for the amount 0, which has no period. -/
def execSrrp (val : Param) (s : State) : Host.Outcome State Fault Refusal :=
  complete s (if val = 0 then 0 else zext64 (srrPeriod val)) 0

end Sys2Proof.Machine
end

