-- ==== Sys2Proof/Machine/Buffer.lean ====
section
/-! DEFINITION. The sample buffer commands BUFCLR, BUFWR, BUFAPP, BUFAPQ, BUFRD and BUFLEN (42_buffer.md). The channel is
always the clamped CH of 30_encoding.md R57. -/

namespace Sys2Proof.Machine

/-- The length bound in force. -/
def State.maxLen (s : State) : Nat := Sys2Proof.Machine.maxLen s.cfg s.rate

/-- `LEN[c]` as an integer. -/
def State.lenOf (s : State) (c : Channel) : Nat := (s.buf c).len.toNat

/-- `MemWrite(c, a, w)` on the state (20_memory.md R38). -/
def State.memWrite (s : State) (c : Channel) (a : Nat) (w : SampleWord) : State :=
  s.setBuf c ((s.buf c).memWrite a w)

/-- BUFCLR (R74): `LEN[c] <- 0`, the words unchanged. -/
def execBufclr (ch : BitVec 8) (s : State) : Host.Outcome State Fault Refusal :=
  complete (s.setBuf (chan ch) { s.buf (chan ch) with len := 0 }) 0 0

/-- May BUFWR write index a of buffer c (R75): an overwrite below LEN, or an append at LEN below the bound? -/
def State.mayWrite (s : State) (c : Channel) (a : Nat) : Bool :=
  decide (a < s.lenOf c) || (decide (a = s.lenOf c) && decide (s.lenOf c < s.maxLen))

/-- BUFWR (R75). -/
def execBufwr (ch : BitVec 8) (code : BitVec 12) (d0 : Word) (s : State) : Host.Outcome State Fault Refusal :=
  if s.mayWrite (chan ch) (u64 d0) then complete (s.memWrite (chan ch) (u64 d0) (codeWord code)) 0 0
  else raise s .refused

/-- BUFAPP (R76). -/
def execBufapp (ch : BitVec 8) (code : BitVec 12) (s : State) : Host.Outcome State Fault Refusal :=
  if s.maxLen ≤ s.lenOf (chan ch) then raise s .refused
  else complete (s.memWrite (chan ch) (s.lenOf (chan ch)) (codeWord code)) (zext64 (s.lenOf (chan ch))) 0

/-- The code BUFAPQ stores for a real sample (R77): NaN to +0.0, clamp to [-1, 1], quantize. -/
def quantCode (x : F64) : Int :=
  let y := if x.isNaN then F64.cZero else F64.min (F64.max x F64.cNegOne) F64.cOne
  ((quantize12 y).mul F64.cN2048).trunc

/-- BUFAPQ (R77). -/
def execBufapq (ch : BitVec 8) (d0 : Word) (s : State) : Host.Outcome State Fault Refusal :=
  if s.maxLen ≤ s.lenOf (chan ch) then raise s .refused
  else
    complete (s.memWrite (chan ch) (s.lenOf (chan ch)) (BitVec.ofInt 16 (quantCode (f64 d0) * 16)))
      (zext64 (s.lenOf (chan ch))) (sext64 (quantCode (f64 d0)))

/-- BUFRD (R78). A word below LEN that nothing has written has no value to return; no run meets one (log entry 3). -/
def execBufrd (ch : BitVec 8) (d0 : Word) (s : State) : Host.Outcome State Fault Refusal :=
  if s.lenOf (chan ch) ≤ u64 d0 then raise s .refused
  else
    match (s.buf (chan ch)).memRead (u64 d0) with
    | some w => complete s (zext64 w.toNat) ((wordCode w).signExtend 64)
    | none => .fault (.unwrittenWord (chan ch) (u64 d0))

/-- BUFLEN (R79). -/
def execBuflen (ch : BitVec 8) (s : State) : Host.Outcome State Fault Refusal :=
  complete s (zext64 (s.lenOf (chan ch))) (zext64 s.maxLen)

end Sys2Proof.Machine
end

