-- ==== Sys2Proof/Machine/Trig.lean ====
section
/-! DEFINITION. The parameter TRIG: sinT and cosT (00_scope.md R9, R13; 92_eei_decisions.md D43).

The default is the correctly rounded binary64 sine and cosine. It is computed in fixed point with 1400 fraction bits:
the argument is reduced modulo 2 pi, the Taylor series is summed, and the sum is rounded once. Below 2^-27 the
correctly rounded sine of x is x and the cosine is 1.0. The error of the sum is far below the distance of any binary64
argument's sine or cosine from a rounding boundary (PRESUMED, log entry 8). -/

namespace Sys2Proof

/-- Fraction bits of the fixed-point sum. -/
def trigBits : Nat := 1400

/-- floor(2 pi * 2^1400), in base 2^256, most significant digit first. -/
def twoPiDigits : List Nat :=
  [0x6487ed5110b4611a62633145c06e0e6,
   0x8948127044533e63a0105df531d89cd9128a5043cc71a026ef7ca8cd9e69d218,
   0xd98158536f92f8a1ba7f09ab6b6a8e122f242dabb312f3f637a262174d31bf6b,
   0x585ffae5b7a035bf6f71c35fdad44cfd2d74f9208be258ff324943328f6722d9,
   0xee1003e5c50b1df82cc6d241b0e2ae9cd348b1fd47e9267afc1b2ae91ee51d6c,
   0xb0e3179ab1042a95dcf6a9483b84b4b36b3861aa7255e4c0278ba3604650c10b]

/-- floor(2 pi * 2^1400). -/
def twoPiFixed : Nat := twoPiDigits.foldl (fun n d => n * 2 ^ 256 + d) 0

/-- |x| modulo 2 pi, in units of 2^-1400. -/
def trigAngle (x : F64) : Nat := x.mag * 2 ^ (trigBits - 1074) % twoPiFixed

/-- The alternating sum term + ... of n terms: each next term is the one before times −y² / ((i+1)(i+2)), where y2 is
y² in units of 2^-1400 and i the power of y in the term. -/
def trigSeries : Nat → Nat → Nat → Int → Int → Int
  | 0, _, _, _, acc => acc
  | n + 1, i, y2, term, acc =>
    trigSeries n (i + 2) y2 (-(term * y2 / (2 ^ trigBits * ((i + 1) * (i + 2)) : Nat))) (acc + term)

/-- y² in units of 2^-1400. -/
def trigSquare (y : Nat) : Nat := y * y / 2 ^ trigBits

/-- sin |x| in units of 2^-1400. -/
def sinFixed (x : F64) : Int := trigSeries 80 1 (trigSquare (trigAngle x)) (trigAngle x) 0

/-- cos |x| in units of 2^-1400. -/
def cosFixed (x : F64) : Int := trigSeries 80 0 (trigSquare (trigAngle x)) (2 ^ trigBits : Nat) 0

/-- A fixed-point number of 1400 fraction bits rounded to binary64. -/
def roundFixed (z : Int) : F64 := F64.roundRat (decide (z < 0)) z.natAbs (2 ^ (trigBits - 1074))

/-- Is |x| below 2^-27? -/
def trigTiny (x : F64) : Bool := decide (x.mag < 2 ^ 1047)

/-- The correctly rounded sine (the default TRIG, D43). -/
@[irreducible] def sinDefault (x : F64) : F64 :=
  if !x.isFinite then F64.invalid .sin x x
  else if trigTiny x then x
  else roundFixed (if x.sign then -sinFixed x else sinFixed x)

/-- The correctly rounded cosine (the default TRIG, D43). -/
@[irreducible] def cosDefault (x : F64) : F64 :=
  if !x.isFinite then F64.invalid .cos x x
  else if trigTiny x then .fin false 1023 0
  else roundFixed (cosFixed x)

/-- `sinT(x)` (R13): the parameter's own value where it lists one, else the default. -/
def sinT (p : Params) (x : F64) : F64 :=
  match p.trig.find? (fun t => decide (t.arg = x)) with
  | some t => t.sin
  | none => sinDefault x

/-- `cosT(x)` (R13): the parameter's own value where it lists one, else the default. -/
def cosT (p : Params) (x : F64) : F64 :=
  match p.trig.find? (fun t => decide (t.arg = x)) with
  | some t => t.cos
  | none => cosDefault x

end Sys2Proof
end

