-- ==== Sys2Proof/Machine/Filter.lean ====
section
/-! DEFINITION. The resonant filter and the commands FILT, FSET, FRD, FMODE and CUTHZ (45_filter.md). -/

namespace Sys2Proof.Machine

/-! ## Inputs -/

/-- `modeFromParam(v)` (R96): 0..42 low-pass, 43..84 band-pass, 85..127 high-pass. -/
def modeFromParam (v : Param) : FilterMode :=
  if v.toNat ≤ 42 then .lowPass else if v.toNat ≤ 84 then .bandPass else .highPass

/-- The mode code of R33 and R111. -/
def FilterMode.code : FilterMode → Nat
  | .lowPass => 0
  | .bandPass => 1
  | .highPass => 2

/-- `Q = 0.5 + res × 10.0` (R98). -/
def qOf (res : F64) : F64 := F64.cHalf.add (res.mul F64.cTen)

/-- The cutoff in use (R99): a NaN request is passed on, any other is clamped, max first. -/
def clampCutoff (rate fcReq : F64) : F64 :=
  if fcReq.isNaN then fcReq
  else F64.min (F64.max fcReq F64.cTwenty) (F64.cFcMaxFrac.mul rate)

/-! ## Coefficients -/

/-- `derive(fs, fc, Q, mode)` in the evaluation order of R100. -/
def derive (p : Params) (fs fc q : F64) (mode : FilterMode) : Coeffs :=
  let w := ((F64.cTwo.mul F64.cPi).mul fc).div fs
  let sn := sinT p w
  let cs := cosT p w
  let alpha := sn.div (F64.cTwo.mul q)
  let b := match mode with
    | .lowPass => ((F64.cOne.sub cs).mul F64.cHalf, F64.cOne.sub cs, (F64.cOne.sub cs).mul F64.cHalf)
    | .bandPass => (sn.div F64.cTwo, F64.cZero, (sn.div F64.cTwo).neg)
    | .highPass => ((F64.cOne.add cs).mul F64.cHalf, (F64.cOne.add cs).neg, (F64.cOne.add cs).mul F64.cHalf)
  let a0 := F64.cOne.add alpha
  let a1 := F64.cNegTwo.mul cs
  let a2 := F64.cOne.sub alpha
  let div := F64.cOne.div a0
  ⟨b.1.mul div, b.2.1.mul div, b.2.2.mul div, a1.mul div, a2.mul div⟩

/-- All five coefficients are finite. -/
def Coeffs.allFinite (k : Coeffs) : Bool :=
  k.b0.isFinite && k.b1.isFinite && k.b2.isFinite && k.a1.isFinite && k.a2.isFinite

/-- The failure tests of R101 made before derive is run (its first two lines). -/
def deriveFails (fs fc q : F64) : Bool :=
  !fs.isFinite || fs.le F64.cZero || !fc.isFinite || fc.le F64.cZero || (F64.cTwo.mul fc).gt fs ||
    !q.isFinite || q.le F64.cZero

/-- The fallback set FB (R102): constants, not recomputed. -/
def Coeffs.fallbackSet : Coeffs where
  b0 := F64.ofBits 0x3F72DBA46E18CD80#64
  b1 := F64.ofBits 0x3F82DBA46E18CD80#64
  b2 := F64.ofBits 0x3F72DBA46E18CD80#64
  a1 := F64.ofBits 0xBFFCC9195111671C#64
  a2 := F64.ofBits 0x3FEA290FC59394A5#64

/-- The coefficients and FALLBACK flag of the four inputs (R101, R103). -/
def coeffsFor (p : Params) (rate fcReq res : F64) (mode : FilterMode) : Coeffs × Bool :=
  let q := qOf res
  let fc := clampCutoff rate fcReq
  if deriveFails rate fc q then (Coeffs.fallbackSet, true)
  else
    let k := derive p rate fc q mode
    if k.allFinite then (k, false) else (Coeffs.fallbackSet, true)

/-- `filterRecompute()` (R103): it writes the coefficients and FALLBACK, never the delay state. -/
def State.filterRecompute (s : State) : State :=
  s.setFilter { s.filter with
    coeffs := (coeffsFor s.cfg s.rate s.filter.fcReq s.filter.res s.filter.mode).1
    fallback := (coeffsFor s.cfg s.rate s.filter.fcReq s.filter.res s.filter.mode).2 }

/-- Power-on reset with other OPEN parameters than the defaults: every value of 70_reset_and_hazards.md R150, and the
coefficients that filterRecompute gives with the TRIG in force (R151, 00_scope.md R10). -/
def State.resetWith (p : Params) : State := ({ State.reset with cfg := p } : State).filterRecompute

/-! ## Processing -/

/-- The output y of one lane for input x (R105), each product and sum rounded once in the order written. -/
def laneOut (k : Coeffs) (d : Delay) (x : F64) : F64 :=
  ((((k.b0.mul x).add (k.b1.mul d.x1)).add (k.b2.mul d.x2)).sub (k.a1.mul d.y1)).sub (k.a2.mul d.y2)

/-- The delay state after one lane step (R105). -/
def Delay.shift (d : Delay) (x y : F64) : Delay := ⟨x, d.x1, y, d.y1⟩

/-- `processStereo(l, r)` (R106): the outputs of the two lanes and the new filter record. -/
def FilterState.processStereo (f : FilterState) (l r : F64) : F64 × F64 × FilterState :=
  let yl := laneOut f.coeffs f.left l
  let yr := laneOut f.coeffs f.right r
  (yl, yr, { f with left := f.left.shift l yl, right := f.right.shift r yr })

/-- One stereo filter step and its response: RSP0 = bits64(L), RSP1 = bits64(R) (R108, 47_frame.md R133).
DEDUCED (log entry 11): no clamp stands behind the finite output of 47_frame.md R134 and R107, which coefficient changes
between frames (R104 keeps the delay state) can break; the pseudocode of R105 is followed as it stands. Unsafe. -/
def filterStep (s : State) (l r : F64) : Host.Outcome State Fault Refusal :=
  let out := s.filter.processStereo l r
  complete (s.setFilter out.2.2) (bits64 out.1) (bits64 out.2.1)

/-! ## Commands -/

/-- The value FRD reads, where its selector names one (R110). -/
def FilterState.readback (f : FilterState) (sel : BitVec 8) : Option Word :=
  match sel.toNat with
  | 0 => some (bits64 f.coeffs.b0)
  | 1 => some (bits64 f.coeffs.b1)
  | 2 => some (bits64 f.coeffs.b2)
  | 3 => some (bits64 f.coeffs.a1)
  | 4 => some (bits64 f.coeffs.a2)
  | 5 => some (bit64 f.fallback)
  | 6 => some (bits64 f.fcReq)
  | 7 => some (bits64 f.res)
  | 8 => some (zext64 f.mode.code)
  | 9 => some (bits64 f.left.x1)
  | 10 => some (bits64 f.left.x2)
  | 11 => some (bits64 f.left.y1)
  | 12 => some (bits64 f.left.y2)
  | 13 => some (bits64 f.right.x1)
  | 14 => some (bits64 f.right.x2)
  | 15 => some (bits64 f.right.y1)
  | 16 => some (bits64 f.right.y2)
  | _ => none

/-- FILT (R108). -/
def execFilt (d0 d1 : Word) (s : State) : Host.Outcome State Fault Refusal :=
  filterStep s (f64 d0) (f64 d1)

/-- The state FSET leaves (R109): the three inputs written, then filterRecompute. -/
def State.fset (s : State) (fcReq res : F64) (mode : FilterMode) : State :=
  (s.setFilter { s.filter with fcReq := fcReq, res := res, mode := mode }).filterRecompute

/-- FSET (R109). -/
def execFset (val : Param) (d0 d1 : Word) (s : State) : Host.Outcome State Fault Refusal :=
  let s' := s.fset (f64 d0) (f64 d1) (modeFromParam val)
  complete s' (bit64 s'.filter.fallback) 0

/-- FRD (R110). -/
def execFrd (sel : BitVec 8) (s : State) : Host.Outcome State Fault Refusal :=
  match s.filter.readback sel with
  | some r => complete s r 0
  | none => raise s .illegal

/-- FMODE (R111). -/
def execFmode (val : Param) (s : State) : Host.Outcome State Fault Refusal :=
  complete s (zext64 (modeFromParam val).code) 0

/-- CUTHZ (R112). -/
def execCuthz (val : Param) (s : State) : Host.Outcome State Fault Refusal :=
  complete s (bits64 (cutoffHz val)) 0

end Sys2Proof.Machine
end

