-- ==== Sys2Proof/Machine/Control.lean ====
section
/-! DEFINITION. The control commands NOP, SETRATE, RDRATE, WRPARAM, RDPARAM and RDSTATUS (41_control.md). -/

namespace Sys2Proof.Machine

/-- NOP (R67). -/
def execNop (s : State) : Host.Outcome State Fault Refusal := complete s 0 0

/-- The rates SETRATE accepts: finite, 1.0 ≤ sr ≤ SR_MAX (R68). -/
def rateOk (p : Params) (sr : F64) : Bool := sr.isFinite && !sr.lt F64.cOne && !sr.gt p.srMax

/-- LEN cut to the bound where it is longer (R68). -/
def Buffer.cut (b : Buffer) (bound : Nat) : Buffer :=
  if bound < b.len.toNat then { b with len := BitVec.ofNat 32 bound } else b

/-- SETRATE's loop body for channel c: the voice at reset, the length cut to maxLen of the new rate (R68). -/
def State.resetChannel (s : State) (c : Channel) : State :=
  (s.setVoice c Voice.reset).setBuf c ((s.buf c).cut s.maxLen)

/-- Both lanes' delay state cleared (R68). -/
def State.clearDelay (s : State) : State :=
  s.setFilter { s.filter with left := Delay.reset, right := Delay.reset }

/-- The state a performed SETRATE leaves (R68, 70_reset_and_hazards.md R153). -/
def State.setRateReset (s : State) (sr : F64) : State :=
  ((channels.foldl State.resetChannel (s.setRate sr)).clearDelay).filterRecompute

/-- SETRATE (R68). -/
def execSetrate (d0 : Word) (s : State) : Host.Outcome State Fault Refusal :=
  if rateOk s.cfg (f64 d0) then complete (s.setRateReset (f64 d0)) 0 0 else raise s .refused

/-- RDRATE (R69). -/
def execRdrate (s : State) : Host.Outcome State Fault Refusal := complete s (bits64 s.rate) 0

/-- What a write of P[i] does beside the write: the filter inputs of indices 9, 10 and 11 (R70). -/
def State.applyParam (s : State) (i : Fin 12) (val : Param) : State :=
  match i.val with
  | 9 => (s.setFilter { s.filter with fcReq := cutoffHz val }).filterRecompute
  | 10 => (s.setFilter { s.filter with res := normParam val }).filterRecompute
  | 11 => (s.setFilter { s.filter with mode := modeFromParam val }).filterRecompute
  | _ => s

/-- WRPARAM (R70). -/
def execWrparam (idx : BitVec 8) (val : Param) (s : State) : Host.Outcome State Fault Refusal :=
  match paramIndex idx with
  | none => raise s .illegal
  | some i => complete ((s.setParam i val).applyParam i val) 0 0

/-- RDPARAM (R71). -/
def execRdparam (idx : BitVec 8) (s : State) : Host.Outcome State Fault Refusal :=
  match paramIndex idx with
  | none => raise s .illegal
  | some i => complete s (zext64 (s.param i).toNat) 0

/-- RDSTATUS (R72). -/
def execRdstatus (s : State) : Host.Outcome State Fault Refusal := complete s s.statusWord 0

end Sys2Proof.Machine
end

