-- ==== Sys2Proof/Machine/Engine.lean ====
section
/-! DEFINITION. The sample engine of a channel (43_sample_engine.md): operations on a voice record and the buffer it
plays, which is read by reference at each operation (10_state.md R29). -/

namespace Sys2Proof.Machine

/-- `engineTrigger(c, f)` (R81). -/
def Voice.engineTrigger (v : Voice) (b : Buffer) (f : F64) : Voice :=
  let p := f.mul b.lenF64
  { v with
    pos := F64.min (F64.max p F64.cZero) b.lenF64
    srrCnt := 0
    srrHold := F64.cZero }

/-- The sample value of a word: `toF64(w) / 32768.0` (R82). -/
def sampleValue (w : SampleWord) : F64 := (F64.ofInt (wordInt w)).div F64.cN32768

/-- The words at i and i+1, or the fault for the first of them that has no value. -/
def Buffer.bracket (b : Buffer) (c : Channel) (i : Nat) : Except Fault (SampleWord × SampleWord) :=
  match b.memRead i, b.memRead (i + 1) with
  | some w1, some w2 => .ok (w1, w2)
  | none, _ => .error (.unwrittenWord c i)
  | some _, none => .error (.unwrittenWord c (i + 1))

/-- `s1 + (s2 − s1) × frac` (R82). -/
def interpolate (w1 w2 : SampleWord) (frac : F64) : F64 :=
  (sampleValue w1).add (((sampleValue w2).sub (sampleValue w1)).mul frac)

/-- `readInterpolated(c, r)` (R82): +0.0 with POS not advanced when the buffer is empty or at the last sample, else the
interpolated value with POS advanced by r. -/
def Voice.readInterpolated (v : Voice) (b : Buffer) (c : Channel) (r : F64) : Except Fault (F64 × Voice) :=
  if b.len.toNat = 0 then .ok (F64.cZero, v)
  else
    match v.pos.floor with
    | none => .error (.positionOutOfRange c)
    | some i =>
      if (b.len.toNat : Int) - 1 ≤ i then .ok (F64.cZero, v)
      else if i < 0 then .error (.positionOutOfRange c)
      else
        match b.bracket c i.toNat with
        | .error e => .error e
        | .ok (w1, w2) =>
          .ok (interpolate w1 w2 (v.pos.sub (F64.ofInt i)), { v with pos := v.pos.add r })

/-- `readWithLoFi(c, r, s)`: interpolation, quantizer, reducer, in that order (R83). -/
def Voice.readWithLoFi (v : Voice) (b : Buffer) (c : Channel) (r : F64) (s : Param) :
    Except Fault (F64 × Voice) :=
  match v.readInterpolated b c r with
  | .error e => .error e
  | .ok (y, v') => .ok (v'.srr (quantize12 y) s)

/-- `engineFinished(c, e)` (R84). -/
def Voice.engineFinished (v : Voice) (b : Buffer) (e : F64) : Bool :=
  v.pos.ge (e.mul b.lenF64) || v.pos.ge b.lenF64

end Sys2Proof.Machine
end

