-- ==== Sys2Proof/Machine/Voice.lean ====
section
/-! DEFINITION. Voices, envelope and retrigger, and the commands TRIG, STOP, VSTEP, VSTAT, VRD and PITCH (46_voice.md).

An operation of voice c is a function of RATE, buffer c and V[c] alone, and gives the new V[c] (R113). -/

namespace Sys2Proof.Machine

/-! ## Snapshot-derived values (10_state.md R30) -/

/-- `startFrac(c)`. -/
def Voice.startFrac (v : Voice) : F64 := normParam (v.snapAt 0)

/-- `endFrac(c)`. -/
def Voice.endFrac (v : Voice) : F64 := normParam (v.snapAt 1)

/-- `ratio(c)`. -/
def Voice.ratio (v : Voice) : F64 := pitchRatio (v.snapAt 2)

/-- `srrAmt(c)`. -/
def Voice.srrAmt (v : Voice) : Param := v.snapAt 7

/-- `volume(c)`. -/
def Voice.volume (v : Voice) : F64 := normParam (v.snapAt 8)

/-! ## Trigger-time computations -/

/-- `holdSamples(c)` of a HOLD value (R116). -/
def holdSamples (rate : F64) (hold : Param) : Int := (((normParam hold).mul F64.cTwo).mul rate).trunc

/-- `decayRate(c)` of a DECAY value (R117). -/
def decayRateFor (rate : F64) (decay : Param) : F64 :=
  if decay = 0 then F64.cOne else F64.cOne.div (((normParam decay).mul F64.cFour).mul rate)

/-- `retrigInterval(c)` of an RTIM value (R118). -/
def retrigInterval (rate : F64) (rtim : Param) : Int := (((normParam rtim).mul F64.cHalf).mul rate).trunc

/-- `internalTrigger(c)` (R119). -/
def Voice.internalTrigger (v : Voice) (rate : F64) (b : Buffer) : Voice :=
  { ({ v with active := true } : Voice).engineTrigger b v.startFrac with
    env := F64.cOne
    holdRem := BitVec.ofInt 32 (holdSamples rate (v.snapAt 3))
    decayRate := decayRateFor rate (v.snapAt 4) }

/-- The snapshot TRIG takes: `P[0..8]` (R120). -/
def takeSnapshot (p : Vector Param 12) : Vector Param 9 :=
  #v[p[0], p[1], p[2], p[3], p[4], p[5], p[6], p[7], p[8]]

/-- The retrigger scheduler armed from the snapshot, or cancelled when its count is 0 (R120). -/
def Voice.armRetrigger (v : Voice) (rate : F64) : Voice :=
  if 0 < (v.snapAt 5).toNat then
    { v with
      rtrgRem := v.snapAt 5
      rtrgInt := BitVec.ofInt 32 (retrigInterval rate (v.snapAt 6))
      rtrgCnt := 0 }
  else { v with rtrgRem := 0, rtrgInt := 0, rtrgCnt := 0 }

/-- `trigger(c)` (R120). -/
def Voice.trigger (v : Voice) (p : Vector Param 12) (rate : F64) (b : Buffer) : Voice :=
  (({ v with snap := takeSnapshot p } : Voice).internalTrigger rate b).armRetrigger rate

/-! ## The per-sample state machine (R121) -/

/-- Stage 1, the retrigger scheduler (R122); it runs whether or not the voice is active. -/
def Voice.stepRetrigger (v : Voice) (rate : F64) (b : Buffer) : Voice :=
  if 0 < v.rtrgRem.toNat then
    if v.rtrgInt.toNat ≤ v.rtrgCnt.toNat + 1 then
      ({ v with rtrgCnt := 0, rtrgRem := v.rtrgRem - 1 } : Voice).internalTrigger rate b
    else { v with rtrgCnt := v.rtrgCnt + 1 }
  else v

/-- Stage 5, the envelope (R123). -/
def Voice.stepEnvelope (v : Voice) : Voice :=
  if 0 < v.holdRem.toNat then { v with holdRem := v.holdRem - 1 }
  else
    let env := v.env.sub v.decayRate
    if env.le F64.cZero then { v with env := F64.cZero, active := false }
    else { v with env := env }

/-- Stages 2 to 6 (R121). Stage 6 scales by the envelope level held at entry to stage 5 (90_conflicts.md C1). -/
def Voice.stepPlay (v : Voice) (b : Buffer) (c : Channel) : Except Fault (F64 × Voice) :=
  if v.active = false then .ok (F64.cZero, v)
  else if v.engineFinished b v.endFrac then .ok (F64.cZero, { v with active := false })
  else
    match v.readWithLoFi b c v.ratio v.srrAmt with
    | .error e => .error e
    | .ok (x, v') => .ok ((x.mul v'.env).mul v'.volume, v'.stepEnvelope)

/-- `process(c)` (R121). -/
def Voice.process (v : Voice) (rate : F64) (b : Buffer) (c : Channel) : Except Fault (F64 × Voice) :=
  (v.stepRetrigger rate b).stepPlay b c

/-- `process(c)` on the state: it writes V[c] and nothing else (R113). -/
def State.process (s : State) (c : Channel) : Except Fault (F64 × State) :=
  match (s.voice c).process s.rate (s.buf c) c with
  | .error e => .error e
  | .ok (y, v) => .ok (y, s.setVoice c v)

/-! ## Commands -/

/-- The voice STOP leaves (R127). -/
def Voice.stopped (v : Voice) : Voice :=
  { v with active := false, env := F64.cZero, holdRem := 0, rtrgRem := 0, rtrgInt := 0, rtrgCnt := 0 }

/-- The value VRD reads, where its selector names one (R130). -/
def Voice.readback (v : Voice) (sel : BitVec 8) : Option Word :=
  match sel.toNat with
  | 0 => some (bits64 v.pos)
  | 1 => some (bits64 v.env)
  | 2 => some (bit64 v.active)
  | 3 => some (zext64 v.holdRem.toNat)
  | 4 => some (bits64 v.decayRate)
  | 5 => some (zext64 v.rtrgRem.toNat)
  | 6 => some (zext64 v.rtrgInt.toNat)
  | 7 => some (zext64 v.rtrgCnt.toNat)
  | 8 => some (zext64 v.srrCnt.toNat)
  | 9 => some (bits64 v.srrHold)
  | 10 => some (bits64 v.ratio)
  | 16 => some (zext64 (v.snapAt 0).toNat)
  | 17 => some (zext64 (v.snapAt 1).toNat)
  | 18 => some (zext64 (v.snapAt 2).toNat)
  | 19 => some (zext64 (v.snapAt 3).toNat)
  | 20 => some (zext64 (v.snapAt 4).toNat)
  | 21 => some (zext64 (v.snapAt 5).toNat)
  | 22 => some (zext64 (v.snapAt 6).toNat)
  | 23 => some (zext64 (v.snapAt 7).toNat)
  | 24 => some (zext64 (v.snapAt 8).toNat)
  | _ => none

/-- TRIG (R126). -/
def execTrig (ch : BitVec 8) (s : State) : Host.Outcome State Fault Refusal :=
  complete (s.setVoice (chan ch) ((s.voice (chan ch)).trigger s.params s.rate (s.buf (chan ch)))) 0 0

/-- STOP (R127). -/
def execStop (ch : BitVec 8) (s : State) : Host.Outcome State Fault Refusal :=
  complete (s.setVoice (chan ch) (s.voice (chan ch)).stopped) 0 0

/-- VSTEP (R128). -/
def execVstep (ch : BitVec 8) (s : State) : Host.Outcome State Fault Refusal :=
  match s.process (chan ch) with
  | .error e => .fault e
  | .ok (y, s') => complete s' (bits64 y) 0

/-- VSTAT (R129). -/
def execVstat (ch : BitVec 8) (s : State) : Host.Outcome State Fault Refusal :=
  complete s (s.voice (chan ch)).statWord 0

/-- VRD (R130). -/
def execVrd (ch sel : BitVec 8) (s : State) : Host.Outcome State Fault Refusal :=
  match (s.voice (chan ch)).readback sel with
  | some r => complete s r 0
  | none => raise s .illegal

/-- PITCH (R131). -/
def execPitch (val : Param) (s : State) : Host.Outcome State Fault Refusal :=
  complete s (bits64 (pitchRatio val)) 0

end Sys2Proof.Machine
end

