-- ==== Sys2Proof/Machine/Frame.lean ====
section
/-! DEFINITION. The output frame (47_frame.md). -/

namespace Sys2Proof.Machine

/-- The mix: `m = m + process(c)` for each channel of the list in turn, one rounding per sum (R133). -/
def State.mixFrom (s : State) (m : F64) : List Channel → Except Fault (F64 × State)
  | [] => .ok (m, s)
  | c :: rest =>
    match s.process c with
    | .error e => .error e
    | .ok (y, s') => State.mixFrom s' (m.add y) rest

/-- FRAME (R133): one step of every voice in channel order, then one step of the filter with the mix on both lanes. -/
def execFrame (s : State) : Host.Outcome State Fault Refusal :=
  match s.mixFrom F64.cZero channels with
  | .error e => .fault e
  | .ok (m, s') => filterStep s' m m

end Sys2Proof.Machine
end

