-- ==== Sys2Proof/Machine/Dispatch.lean ====
section
/-! DEFINITION. The meaning of every instruction: one arm per constructor of Instr, one direct call each. -/

namespace Sys2Proof.Machine

def exec (i : Instr) (s : State) : Host.Outcome State Fault Refusal :=
  match i with
  | .nop => Sys2Proof.Machine.execNop s
  | .setrate d0 => Sys2Proof.Machine.execSetrate d0 s
  | .rdrate => Sys2Proof.Machine.execRdrate s
  | .wrparam idx val => Sys2Proof.Machine.execWrparam idx val s
  | .rdparam idx => Sys2Proof.Machine.execRdparam idx s
  | .rdstatus => Sys2Proof.Machine.execRdstatus s
  | .bufclr ch => Sys2Proof.Machine.execBufclr ch s
  | .bufwr ch code d0 => Sys2Proof.Machine.execBufwr ch code d0 s
  | .bufapp ch code => Sys2Proof.Machine.execBufapp ch code s
  | .bufapq ch d0 => Sys2Proof.Machine.execBufapq ch d0 s
  | .bufrd ch d0 => Sys2Proof.Machine.execBufrd ch d0 s
  | .buflen ch => Sys2Proof.Machine.execBuflen ch s
  | .trig ch => Sys2Proof.Machine.execTrig ch s
  | .stop ch => Sys2Proof.Machine.execStop ch s
  | .vstep ch => Sys2Proof.Machine.execVstep ch s
  | .vstat ch => Sys2Proof.Machine.execVstat ch s
  | .vrd ch sel => Sys2Proof.Machine.execVrd ch sel s
  | .pitch val => Sys2Proof.Machine.execPitch val s
  | .frame => Sys2Proof.Machine.execFrame s
  | .filt d0 d1 => Sys2Proof.Machine.execFilt d0 d1 s
  | .fset val d0 d1 => Sys2Proof.Machine.execFset val d0 d1 s
  | .frd sel => Sys2Proof.Machine.execFrd sel s
  | .fmode val => Sys2Proof.Machine.execFmode val s
  | .cuthz val => Sys2Proof.Machine.execCuthz val s
  | .quant d0 => Sys2Proof.Machine.execQuant d0 s
  | .srrp val => Sys2Proof.Machine.execSrrp val s

end Sys2Proof.Machine
end

