-- ==== Sys2Proof/Machine/Step.lean ====
section
/-! DEFINITION. One step: the next command of the host is taken, decoded and performed to completion (30_encoding.md R53,
R59). The block has no program counter and no stored program (10_state.md R20). -/

namespace Sys2Proof.Machine

/-- One step of the machine.
With no command presented the block is idle and holds all state (60_exceptions.md R148).
An unassigned opcode ends with STATUS = ILLEGAL and changes nothing else (R59, R61). -/
def step (s : State) : Host.Outcome State Fault Refusal :=
  match s.commands with
  | [] => .next s
  | c :: rest =>
    match decode c with
    | .error _ => raise { s with commands := rest } .illegal
    | .ok i => exec i { s with commands := rest }

/-- s with the command of these bits presented next: CMD in bits 31..0, D0 in bits 95..32, D1 in bits 159..96, and 0
above nbits. -/
def State.withFetchWord (s : State) (nbits w : Nat) : State :=
  { s with commands := commandOfBits nbits w :: s.commands }

end Sys2Proof.Machine
end

