-- ==== Sys2Proof/Safety.lean ====
section
/-! DEFINITION. What counts as a sound state, and the notions the statements about the machine use.

A sound state meets the ranges and relations the spec states of every state a run reaches (00_scope.md R10, 10_state.md
R22 to R34, 45_filter.md R104). Statements about every state that could fail only in states no run reaches take
`State.Inv` as a premise. -/

namespace Sys2Proof.Machine

/-- The constraint on the OPEN parameters (00_scope.md R10). -/
def paramsValid (p : Params) : Prop :=
  1 ≤ p.bufCap ∧ p.bufCap < 2 ^ 32 ∧ p.srMax.isFinite = true ∧ F64.cOne.le p.srMax = true ∧
    (p.srMax.mul F64.cTwo).lt (F64.ofInt 4294967296) = true

/-- The bound trunc(2.0 × SR_MAX) of HOLDREM (10_state.md R27). -/
def holdBound (p : Params) : Int := (F64.cTwo.mul p.srMax).trunc

/-- The bound trunc(0.5 × SR_MAX) of RTRGINT (10_state.md R27). -/
def intervalBound (p : Params) : Int := (F64.cHalf.mul p.srMax).trunc

/-- A multiple k of 1/2048 with k in −2048..2047: a quantizer output (44_lofi.md R88). -/
def onGrid (x : F64) : Prop :=
  x.isFinite = true ∧ ∃ k : Int, -2048 ≤ k ∧ k ≤ 2047 ∧ x.units = k * 2 ^ 1063

/-- A sound buffer under the length bound: LEN within it (R25), the memory in canonical form with no byte past
BUF_CAP (R37), and every word below LEN written and a multiple of 16 (R26). -/
def bufferOk (p : Params) (bound : Nat) (b : Buffer) : Prop :=
  b.len.toNat ≤ bound ∧ Memory.wf b.mem ∧ (∀ cell ∈ b.mem, cell.1 < 2 * p.bufCap) ∧
    ∀ a < b.len.toNat, ∃ w, b.memRead a = some w ∧ w.extractLsb' 0 4 = 0#4

/-- The ranges of the binary64 fields of a voice (R27, R31). -/
def voiceRealsOk (v : Voice) : Prop :=
  (v.pos.isFinite = true ∧ F64.cZero.le v.pos = true) ∧
  (F64.cZero.le v.env = true ∧ v.env.le F64.cOne = true) ∧
  (v.decayRate = F64.cZero ∨
    (F64.cZero.lt v.decayRate = true ∧ v.decayRate.le (F64.ofBits 0x403FC00000000000#64) = true)) ∧
  onGrid v.srrHold

/-- The ranges of the counters of a voice (R27, R31). -/
def voiceCountsOk (p : Params) (v : Voice) : Prop :=
  (v.holdRem.toNat : Int) ≤ holdBound p ∧ (v.rtrgInt.toNat : Int) ≤ intervalBound p ∧
  (v.rtrgCnt.toNat < v.rtrgInt.toNat ∨ v.rtrgCnt = 0) ∧
  (v.srrAmt ≠ 0 → v.srrCnt.toNat < srrPeriod v.srrAmt)

/-- A sound voice record (R27, R31). -/
def voiceOk (p : Params) (v : Voice) : Prop := voiceRealsOk v ∧ voiceCountsOk p v

/-- The coefficients and FALLBACK are those of the four current inputs (45_filter.md R104). -/
def State.coeffsCurrent (s : State) : Prop :=
  coeffsFor s.cfg s.rate s.filter.fcReq s.filter.res s.filter.mode = (s.filter.coeffs, s.filter.fallback)

/-- The invariant of the machine. -/
structure State.Inv (s : State) : Prop where
  /-- R10 -/
  cfgValid : paramsValid s.cfg
  /-- R22: finite and 1.0 ≤ RATE ≤ SR_MAX -/
  rateValid : rateOk s.cfg s.rate = true
  /-- R25, R26, R37 -/
  bufs : ∀ c, bufferOk s.cfg s.maxLen (s.buf c)
  /-- R27, R31 -/
  voices : ∀ c, voiceOk s.cfg (s.voice c)
  /-- R104 -/
  coeffs : s.coeffsCurrent

/-! ## Commands and their outcomes -/

/-- The 26 opcodes of the map (30_encoding.md R60). -/
def assignedOpcodes : List (BitVec 8) :=
  [0x00, 0x01, 0x02, 0x03, 0x04, 0x05, 0x10, 0x11, 0x12, 0x13, 0x14, 0x15, 0x20, 0x21, 0x22, 0x23, 0x24, 0x25,
   0x30, 0x31, 0x32, 0x33, 0x34, 0x35, 0x40, 0x41]

/-- The REFUSED causes (60_exceptions.md R135); every other command has none. -/
def refusalCause (s : State) : Instr → Prop
  | .setrate d0 =>
    (f64 d0).isFinite = false ∨ (f64 d0).lt F64.cOne = true ∨ s.cfg.srMax.lt (f64 d0) = true
  | .bufwr ch _ d0 =>
    s.lenOf (chan ch) < u64 d0 ∨ (u64 d0 = s.lenOf (chan ch) ∧ s.lenOf (chan ch) = s.maxLen)
  | .bufapp ch _ => s.lenOf (chan ch) = s.maxLen
  | .bufapq ch _ => s.lenOf (chan ch) = s.maxLen
  | .bufrd ch d0 => s.lenOf (chan ch) ≤ u64 d0
  | .nop | .rdrate | .wrparam _ _ | .rdparam _ | .rdstatus | .bufclr _ | .buflen _ => False
  | .trig _ | .stop _ | .vstep _ | .vstat _ | .vrd _ _ | .pitch _ | .frame => False
  | .filt _ _ | .fset _ _ _ | .frd _ | .fmode _ | .cuthz _ | .quant _ | .srrp _ => False

/-- The commands that only read: they answer and write no state (60_exceptions.md R147, R67). -/
def onlyReads : Instr → Bool
  | .nop | .rdrate | .rdparam _ | .rdstatus | .bufrd _ _ | .buflen _ | .vstat _ | .vrd _ _ => true
  | .pitch _ | .frd _ | .fmode _ | .cuthz _ | .quant _ | .srrp _ => true
  | .setrate _ | .wrparam _ _ | .bufclr _ | .bufwr _ _ _ | .bufapp _ _ | .bufapq _ _ => false
  | .trig _ | .stop _ | .vstep _ | .frame | .filt _ _ | .fset _ _ _ => false

/-- The byte at an address of sample memory c. -/
def State.byteAt (s : State) (c : Channel) (a : Nat) : Option Byte := (s.buf c).mem.read a

/-! ## Runs of one voice -/

/-- n steps of a voice in a row, with the outputs in order; the rate and the buffer stay as they are. -/
def Voice.run (rate : F64) (b : Buffer) (c : Channel) : Nat → Voice → Except Fault (List F64 × Voice)
  | 0, v => .ok ([], v)
  | n + 1, v =>
    match v.process rate b c with
    | .error e => .error e
    | .ok (y, v') =>
      match Voice.run rate b c n v' with
      | .error e => .error e
      | .ok (ys, w) => .ok (y :: ys, w)

/-- The level k decrements of r below e (46_voice.md R124). -/
def envLevel (e r : F64) : Nat → F64
  | 0 => e
  | k + 1 => (envLevel e r k).sub r

/-- The outputs of the reducer of a voice for a row of inputs (44_lofi.md R92). -/
def Voice.reduce (v : Voice) (s : Param) : List F64 → List F64
  | [] => []
  | x :: rest => (v.srr x s).1 :: Voice.reduce (v.srr x s).2 s rest

/-! ## Exact values and rounding (00_scope.md R12) -/

/-- The exact value of r is a nearest one to num/den units among the finite values, and at a tie the one whose last
fraction bit is 0. -/
def nearestUnits (r : F64) (num : Int) (den : Nat) : Prop :=
  ∀ z : F64, z.isFinite = true →
    |r.units * den - num| ≤ |z.units * den - num| ∧
    (|r.units * den - num| = |z.units * den - num| → z.units ≠ r.units → r.toBits.getLsbD 0 = false)

/-- r is the value num/den units rounded to nearest, ties to even: finite and nearest below the overflow threshold
(2^54 − 1) × 2^2044 units, infinite with the sign of num from there on. -/
def roundedFrom (r : F64) (num : Int) (den : Nat) : Prop :=
  if num.natAbs < (2 ^ 54 - 1) * 2 ^ 2044 * den then r.isFinite = true ∧ nearestUnits r num den
  else r = .inf (decide (num < 0))

/-- The integer nearest to 2048 x of a finite x, ties away from zero (44_lofi.md R88). -/
def quantStep (x : F64) : Int :=
  if x.sign then -(((4096 * x.mag + F64.unitsOne) / (2 * F64.unitsOne) : Nat) : Int)
  else (((4096 * x.mag + F64.unitsOne) / (2 * F64.unitsOne) : Nat) : Int)

end Sys2Proof.Machine
end

