-- ==== Sys2Proof/Certificates/Slice0/Obligations.lean ====
section
/-! DEFINITION. The statements for the provers, one `def` each. Each says which rule of spec/ it formalises; a statement
that rests on a choice of the model names its log entry. `s.Inv` is the invariant of Safety.lean. -/

open Sys2Proof Sys2Proof.Machine

/-! ## Encoding and the step -/

/-- 30_encoding.md R54, R60, R63: decoding an encoded instruction gives it back, every operand at every value. -/
def Obligations.DecodeOfEncode : Prop :=
  ∀ i : Instr, decode (encode i) = .ok i

/-- 30_encoding.md R60: the commands that decode are exactly those with one of the 26 assigned opcodes. -/
def Obligations.AssignedOpcodesDecode : Prop :=
  ∀ c : Command, (∃ i, decode c = .ok i) ↔ opcField c.cmd ∈ assignedOpcodes

/-- 30_encoding.md R61: an unassigned opcode and an index or selector that names nothing are ILLEGAL and change nothing;
bits and operand words that a row does not read are ignored. -/
def Obligations.ReservedAndIgnoredEncodings : Prop :=
  (∀ (s : State) (c : Command) (rest : List Command), s.commands = c :: rest → opcField c.cmd ∉ assignedOpcodes →
    step s = .next (({ s with commands := rest } : State).respond .illegal 0 0)) ∧
  (∀ (s : State) (idx : BitVec 8) (val : Param), 12 ≤ idx.toNat →
    exec (.wrparam idx val) s = .next (s.respond .illegal 0 0) ∧
    exec (.rdparam idx) s = .next (s.respond .illegal 0 0)) ∧
  (∀ (s : State) (ch sel : BitVec 8), (11 ≤ sel.toNat ∧ sel.toNat ≤ 15) ∨ 25 ≤ sel.toNat →
    exec (.vrd ch sel) s = .next (s.respond .illegal 0 0)) ∧
  (∀ (s : State) (sel : BitVec 8), 17 ≤ sel.toNat → exec (.frd sel) s = .next (s.respond .illegal 0 0)) ∧
  (∀ (c c' : Command) (i : Instr), decode c = .ok i → c'.cmd &&& i.readMask = c.cmd &&& i.readMask →
    (i.readsD0 = true → c'.d0 = c.d0) → (i.readsD1 = true → c'.d1 = c.d1) → decode c' = .ok i)

/-- 30_encoding.md R65: the encoding examples, both ways, and the channel that c200 names. -/
def Obligations.EncodingExamples : Prop :=
  (∀ p ∈ ([
      (.nop, ⟨0x00000000, 0, 0⟩),
      (.setrate 0x40E5888000000000, ⟨0x01000000, 0x40E5888000000000, 0⟩),
      (.wrparam 2 76, ⟨0x0300024C, 0, 0⟩),
      (.bufwr 3 (BitVec.ofInt 12 (-512)) 5, ⟨0x11030E00, 0x0000000000000005, 0⟩),
      (.bufapp 0 2047, ⟨0x120007FF, 0, 0⟩),
      (.trig 200, ⟨0x20C80000, 0, 0⟩),
      (.vrd 1 17, ⟨0x24010011, 0, 0⟩),
      (.fset 0 0x7FF8000000000000 0, ⟨0x32000000, 0x7FF8000000000000, 0x0000000000000000⟩),
      (.quant 0x3FE0000000000000, ⟨0x40000000, 0x3FE0000000000000, 0⟩)] : List (Instr × Command)),
    encode p.1 = p.2 ∧ decode p.2 = .ok p.1) ∧
  chan 200 = 7

/-- 30_encoding.md R53, R59, 60_exceptions.md R148: a step takes the next command the host presents off the list and runs
the instruction it decodes to; with none presented the block holds all state. The list of commands is the model's own
(log entry 2). -/
def Obligations.StepRunsDecodedCommand : Prop :=
  (∀ (s : State) (c : Command) (rest : List Command) (i : Instr), s.commands = c :: rest → decode c = .ok i →
    step s = exec i { s with commands := rest }) ∧
  (∀ s : State, s.commands = [] → step s = .next s)

/-! ## Reset -/

/-- 70_reset_and_hazards.md R150: every reset value the table gives. The response field and the empty list of commands
are the model's (log entry 2) and are not stated. -/
def Obligations.ResetState : Prop :=
  State.reset.rate.toBits = 0x40E5888000000000 ∧
  State.reset.params.toList = [0, 127, 64, 0, 0, 0, 0, 0, 127, 127, 0, 0] ∧
  (∀ c, State.reset.lenOf c = 0 ∧ ∀ a, State.reset.byteAt c a = none) ∧
  (∀ c, (State.reset.voice c).pos.toBits = 0 ∧ (State.reset.voice c).env.toBits = 0 ∧
    (State.reset.voice c).active = false ∧ (State.reset.voice c).holdRem = 0 ∧
    (State.reset.voice c).decayRate.toBits = 0 ∧ (State.reset.voice c).rtrgRem = 0 ∧
    (State.reset.voice c).rtrgInt = 0 ∧ (State.reset.voice c).rtrgCnt = 0 ∧ (State.reset.voice c).srrCnt = 0 ∧
    (State.reset.voice c).srrHold.toBits = 0 ∧
    (State.reset.voice c).snap.toList = [0, 127, 64, 0, 0, 0, 0, 0, 127]) ∧
  State.reset.filter.fcReq.toBits = 0x40D3880000000000 ∧ State.reset.filter.fcReq = cutoffHz 127 ∧
  State.reset.filter.res.toBits = 0 ∧ State.reset.filter.res = normParam 0 ∧
  State.reset.filter.mode = modeFromParam 0 ∧ State.reset.filter.mode.code = 0 ∧
  (∀ d ∈ [State.reset.filter.left, State.reset.filter.right],
    d.x1.toBits = 0 ∧ d.x2.toBits = 0 ∧ d.y1.toBits = 0 ∧ d.y2.toBits = 0)

/-- 70_reset_and_hazards.md R151: the cutoff, Q, w and coefficients that filterRecompute gives at reset with the default
TRIG, whose sine and cosine are the model's own computation of the correctly rounded ones (log entry 8); and with any other
parameters (log entry 1) the coefficients that filterRecompute gives with their TRIG, every other value as at reset. -/
def Obligations.ResetCoefficients : Prop :=
  (clampCutoff State.reset.rate State.reset.filter.fcReq).toBits = 0x40D3614000000000 ∧
  (qOf State.reset.filter.res).toBits = 0x3FE0000000000000 ∧
  State.reset.filter.coeffs.b0.toBits = 0x3FE7D8FBD79F1152 ∧
  State.reset.filter.coeffs.b1.toBits = 0x3FF7D8FBD79F1152 ∧
  State.reset.filter.coeffs.b2.toBits = 0x3FE7D8FBD79F1152 ∧
  State.reset.filter.coeffs.a1.toBits = 0x3FF73FD61D9DF543 ∧
  State.reset.filter.coeffs.a2.toBits = 0x3FE0E44323405AC2 ∧
  State.reset.filter.fallback = false ∧
  State.reset.filterRecompute = State.reset ∧
  (((F64.cTwo.mul F64.cPi).mul (F64.ofBits 0x40D3614000000000)).div State.reset.rate).toBits = 0x40069E9565708EFC ∧
  State.resetWith Params.default = State.reset ∧
  ∀ (p : Params) (t : State) (k : Coeffs), t = State.resetWith p →
    k = derive p (F64.ofBits 0x40E5888000000000) (F64.ofBits 0x40D3614000000000) (F64.ofBits 0x3FE0000000000000)
      .lowPass →
    (k.allFinite = true → t.filter.coeffs = k ∧ t.filter.fallback = false) ∧
    (k.allFinite = false → t.filter.coeffs = Coeffs.fallbackSet ∧ t.filter.fallback = true) ∧
    t = { State.reset with
      cfg := p
      filter := { State.reset.filter with coeffs := t.filter.coeffs, fallback := t.filter.fallback } }

/-- 10_state.md R22 to R34: the state after reset meets the invariant, with the default parameters and with any others
whose SR_MAX accepts the reset RATE. -/
def Obligations.ResetMeetsInvariant : Prop :=
  State.reset.Inv ∧
  ∀ p : Params, paramsValid p → (F64.ofBits 0x40E5888000000000).le p.srMax = true → (State.resetWith p).Inv

/-! ## Rules over every command -/

/-- 10_state.md R22, R25, R26, R27, R31, R34, 45_filter.md R104: every step keeps the invariant. -/
def Obligations.StepKeepsInvariant : Prop :=
  ∀ s t : State, s.Inv → step s = .next t → t.Inv

/-- 70_reset_and_hazards.md R156: no command can fail to complete: a sound state never faults and is never refused. -/
def Obligations.StepAlwaysAnswers : Prop :=
  ∀ s : State, s.Inv → ∃ t, step s = .next t

/-- 45_filter.md R104: the coefficients and FALLBACK are those of the four current inputs after every step, whatever else
the state holds. -/
def Obligations.CoefficientsStayCurrent : Prop :=
  ∀ s t : State, s.coeffsCurrent → step s = .next t → t.coeffsCurrent

/-- 60_exceptions.md R136, 00_scope.md R15: a command that ends with ILLEGAL or REFUSED gives two zero results and
changes nothing. -/
def Obligations.FailedCommandChangesNothing : Prop :=
  ∀ (s t : State) (c : Command) (rest : List Command), s.commands = c :: rest → step s = .next t →
    t.response.status ≠ .ok →
    t = ({ s with commands := rest } : State).respond t.response.status 0 0

/-- 60_exceptions.md R135: each STATUS exactly from its causes; STATUS 3 is never returned. -/
def Obligations.StatusCauses : Prop :=
  (∀ (s t : State) (c : Command) (rest : List Command), s.Inv → s.commands = c :: rest → step s = .next t →
    (t.response.status = .illegal ↔
      opcField c.cmd ∉ assignedOpcodes ∨ ∃ i, decode c = .ok i ∧ i.wellFormed = false) ∧
    (t.response.status = .refused ↔ ∃ i, decode c = .ok i ∧ refusalCause s i)) ∧
  (∀ st : Status, st.code ≠ 3)

/-- 10_state.md R22: RATE is 44100.0 at reset and is written only by SETRATE, with a finite value in [1.0, SR_MAX]. -/
def Obligations.RateWrittenOnlyBySetrate : Prop :=
  State.reset.rate.toBits = 0x40E5888000000000 ∧
  ∀ (i : Instr) (s t : State), exec i s = .next t → t.rate ≠ s.rate →
    ∃ d0, i = .setrate d0 ∧ t.rate = F64.ofBits d0 ∧ t.rate.isFinite = true ∧
      (F64.ofBits 0x3FF0000000000000).le t.rate = true ∧ s.cfg.srMax.lt t.rate = false

/-- 10_state.md R24, 70_reset_and_hazards.md R158: a parameter register changes only by WRPARAM, a snapshot only by TRIG
of its channel or by SETRATE, and a voice record only by a command that names it, by FRAME or by SETRATE. -/
def Obligations.VoiceAndParameterWriters : Prop :=
  ∀ (i : Instr) (s t : State), exec i s = .next t →
    (t.params ≠ s.params → ∃ idx val, i = .wrparam idx val) ∧
    (∀ c, (t.voice c).snap ≠ (s.voice c).snap → (∃ ch, i = .trig ch ∧ chan ch = c) ∨ ∃ d0, i = .setrate d0) ∧
    (∀ c, t.voice c ≠ s.voice c →
      (∃ ch, (i = .trig ch ∨ i = .stop ch ∨ i = .vstep ch) ∧ chan ch = c) ∨ i = .frame ∨ ∃ d0, i = .setrate d0)

/-- 20_memory.md R37, R44: a byte of sample memory c changes only by BUFWR, BUFAPP or BUFAPQ of channel c, and LEN[c]
only by those, by BUFCLR of channel c or by SETRATE. -/
def Obligations.MemoryWriters : Prop :=
  ∀ (i : Instr) (s t : State) (c : Channel), exec i s = .next t →
    (∀ a, t.byteAt c a ≠ s.byteAt c a →
      ∃ ch, chan ch = c ∧ ((∃ code d0, i = .bufwr ch code d0) ∨ (∃ code, i = .bufapp ch code) ∨
        ∃ d0, i = .bufapq ch d0)) ∧
    (t.lenOf c ≠ s.lenOf c →
      (∃ ch, chan ch = c ∧ ((∃ code d0, i = .bufwr ch code d0) ∨ (∃ code, i = .bufapp ch code) ∨
        (∃ d0, i = .bufapq ch d0) ∨ i = .bufclr ch)) ∨ ∃ d0, i = .setrate d0)

/-- 60_exceptions.md R147, 20_memory.md R44: the read commands and the pure commands leave every piece of state as it
was: all of memory, every register, every voice, the filter. -/
def Obligations.ReadsChangeNothing : Prop :=
  ∀ (i : Instr) (s t : State), onlyReads i = true → exec i s = .next t → t = { s with response := t.response }

/-! ## Control commands -/

/-- 41_control.md R67, R69, R71: NOP, RDRATE and RDPARAM. -/
def Obligations.NopRdrateRdparamResults : Prop :=
  (∀ s : State, exec .nop s = .next (s.respond .ok 0 0)) ∧
  (∀ c : Command, opcField c.cmd = 0x00 → decode c = .ok .nop) ∧
  (∀ c : Command, opcField c.cmd = 0x02 → decode c = .ok .rdrate) ∧
  (∀ c : Command, opcField c.cmd = 0x04 → decode c = .ok (.rdparam (idxField c.cmd))) ∧
  (∀ s : State, exec .rdrate s = .next (s.respond .ok s.rate.toBits 0)) ∧
  State.reset.rate.toBits = 0x40E5888000000000 ∧
  (∀ (s : State) (idx : BitVec 8) (h : idx.toNat < 12),
    exec (.rdparam idx) s = .next (s.respond .ok ((s.params[idx.toNat]).setWidth 64) 0)) ∧
  (∀ (s : State) (idx : BitVec 8), 12 ≤ idx.toNat → exec (.rdparam idx) s = .next (s.respond .illegal 0 0)) ∧
  exec (.rdparam 1) State.reset = .next (State.reset.respond .ok 127 0)

/-- 41_control.md R70: WRPARAM writes P[idx] and, for the indices 9, 10 and 11, the filter input and the coefficients of
the new inputs; it keeps the delay state and every voice, and a second write of the same value has no effect. -/
def Obligations.WrparamResult : Prop :=
  (∀ (s : State) (idx : BitVec 8) (val : Param) (_ : idx.toNat < 12), ∃ t,
    exec (.wrparam idx val) s = .next t ∧ t.response = ⟨.ok, 0, 0⟩ ∧ t.params = s.params.set idx.toNat val ∧
    (idx.toNat < 9 → t.filter = s.filter) ∧
    t.filter.fcReq = (if idx.toNat = 9 then cutoffHz val else s.filter.fcReq) ∧
    t.filter.res = (if idx.toNat = 10 then normParam val else s.filter.res) ∧
    t.filter.mode = (if idx.toNat = 11 then modeFromParam val else s.filter.mode) ∧
    (9 ≤ idx.toNat → t.coeffsCurrent) ∧
    t.filter.left = s.filter.left ∧ t.filter.right = s.filter.right ∧
    t = { s with params := t.params, filter := t.filter, response := t.response } ∧
    exec (.wrparam idx val) t = .next t) ∧
  (∀ (s : State) (idx : BitVec 8) (val : Param), 12 ≤ idx.toNat →
    exec (.wrparam idx val) s = .next (s.respond .illegal 0 0))

/-- 41_control.md R72, 46_voice.md R129, 10_state.md R32: RDSTATUS and VSTAT give the two flags of each voice, bit by
bit. -/
def Obligations.StatusWordBits : Prop :=
  (∀ s : State, ∃ w : Word, exec .rdstatus s = .next (s.respond .ok w 0) ∧ w.toNat < 2 ^ 16 ∧
    ∀ c : Channel,
      w.getLsbD c.val = ((s.voice c).active || decide (0 < (s.voice c).rtrgRem.toNat)) ∧
      w.getLsbD (8 + c.val) = (s.voice c).active) ∧
  (∀ (s : State) (ch : BitVec 8), ∃ w : Word, exec (.vstat ch) s = .next (s.respond .ok w 0) ∧ w.toNat < 4 ∧
    w.getLsbD 0 = ((s.voice (chan ch)).active || decide (0 < (s.voice (chan ch)).rtrgRem.toNat)) ∧
    w.getLsbD 1 = (s.voice (chan ch)).active)

/-- 41_control.md R68, 70_reset_and_hazards.md R153: a SETRATE in range resets every voice, cuts every length to the new
bound, clears the delay state and recomputes the coefficients, and keeps the rest; any other rate is refused. -/
def Obligations.SetrateResult : Prop :=
  ∀ (s : State) (d0 : Word), paramsValid s.cfg →
    ((F64.ofBits d0).isFinite = true → (F64.ofBits 0x3FF0000000000000).le (F64.ofBits d0) = true →
      (F64.ofBits d0).le s.cfg.srMax = true →
      ∃ t, exec (.setrate d0) s = .next t ∧ t.response = ⟨.ok, 0, 0⟩ ∧ t.rate = F64.ofBits d0 ∧
        (∀ c, t.voice c = State.reset.voice c) ∧
        (∀ c, t.lenOf c = Nat.min (s.lenOf c) (maxLen s.cfg (F64.ofBits d0))) ∧
        (∀ c a, t.byteAt c a = s.byteAt c a) ∧
        t.filter.fcReq = s.filter.fcReq ∧ t.filter.res = s.filter.res ∧ t.filter.mode = s.filter.mode ∧
        t.filter.left = State.reset.filter.left ∧ t.filter.right = State.reset.filter.right ∧ t.coeffsCurrent ∧
        t.cfg = s.cfg ∧ t.params = s.params ∧ t.commands = s.commands) ∧
    ((F64.ofBits d0).isFinite = false ∨ (F64.ofBits d0).lt (F64.ofBits 0x3FF0000000000000) = true ∨
      s.cfg.srMax.lt (F64.ofBits d0) = true →
      exec (.setrate d0) s = .next (s.respond .refused 0 0))

/-! ## Sample buffer commands -/

/-- 42_buffer.md R74: BUFCLR empties the buffer and leaves every word where it is; none is readable. -/
def Obligations.BufclrResult : Prop :=
  ∀ (s : State) (ch : BitVec 8), ∃ t, exec (.bufclr ch) s = .next t ∧ t.response = ⟨.ok, 0, 0⟩ ∧
    t.lenOf (chan ch) = 0 ∧ (∀ c a, t.byteAt c a = s.byteAt c a) ∧ (∀ c, c ≠ chan ch → t.buf c = s.buf c) ∧
    t = { s with bufs := t.bufs, response := t.response } ∧
    (∀ d0, exec (.bufrd ch d0) t = .next (t.respond .refused 0 0)) ∧
    (F64.cZero.le (s.voice (chan ch)).pos = true →
      (t.voice (chan ch)).engineFinished (t.buf (chan ch)) (t.voice (chan ch)).endFrac = true)

/-- 42_buffer.md R75: BUFWR stores code × 16 at an index below LEN, or at LEN below the bound, where LEN grows by one;
every other index is refused. The bytes stored are the two of the word at u64(D0). -/
def Obligations.BufwrResult : Prop :=
  ∀ (s : State) (ch : BitVec 8) (code : BitVec 12) (d0 : Word), s.Inv →
    (d0.toNat < s.lenOf (chan ch) ∨ (d0.toNat = s.lenOf (chan ch) ∧ s.lenOf (chan ch) < s.maxLen) →
      ∃ t w, exec (.bufwr ch code d0) s = .next t ∧ t.response = ⟨.ok, 0, 0⟩ ∧
        t.lenOf (chan ch) =
          (if d0.toNat = s.lenOf (chan ch) then s.lenOf (chan ch) + 1 else s.lenOf (chan ch)) ∧
        (t.buf (chan ch)).memRead d0.toNat = some w ∧ w.toInt = code.toInt * 16 ∧
        (∀ a < s.lenOf (chan ch), a ≠ d0.toNat →
          (t.buf (chan ch)).memRead a = (s.buf (chan ch)).memRead a) ∧
        (∀ c x, c ≠ chan ch ∨ x / 2 ≠ u64 d0 → t.byteAt c x = s.byteAt c x) ∧
        (∀ c, c ≠ chan ch → t.buf c = s.buf c) ∧
        t = { s with bufs := t.bufs, response := t.response }) ∧
    (s.lenOf (chan ch) < d0.toNat ∨ (d0.toNat = s.lenOf (chan ch) ∧ s.lenOf (chan ch) = s.maxLen) →
      exec (.bufwr ch code d0) s = .next (s.respond .refused 0 0))

/-- 42_buffer.md R76: BUFAPP stores code × 16 at LEN, returns that index and adds one to LEN; at the bound it is
refused. The bytes stored are the two of the word at LEN. -/
def Obligations.BufappResult : Prop :=
  ∀ (s : State) (ch : BitVec 8) (code : BitVec 12), s.Inv →
    (s.lenOf (chan ch) < s.maxLen →
      ∃ t w, exec (.bufapp ch code) s = .next t ∧ t.response.status = .ok ∧
        t.response.rsp0.toNat = s.lenOf (chan ch) ∧ t.response.rsp1 = 0 ∧
        t.lenOf (chan ch) = s.lenOf (chan ch) + 1 ∧
        (t.buf (chan ch)).memRead (s.lenOf (chan ch)) = some w ∧ w.toInt = code.toInt * 16 ∧
        (∀ a < s.lenOf (chan ch), (t.buf (chan ch)).memRead a = (s.buf (chan ch)).memRead a) ∧
        (∀ c x, c ≠ chan ch ∨ x / 2 ≠ s.lenOf (chan ch) → t.byteAt c x = s.byteAt c x) ∧
        (∀ c, c ≠ chan ch → t.buf c = s.buf c) ∧
        t = { s with bufs := t.bufs, response := t.response }) ∧
    (s.lenOf (chan ch) = s.maxLen → exec (.bufapp ch code) s = .next (s.respond .refused 0 0))

/-- 42_buffer.md R77: BUFAPQ clamps the sample to [−1, 1] (a NaN is +0.0), quantizes it and appends the code, which it
returns. The bytes stored are the two of the word at LEN. -/
def Obligations.BufapqResult : Prop :=
  ∀ (s : State) (ch : BitVec 8) (d0 : Word), s.Inv →
    (s.lenOf (chan ch) < s.maxLen →
      ∃ (t : State) (w : SampleWord) (k : Int) (y : F64),
        y = (if (F64.ofBits d0).isNaN then F64.cZero
          else F64.min (F64.max (F64.ofBits d0) F64.cNegOne) F64.cOne) ∧
        (quantize12 y).units = k * 2 ^ 1063 ∧ -2048 ≤ k ∧ k ≤ 2047 ∧
        exec (.bufapq ch d0) s = .next t ∧ t.response.status = .ok ∧
        t.response.rsp0.toNat = s.lenOf (chan ch) ∧ t.response.rsp1.toInt = k ∧
        t.lenOf (chan ch) = s.lenOf (chan ch) + 1 ∧
        (t.buf (chan ch)).memRead (s.lenOf (chan ch)) = some w ∧ w.toInt = k * 16 ∧
        (∀ a < s.lenOf (chan ch), (t.buf (chan ch)).memRead a = (s.buf (chan ch)).memRead a) ∧
        (∀ c x, c ≠ chan ch ∨ x / 2 ≠ s.lenOf (chan ch) → t.byteAt c x = s.byteAt c x) ∧
        (∀ c, c ≠ chan ch → t.buf c = s.buf c) ∧
        t = { s with bufs := t.bufs, response := t.response }) ∧
    (s.lenOf (chan ch) = s.maxLen → exec (.bufapq ch d0) s = .next (s.respond .refused 0 0))

/-- 42_buffer.md R78: BUFRD returns the word and its code below LEN, changing nothing, and is refused from LEN on. -/
def Obligations.BufrdResult : Prop :=
  ∀ (s : State) (ch : BitVec 8) (d0 : Word), s.Inv →
    (d0.toNat < s.lenOf (chan ch) →
      ∃ (w : SampleWord) (r0 r1 : Word), (s.buf (chan ch)).memRead d0.toNat = some w ∧
        exec (.bufrd ch d0) s = .next (s.respond .ok r0 r1) ∧ r0.toNat = w.toNat ∧ r1.toInt * 16 = w.toInt) ∧
    (s.lenOf (chan ch) ≤ d0.toNat → exec (.bufrd ch d0) s = .next (s.respond .refused 0 0))

/-- 42_buffer.md R79, 10_state.md R25: BUFLEN returns LEN and the bound min(BUF_CAP, trunc(RATE × 10.0)), which LEN never
passes; at reset 0 and 441000. -/
def Obligations.BuflenResult : Prop :=
  (∀ (s : State) (ch : BitVec 8), s.Inv →
    ∃ r0 r1 : Word, exec (.buflen ch) s = .next (s.respond .ok r0 r1) ∧ r0.toNat = s.lenOf (chan ch) ∧
      (r1.toNat : Int) = min (s.cfg.bufCap : Int) (s.rate.mul (F64.ofInt 10)).trunc ∧ r0.toNat ≤ r1.toNat) ∧
  (∀ ch, exec (.buflen ch) State.reset = .next (State.reset.respond .ok 0 441000))

/-! ## Lo-fi units -/

/-- 44_lofi.md R88, R93: QUANT returns the quantizer's value: of a finite x the nearest step, ties away from zero,
clamped to −2048..2047, with the sign of x kept; of a NaN +0.0; of an infinity the end of the range. -/
def Obligations.QuantizerValue : Prop :=
  (∀ (s : State) (d0 : Word), exec (.quant d0) s = .next (s.respond .ok (quantize12 (F64.ofBits d0)).toBits 0)) ∧
  (∀ x : F64, x.isFinite = true →
    (quantize12 x).isFinite = true ∧ (quantize12 x).sign = x.sign ∧
    (quantize12 x).units = max (-2048) (min 2047 (quantStep x)) * 2 ^ 1063) ∧
  (∀ x : F64, x.isNaN = true → quantize12 x = F64.zero false) ∧
  (quantize12 (.inf false)).toBits = 0x3FEFFC0000000000 ∧ (quantize12 (.inf true)).toBits = 0xBFF0000000000000

/-- 44_lofi.md R89: quantizing twice is quantizing once, the error bounds on [−1.0, 1.0] and on [−1.0, 2047/2048], and a
word's own value is unchanged. -/
def Obligations.QuantizerLaws : Prop :=
  (∀ x : F64, quantize12 (quantize12 x) = quantize12 x) ∧
  (∀ x : F64, x.isFinite = true → -(2 ^ 1074) ≤ x.units → x.units ≤ 2 ^ 1074 →
    |(quantize12 x).units - x.units| ≤ 2 ^ 1063) ∧
  (∀ x : F64, x.isFinite = true → -(2 ^ 1074) ≤ x.units → x.units ≤ 2047 * 2 ^ 1063 →
    |(quantize12 x).units - x.units| ≤ 2 ^ 1062) ∧
  (∀ w : SampleWord, w.extractLsb' 0 4 = 0#4 → quantize12 (sampleValue w) = sampleValue w)

/-- 44_lofi.md R92: the reducer passes its input through at amount 0 and writes nothing; at any other amount, from
SRRCNT = 0, it gives each p-th input p times, with p = srrPeriod. -/
def Obligations.ReducerHoldsInputs : Prop :=
  (∀ (v : Voice) (x : F64), v.srr x 0 = (x, v)) ∧
  (∀ (v : Voice) (a : Param) (xs : List F64) (i : Nat), a ≠ 0 → v.srrCnt = 0 → i < xs.length →
    (v.reduce a xs)[i]? = xs[i - i % srrPeriod a]?) ∧
  srrPeriod 127 = 64

/-- 44_lofi.md R90, R94, 45_filter.md R96, R111: SRRP returns the hold period of every amount and FMODE the mode code of
every parameter value. -/
def Obligations.SrrpAndFmodeResults : Prop :=
  (∀ (s : State) (val : Param),
    exec (.srrp val) s =
      .next (s.respond .ok (if val = 0 then 0 else BitVec.ofNat 64 (1 + 63 * val.toNat / 127)) 0)) ∧
  srrPeriod 1 = 1 ∧ srrPeriod 2 = 1 ∧ srrPeriod 127 = 64 ∧
  (∀ p : Nat, 2 ≤ p → p ≤ 63 →
    srrPeriod (BitVec.ofNat 7 (2 * p - 1)) = p ∧ srrPeriod (BitVec.ofNat 7 (2 * p)) = p) ∧
  (∀ (s : State) (val : Param),
    exec (.fmode val) s =
      .next (s.respond .ok (if val.toNat ≤ 42 then 0 else if val.toNat ≤ 84 then 1 else 2) 0))

/-! ## Filter -/

/-- 45_filter.md R97, R112: CUTHZ returns the table entry, which is a finite value within half its last place of
20 × 1000^(p/127), stated by the 127th powers. -/
def Obligations.CutoffTable : Prop :=
  (∀ (s : State) (val : Param), exec (.cuthz val) s = .next (s.respond .ok (cutoffHz val).toBits 0)) ∧
  (cutoffHz 0).toBits = 0x4034000000000000 ∧ (cutoffHz 127).toBits = 0x40D3880000000000 ∧
  (∀ val : Param, ∃ (e : Fin 2047) (f : Fin 4503599627370496) (m : Nat),
    cutoffHz val = .fin false e f ∧ m = 2 * (2 ^ 52 + f.val) ∧ e.val ≤ 1076 ∧
    (m - 1) ^ 127 < 20 ^ 127 * 1000 ^ val.toNat * (2 ^ (1076 - e.val)) ^ 127 ∧
    20 ^ 127 * 1000 ^ val.toNat * (2 ^ (1076 - e.val)) ^ 127 < (m + 1) ^ 127)

/-- 46_voice.md R114, R115, R131: PITCH returns the table entry, which is within half its last place of 2^((p − 64)/12),
stated by the 12th powers; the three exact entries, the octave law and the range. -/
def Obligations.PitchTable : Prop :=
  (∀ (s : State) (val : Param), exec (.pitch val) s = .next (s.respond .ok (pitchRatio val).toBits 0)) ∧
  (∀ val : Param, ∃ (e : Fin 2047) (f : Fin 4503599627370496) (m : Nat),
    pitchRatio val = .fin false e f ∧ m = 2 * (2 ^ 52 + f.val) ∧ e.val ≤ 1076 ∧
    2 ^ 64 * (m - 1) ^ 12 < 2 ^ val.toNat * (2 ^ (1076 - e.val)) ^ 12 ∧
    2 ^ val.toNat * (2 ^ (1076 - e.val)) ^ 12 < 2 ^ 64 * (m + 1) ^ 12) ∧
  (pitchRatio 64).toBits = 0x3FF0000000000000 ∧ (pitchRatio 76).toBits = 0x4000000000000000 ∧
  (pitchRatio 52).toBits = 0x3FE0000000000000 ∧
  (∀ p : Nat, p + 12 < 128 →
    pitchRatio (BitVec.ofNat 7 (p + 12)) = F64.cTwo.mul (pitchRatio (BitVec.ofNat 7 p))) ∧
  (∀ val : Param, 248 * 2 ^ 1074 ≤ 10000 * (pitchRatio val).units ∧
    1000 * (pitchRatio val).units ≤ 38055 * 2 ^ 1074)

/-- 45_filter.md R99: the cutoff in use is a NaN request itself, 0.45 × RATE where that is below 20, and else the request
clamped into [20, 0.45 × RATE]. -/
def Obligations.CutoffClamp : Prop :=
  ∀ rate req hi : F64, rate.isFinite = true → hi = F64.cFcMaxFrac.mul rate → hi.isFinite = true →
    (req.isNaN = true → clampCutoff rate req = req) ∧
    (req.isNaN = false → hi.lt F64.cTwenty = true → clampCutoff rate req = hi) ∧
    (F64.cTwenty.le hi = true →
      (req.lt F64.cTwenty = true → clampCutoff rate req = F64.cTwenty) ∧
      (F64.cTwenty.le req = true → req.le hi = true → clampCutoff rate req = req) ∧
      (hi.lt req = true → clampCutoff rate req = hi))

/-- 45_filter.md R100: the derivation, mode by mode, in the order of evaluation the rule gives. -/
def Obligations.DeriveFormulas : Prop :=
  ∀ (p : Params) (fs fc q w sn cs alpha dv : F64),
    w = ((F64.cTwo.mul (F64.ofBits 0x400921FB54442D18)).mul fc).div fs → sn = sinT p w → cs = cosT p w →
    alpha = sn.div (F64.cTwo.mul q) → dv = F64.cOne.div (F64.cOne.add alpha) →
    derive p fs fc q .lowPass =
      ⟨((F64.cOne.sub cs).mul F64.cHalf).mul dv, (F64.cOne.sub cs).mul dv,
        ((F64.cOne.sub cs).mul F64.cHalf).mul dv, (F64.cNegTwo.mul cs).mul dv, (F64.cOne.sub alpha).mul dv⟩ ∧
    derive p fs fc q .bandPass =
      ⟨(sn.div F64.cTwo).mul dv, F64.cZero.mul dv, (sn.div F64.cTwo).neg.mul dv,
        (F64.cNegTwo.mul cs).mul dv, (F64.cOne.sub alpha).mul dv⟩ ∧
    derive p fs fc q .highPass =
      ⟨((F64.cOne.add cs).mul F64.cHalf).mul dv, (F64.cOne.add cs).neg.mul dv,
        ((F64.cOne.add cs).mul F64.cHalf).mul dv, (F64.cNegTwo.mul cs).mul dv, (F64.cOne.sub alpha).mul dv⟩

/-- 45_filter.md R102, R103: filterRecompute installs the fallback set, with FALLBACK 1, where a failure test holds
or a derived coefficient is not finite, and else the derived coefficients with FALLBACK 0; it writes nothing else. -/
def Obligations.FilterRecompute : Prop :=
  ∀ (s : State) (q fc : F64) (k fb : Coeffs), q = F64.cHalf.add (s.filter.res.mul F64.cTen) →
    fc = clampCutoff s.rate s.filter.fcReq → k = derive s.cfg s.rate fc q s.filter.mode →
    fb = ⟨F64.ofBits 0x3F72DBA46E18CD80, F64.ofBits 0x3F82DBA46E18CD80, F64.ofBits 0x3F72DBA46E18CD80,
      F64.ofBits 0xBFFCC9195111671C, F64.ofBits 0x3FEA290FC59394A5⟩ →
    ((s.rate.isFinite = false ∨ s.rate.le F64.cZero = true ∨ fc.isFinite = false ∨ fc.le F64.cZero = true ∨
        s.rate.lt (F64.cTwo.mul fc) = true ∨ q.isFinite = false ∨ q.le F64.cZero = true ∨
        (∃ x ∈ [k.b0, k.b1, k.b2, k.a1, k.a2], x.isFinite = false)) →
      s.filterRecompute = { s with filter := { s.filter with coeffs := fb, fallback := true } }) ∧
    (s.rate.isFinite = true → s.rate.le F64.cZero = false → fc.isFinite = true → fc.le F64.cZero = false →
      s.rate.lt (F64.cTwo.mul fc) = false → q.isFinite = true → q.le F64.cZero = false →
      (∀ x ∈ [k.b0, k.b1, k.b2, k.a1, k.a2], x.isFinite = true) →
      s.filterRecompute = { s with filter := { s.filter with coeffs := k, fallback := false } })

/-- 45_filter.md R109: FSET writes the three inputs, recomputes, returns FALLBACK and keeps the delay state and
everything else; a NaN cutoff, a NaN or infinite resonance and a resonance of −0.05 or less give the fallback set. -/
def Obligations.FsetResult : Prop :=
  (∀ (s : State) (val : Param) (d0 d1 : Word), ∃ t,
    exec (.fset val d0 d1) s = .next t ∧
    t.response = ⟨.ok, if t.filter.fallback then 1 else 0, 0⟩ ∧
    t.filter.fcReq = F64.ofBits d0 ∧ t.filter.res = F64.ofBits d1 ∧ t.filter.mode = modeFromParam val ∧
    t.coeffsCurrent ∧ t.filter.left = s.filter.left ∧ t.filter.right = s.filter.right ∧
    t = { s with filter := t.filter, response := t.response }) ∧
  (∀ (s t : State) (val : Param) (d0 d1 : Word), exec (.fset val d0 d1) s = .next t →
    (F64.ofBits d0).isNaN = true ∨ (F64.ofBits d1).isFinite = false ∨
      (F64.ofBits d1).le (F64.ofBits 0xBFA999999999999A) = true →
    t.response = ⟨.ok, 1, 0⟩ ∧ t.filter.coeffs = Coeffs.fallbackSet)

/-- 45_filter.md R101: at an accepted rate no cutoff and resonance of the parameter file meets a failure test, so WRPARAM
and SETRATE alone never skip the derivation. -/
def Obligations.RegisterInputsPassFailureTests : Prop :=
  ∀ (p : Params) (rate : F64) (cut res : Param), paramsValid p → rateOk p rate = true →
    deriveFails rate (clampCutoff rate (cutoffHz cut)) (qOf (normParam res)) = false

/-- 45_filter.md R105, R106, R108: FILT runs one Direct Form I step of each lane on its own operand and its own delay
state, and writes the delay state and nothing else; the reset example. -/
def Obligations.FiltResult : Prop :=
  (∀ (s : State) (d0 d1 : Word), ∃ (t : State) (yl yr : F64),
    yl = ((((s.filter.coeffs.b0.mul (F64.ofBits d0)).add (s.filter.coeffs.b1.mul s.filter.left.x1)).add
        (s.filter.coeffs.b2.mul s.filter.left.x2)).sub (s.filter.coeffs.a1.mul s.filter.left.y1)).sub
        (s.filter.coeffs.a2.mul s.filter.left.y2) ∧
    yr = ((((s.filter.coeffs.b0.mul (F64.ofBits d1)).add (s.filter.coeffs.b1.mul s.filter.right.x1)).add
        (s.filter.coeffs.b2.mul s.filter.right.x2)).sub (s.filter.coeffs.a1.mul s.filter.right.y1)).sub
        (s.filter.coeffs.a2.mul s.filter.right.y2) ∧
    exec (.filt d0 d1) s = .next t ∧ t.response = ⟨.ok, yl.toBits, yr.toBits⟩ ∧
    t.filter = { s.filter with
      left := ⟨F64.ofBits d0, s.filter.left.x1, yl, s.filter.left.y1⟩
      right := ⟨F64.ofBits d1, s.filter.right.x1, yr, s.filter.right.y1⟩ } ∧
    t = { s with filter := t.filter, response := t.response }) ∧
  (∃ t, exec (.filt 0x3FF0000000000000 0) State.reset = .next t ∧ t.response = ⟨.ok, 0x3FE7D8FBD79F1152, 0⟩)

/-- 45_filter.md R104, 70_reset_and_hazards.md R159: the filter inputs, coefficients and FALLBACK change only by WRPARAM,
FSET and SETRATE, which leave the coefficients of the new inputs; the delay state changes only by FILT, FRAME and
SETRATE, and only a performed SETRATE clears it. -/
def Obligations.FilterWriters : Prop :=
  ∀ (i : Instr) (s t : State), exec i s = .next t →
    ((∃ val d0 d1, i = .fset val d0 d1) ∨ (∃ idx val, i = .wrparam idx val ∧ 9 ≤ idx.toNat ∧ idx.toNat < 12) ∨
      (∃ d0, i = .setrate d0 ∧ t.response.status = .ok) → t.coeffsCurrent) ∧
    ((∀ val d0 d1, i ≠ .fset val d0 d1) → (∀ idx val, i = .wrparam idx val → idx.toNat < 9) →
      (∀ d0, i ≠ .setrate d0) →
      t.filter = { s.filter with left := t.filter.left, right := t.filter.right }) ∧
    ((∀ d0 d1, i ≠ .filt d0 d1) → i ≠ .frame → (∀ d0, i ≠ .setrate d0) →
      t.filter.left = s.filter.left ∧ t.filter.right = s.filter.right) ∧
    ((∃ d0, i = .setrate d0 ∧ t.response.status = .ok) →
      t.filter.left = Delay.reset ∧ t.filter.right = Delay.reset)

/-- 45_filter.md R108, 70_reset_and_hazards.md R163: a non-finite operand of FILT makes its lane's output state
non-finite, which every command but SETRATE keeps, and every FRAME output is then non-finite. -/
def Obligations.PoisonedDelayStays : Prop :=
  (∀ (s : State) (d0 d1 : Word), ∃ t, exec (.filt d0 d1) s = .next t ∧
    ((F64.ofBits d0).isFinite = false → t.filter.left.y1.isFinite = false) ∧
    ((F64.ofBits d1).isFinite = false → t.filter.right.y1.isFinite = false)) ∧
  (∀ (i : Instr) (s t : State), exec i s = .next t → (∀ d0, i ≠ .setrate d0) →
    (s.filter.left.y1.isFinite = false →
      t.filter.left.y1.isFinite = false ∧ (i = .frame → (F64.ofBits t.response.rsp0).isFinite = false)) ∧
    (s.filter.right.y1.isFinite = false →
      t.filter.right.y1.isFinite = false ∧ (i = .frame → (F64.ofBits t.response.rsp1).isFinite = false)))

/-- 46_voice.md R130, 45_filter.md R110: the readback tables of VRD and FRD, entry by entry; any other selector is
ILLEGAL. -/
def Obligations.ReadbackTables : Prop :=
  (∀ (s : State) (ch : BitVec 8) (v : Voice), v = s.voice (chan ch) →
    ∀ p ∈ ([(0, v.pos.toBits), (1, v.env.toBits), (2, if v.active then 1 else 0), (3, v.holdRem.setWidth 64),
        (4, v.decayRate.toBits), (5, v.rtrgRem.setWidth 64), (6, v.rtrgInt.setWidth 64),
        (7, v.rtrgCnt.setWidth 64), (8, v.srrCnt.setWidth 64), (9, v.srrHold.toBits),
        (10, (pitchRatio v.snap[2]).toBits), (16, v.snap[0].setWidth 64), (17, v.snap[1].setWidth 64),
        (18, v.snap[2].setWidth 64), (19, v.snap[3].setWidth 64), (20, v.snap[4].setWidth 64),
        (21, v.snap[5].setWidth 64), (22, v.snap[6].setWidth 64), (23, v.snap[7].setWidth 64),
        (24, v.snap[8].setWidth 64)] : List (BitVec 8 × Word)),
      exec (.vrd ch p.1) s = .next (s.respond .ok p.2 0)) ∧
  (∀ (s : State) (ch sel : BitVec 8), (11 ≤ sel.toNat ∧ sel.toNat ≤ 15) ∨ 25 ≤ sel.toNat →
    exec (.vrd ch sel) s = .next (s.respond .illegal 0 0)) ∧
  (∀ (s : State) (f : FilterState), f = s.filter →
    ∀ p ∈ ([(0, f.coeffs.b0.toBits), (1, f.coeffs.b1.toBits), (2, f.coeffs.b2.toBits), (3, f.coeffs.a1.toBits),
        (4, f.coeffs.a2.toBits), (5, if f.fallback then 1 else 0), (6, f.fcReq.toBits), (7, f.res.toBits),
        (8, match f.mode with | .lowPass => 0 | .bandPass => 1 | .highPass => 2),
        (9, f.left.x1.toBits), (10, f.left.x2.toBits), (11, f.left.y1.toBits), (12, f.left.y2.toBits),
        (13, f.right.x1.toBits), (14, f.right.x2.toBits), (15, f.right.y1.toBits),
        (16, f.right.y2.toBits)] : List (BitVec 8 × Word)),
      exec (.frd p.1) s = .next (s.respond .ok p.2 0)) ∧
  (∀ (s : State) (sel : BitVec 8), 17 ≤ sel.toNat → exec (.frd sel) s = .next (s.respond .illegal 0 0))

/-! ## Voices -/

/-- 46_voice.md R119, R120, R126: TRIG snapshots P[0..8] into the voice and restarts it from the snapshot, arming or
cancelling the retrigger schedule; it touches no other voice and nothing else. -/
def Obligations.TrigResult : Prop :=
  ∀ (s : State) (ch : BitVec 8), s.Inv → ∃ (t : State) (v : Voice) (len : F64),
    exec (.trig ch) s = .next t ∧ t.response = ⟨.ok, 0, 0⟩ ∧ v = t.voice (chan ch) ∧
    len = F64.ofInt (s.lenOf (chan ch)) ∧
    v.snap.toList = s.params.toList.take 9 ∧ v.active = true ∧ v.env = F64.cOne ∧
    v.pos = F64.min (F64.max ((normParam s.params[0]).mul len) F64.cZero) len ∧
    v.srrCnt = 0 ∧ v.srrHold = F64.cZero ∧
    (v.holdRem.toNat : Int) = (((normParam s.params[3]).mul F64.cTwo).mul s.rate).trunc ∧
    v.decayRate = (if s.params[4] = 0 then F64.cOne
      else F64.cOne.div (((normParam s.params[4]).mul F64.cFour).mul s.rate)) ∧
    v.rtrgRem = s.params[5] ∧
    (v.rtrgInt.toNat : Int) =
      (if s.params[5] = 0 then (0 : Int) else (((normParam s.params[6]).mul F64.cHalf).mul s.rate).trunc) ∧
    v.rtrgCnt = 0 ∧ (∀ c, c ≠ chan ch → t.voice c = s.voice c) ∧
    t = { s with voices := t.voices, response := t.response }

/-- 46_voice.md R116, R117, R118: the hold, the decay rate and the retrigger interval at an accepted rate, and their
bounds. -/
def Obligations.TriggerTimeBounds : Prop :=
  ∀ (p : Params) (rate : F64) (n : Param), paramsValid p → rateOk p rate = true →
    holdSamples rate n = (((normParam n).mul F64.cTwo).mul rate).trunc ∧
    0 ≤ holdSamples rate n ∧ holdSamples rate n ≤ (F64.cTwo.mul rate).trunc ∧
    retrigInterval rate n = (((normParam n).mul F64.cHalf).mul rate).trunc ∧
    0 ≤ retrigInterval rate n ∧ retrigInterval rate n ≤ (F64.cHalf.mul rate).trunc ∧
    decayRateFor rate 0 = F64.cOne ∧
    (n ≠ 0 → decayRateFor rate n = F64.cOne.div (((normParam n).mul F64.cFour).mul rate) ∧
      F64.cZero.lt (decayRateFor rate n) = true ∧
      (decayRateFor rate n).le (F64.ofBits 0x403FC00000000000) = true ∧
      ((F64.ofBits 0x403FC00000000000).le rate = true → (decayRateFor rate n).le F64.cOne = true))

/-- 46_voice.md R122: a voice armed with interval N and count k, its counter at 0, restarts at every N-th step (every step
for N = 0 or 1) until the k restarts are spent, with the same snapshot, whatever the note does meanwhile. -/
def Obligations.RetriggerEveryNthStep : Prop :=
  (∀ (rate : F64) (b : Buffer) (c : Channel) (n N : Nat) (v w : Voice) (ys : List F64),
    N = Nat.max 1 v.rtrgInt.toNat → v.rtrgCnt = 0 → Voice.run rate b c n v = .ok (ys, w) →
    w.rtrgRem.toNat = v.rtrgRem.toNat - n / N ∧
    w.rtrgCnt.toNat = (if n / N < v.rtrgRem.toNat then n % N else 0) ∧
    w.rtrgInt = v.rtrgInt ∧ w.snap = v.snap) ∧
  (∀ (rate : F64) (b : Buffer) (c : Channel) (v u : Voice), 0 < v.rtrgRem.toNat →
    v.rtrgInt.toNat ≤ v.rtrgCnt.toNat + 1 →
    u = { v.internalTrigger rate b with rtrgCnt := 0, rtrgRem := v.rtrgRem - 1 } →
    v.stepRetrigger rate b = u ∧ v.process rate b c = u.stepPlay b c)

/-- 46_voice.md R123, R124: a voice with no retriggers left that is still active after n steps has held for HOLDREM steps
and then lost one DECAYRATE a step; its next step, unless the region ends, plays at that level and ends the voice where
the next level is not above 0; with level and rate 1.0 it is active for HOLDREM + 1 steps. -/
def Obligations.EnvelopeTiming : Prop :=
  ∀ (rate : F64) (b : Buffer) (c : Channel) (n H : Nat) (v w : Voice) (ys : List F64),
    v.active = true → v.rtrgRem = 0 → H = v.holdRem.toNat → Voice.run rate b c n v = .ok (ys, w) →
    w.active = true →
    w.env = envLevel v.env v.decayRate (n - H) ∧ w.holdRem.toNat = H - n ∧
    (v.env = F64.cOne → v.decayRate = F64.cOne → n ≤ H) ∧
    ∀ (y : F64) (u : Voice), w.engineFinished b w.endFrac = false → w.process rate b c = .ok (y, u) →
      (∃ z r, w.readInterpolated b c w.ratio = .ok (z, r) ∧
        y = ((r.srr (quantize12 z) w.srrAmt).1.mul w.env).mul w.volume) ∧
      u.active = !(decide (H ≤ n) && (envLevel v.env v.decayRate (n - H + 1)).le F64.cZero)

/-- 46_voice.md R127: STOP silences the voice, cancels its schedule and keeps the rest; every later step of the voice
returns +0.0 and changes nothing. -/
def Obligations.StopResult : Prop :=
  ∀ (s : State) (ch : BitVec 8), ∃ t, exec (.stop ch) s = .next t ∧ t.response = ⟨.ok, 0, 0⟩ ∧
    t.voice (chan ch) = { s.voice (chan ch) with
      active := false, env := F64.zero false, holdRem := 0, rtrgRem := 0, rtrgInt := 0, rtrgCnt := 0 } ∧
    (∀ c, c ≠ chan ch → t.voice c = s.voice c) ∧
    t = { s with voices := t.voices, response := t.response } ∧
    (t.voice (chan ch)).playing = false ∧ exec (.vstep ch) t = .next (t.respond .ok 0 0)

/-- 46_voice.md R121, R123, R128, 43_sample_engine.md R83: VSTEP runs one step of its voice and returns the output; it
touches no other voice and nothing else. u is the voice after the retrigger stage: where it is inactive or its region is
finished, the output is +0.0; else the interpolated value z goes through the quantizer and then through the reducer, and
the sample x is scaled by the level before the decrement and by the snapshot's volume. -/
def Obligations.VstepResult : Prop :=
  ∀ (s : State) (ch : BitVec 8) (b : Buffer) (u : Voice), s.Inv → b = s.buf (chan ch) →
    u = (s.voice (chan ch)).stepRetrigger s.rate b → ∃ (t : State) (y : F64),
    (s.voice (chan ch)).process s.rate b (chan ch) = .ok (y, t.voice (chan ch)) ∧
    exec (.vstep ch) s = .next t ∧ t.response = ⟨.ok, y.toBits, 0⟩ ∧
    (∀ c, c ≠ chan ch → t.voice c = s.voice c) ∧ t = { s with voices := t.voices, response := t.response } ∧
    (u.active = false → y = F64.zero false ∧ t.voice (chan ch) = u) ∧
    (u.active = true → u.engineFinished b (normParam u.snap[1]) = true →
      y = F64.zero false ∧ t.voice (chan ch) = { u with active := false }) ∧
    (u.active = true → u.engineFinished b (normParam u.snap[1]) = false → ∃ (z x : F64) (v w : Voice),
      u.readInterpolated b (chan ch) (pitchRatio u.snap[2]) = .ok (z, v) ∧
      v.srr (quantize12 z) u.snap[7] = (x, w) ∧ (u.snap[7] = 0 → x = quantize12 z ∧ w = v) ∧
      y = (x.mul u.env).mul (normParam u.snap[8]) ∧
      t.voice (chan ch) =
        (if 0 < w.holdRem.toNat then { w with holdRem := w.holdRem - 1 }
        else if (w.env.sub w.decayRate).le F64.cZero then { w with env := F64.zero false, active := false }
        else { w with env := w.env.sub w.decayRate }))

/-- 43_sample_engine.md R84, 46_voice.md R125: when a voice's region is finished, and that a finished active voice ends
with +0.0, everything but ACTIVE as the retrigger stage left it. -/
def Obligations.FinishedVoiceEnds : Prop :=
  (∀ (v : Voice) (b : Buffer) (e : F64),
    v.engineFinished b e = true ↔ (e.mul b.lenF64).le v.pos = true ∨ b.lenF64.le v.pos = true) ∧
  (∀ (v : Voice) (b : Buffer) (e : F64), F64.cZero.le v.pos = true → b.len = 0 ∨ e = F64.cZero →
    v.engineFinished b e = true) ∧
  (∀ (v : Voice) (b : Buffer) (f e : F64), F64.cZero.le e = true → e.le f = true → f.le F64.cOne = true →
    (v.engineTrigger b f).engineFinished b e = true) ∧
  (∀ (rate : F64) (b : Buffer) (c : Channel) (v u : Voice), u = v.stepRetrigger rate b → u.active = true →
    u.engineFinished b u.endFrac = true →
    v.process rate b c = .ok (F64.zero false, { u with active := false }))

/-- 43_sample_engine.md R85, 10_state.md R31: but for SETRATE, a TRIG of the channel and a retrigger (which takes one from
RTRGREM), a command leaves POS as it was or adds the snapshot's ratio, and so never lowers it. -/
def Obligations.PositionLaw : Prop :=
  ∀ (i : Instr) (s t : State) (c : Channel), s.Inv → exec i s = .next t → (∀ d0, i ≠ .setrate d0) →
    (∀ ch, i = .trig ch → chan ch ≠ c) →
    (((t.voice c).pos = (s.voice c).pos ∨ (t.voice c).pos = (s.voice c).pos.add (s.voice c).ratio) ∧
      (s.voice c).pos.le (t.voice c).pos = true) ∨
    (t.voice c).rtrgRem.toNat + 1 = (s.voice c).rtrgRem.toNat

/-- 43_sample_engine.md R86, R83: at or past the last sample and before its end, a voice with no retriggers reads +0.0,
does not advance and is not finished; the reducer runs on that +0.0, and without it the voice plays silence. -/
def Obligations.LastSampleStall : Prop :=
  ∀ (rate : F64) (b : Buffer) (c : Channel) (v : Voice), v.active = true → v.rtrgRem = 0 → 0 < b.len.toNat →
    (F64.ofInt ((b.len.toNat : Int) - 1)).le v.pos = true → v.pos.lt (v.endFrac.mul b.lenF64) = true →
    v.pos.lt b.lenF64 = true →
    v.engineFinished b v.endFrac = false ∧ v.readInterpolated b c v.ratio = .ok (F64.zero false, v) ∧
    ∃ y w, v.process rate b c = .ok (y, w) ∧ w.pos = v.pos ∧
      y = ((v.srr (F64.zero false) v.srrAmt).1.mul v.env).mul v.volume ∧
      (v.srrAmt = 0 → v.env.isFinite = true → y.isFinite = true ∧ y.units = 0)

/-- 43_sample_engine.md R82: the read gives +0.0 and does not advance on an empty buffer and at or past the last sample;
before it, it advances by the ratio and gives a value between the two bracketing samples, the first exactly when the
position is a whole number. -/
def Obligations.InterpolationStaysBetween : Prop :=
  (∀ (v : Voice) (b : Buffer) (c : Channel) (r : F64), b.len = 0 →
    v.readInterpolated b c r = .ok (F64.zero false, v)) ∧
  (∀ (v : Voice) (b : Buffer) (c : Channel) (r : F64) (i : Int), v.pos.floor = some i →
    (b.len.toNat : Int) - 1 ≤ i → v.readInterpolated b c r = .ok (F64.zero false, v)) ∧
  (∀ (v : Voice) (b : Buffer) (c : Channel) (r : F64) (i : Nat) (w1 w2 : SampleWord),
    v.pos.floor = some (i : Int) → i + 1 < b.len.toNat → b.memRead i = some w1 → b.memRead (i + 1) = some w2 →
    ∃ y, v.readInterpolated b c r = .ok (y, { v with pos := v.pos.add r }) ∧ y.isFinite = true ∧
      min (w1.toInt * 2 ^ 1059) (w2.toInt * 2 ^ 1059) ≤ y.units ∧
      y.units ≤ max (w1.toInt * 2 ^ 1059) (w2.toInt * 2 ^ 1059) ∧
      (v.pos.units = (i : Int) * 2 ^ 1074 → y.units = w1.toInt * 2 ^ 1059) ∧
      y = (sampleValue w1).add (((sampleValue w2).sub (sampleValue w1)).mul (v.pos.sub (F64.ofInt i))))

/-- 46_voice.md R113: a step of voice c depends only on RATE, buffer c and V[c], and steps of two different voices give
the same outputs and state in either order. In a state outside State.Inv, where an output may be a NaN, that its sign and
payload agree too is the model's choice (log entry 5). -/
def Obligations.VoicesAreIndependent : Prop :=
  (∀ (s s' t : State) (ch : BitVec 8), s'.rate = s.rate → s'.buf (chan ch) = s.buf (chan ch) →
    s'.voice (chan ch) = s.voice (chan ch) → exec (.vstep ch) s = .next t →
    ∃ t', exec (.vstep ch) s' = .next t' ∧ t'.response = t.response ∧
      t'.voice (chan ch) = t.voice (chan ch)) ∧
  (∀ (s t u : State) (a b : BitVec 8), chan a ≠ chan b → exec (.vstep a) s = .next t →
    exec (.vstep b) t = .next u →
    ∃ t' u', exec (.vstep b) s = .next t' ∧ exec (.vstep a) t' = .next u' ∧
      t'.response = u.response ∧ u'.response = t.response ∧ u' = { u with response := t.response })

/-- 47_frame.md R134, 46_voice.md R121: every voice output of a sound state is finite with magnitude at most 1.0. -/
def Obligations.VoiceOutputBound : Prop :=
  ∀ (s : State) (c : Channel) (y : F64) (v : Voice), s.Inv →
    (s.voice c).process s.rate (s.buf c) c = .ok (y, v) → y.isFinite = true ∧ |y.units| ≤ 2 ^ 1074

/-! ## Output frame -/

/-- 47_frame.md R132, R133: FRAME steps every voice once from its own record, sums the outputs from +0.0 in channel order,
feeds the mix to both lanes and returns the two outputs; it writes the voices and the delay state and nothing else. The
mix of a sound state has magnitude at most 8.0. -/
def Obligations.FrameResult : Prop :=
  ∀ s : State, s.Inv → ∃ (t : State) (y : Channel → F64) (m yl yr : F64),
    (∀ c, (s.voice c).process s.rate (s.buf c) c = .ok (y c, t.voice c)) ∧
    m = ((((((((F64.zero false).add (y 0)).add (y 1)).add (y 2)).add (y 3)).add (y 4)).add (y 5)).add (y 6)).add
      (y 7) ∧
    m.isFinite = true ∧ |m.units| ≤ 8 * 2 ^ 1074 ∧
    yl = laneOut s.filter.coeffs s.filter.left m ∧ yr = laneOut s.filter.coeffs s.filter.right m ∧
    exec .frame s = .next t ∧ t.response = ⟨.ok, yl.toBits, yr.toBits⟩ ∧
    t.filter = { s.filter with
      left := ⟨m, s.filter.left.x1, yl, s.filter.left.y1⟩
      right := ⟨m, s.filter.right.x1, yr, s.filter.right.y1⟩ } ∧
    t = { s with voices := t.voices, filter := t.filter, response := t.response }

/-- 70_reset_and_hazards.md R152, 47_frame.md R133: with no voice playing, FRAME is the filter's step on +0.0, and after
reset it returns (+0.0, +0.0). Where FILT has poisoned the delay state, that the two agree also in the sign and payload of
a NaN, which U12 leaves open, is the model's choice (log entry 5): one operation on the same operands gives one NaN. -/
def Obligations.SilentFrame : Prop :=
  (∀ s : State, (∀ c, (s.voice c).playing = false) → exec .frame s = exec (.filt 0 0) s) ∧
  (∃ t, exec .frame State.reset = .next t ∧ t.response = ⟨.ok, 0, 0⟩)

/-! ## Binary64 arithmetic -/

/-- 00_scope.md R14: f64 and bits64 are converse, NaN payloads included. -/
def Obligations.BitsRoundTrip : Prop :=
  (∀ u : Word, (F64.ofBits u).toBits = u) ∧ (∀ x : F64, F64.ofBits x.toBits = x)

/-- 00_scope.md R12: sums and differences of finite values are rounded to nearest, ties to even, with no flush of
subnormals; an exact zero is −0.0 only of two negative zeros. -/
def Obligations.SumsAreRounded : Prop :=
  ∀ x y : F64, x.isFinite = true → y.isFinite = true →
    roundedFrom (x.add y) (x.units + y.units) 1 ∧ roundedFrom (x.sub y) (x.units - y.units) 1 ∧
    (x.add y).sign = (if x.units + y.units = 0 then x.sign && y.sign else decide (x.units + y.units < 0))

/-- 00_scope.md R12: products and quotients of finite values are rounded to nearest, ties to even; the sign is the
exclusive or of the signs. -/
def Obligations.ProductsAreRounded : Prop :=
  ∀ x y : F64, x.isFinite = true → y.isFinite = true →
    roundedFrom (x.mul y) (x.units * y.units) F64.unitsOne ∧ (x.mul y).sign = (x.sign ^^ y.sign) ∧
    (y.units ≠ 0 →
      roundedFrom (x.div y) (if y.sign then -(x.units * F64.unitsOne) else x.units * F64.unitsOne) y.mag ∧
      (x.div y).sign = (x.sign ^^ y.sign))

/-- 00_scope.md R13, R16: floor and trunc of a finite value, and norm as the quotient by 127 rounded once, 0.0 at 0 and
1.0 at 127. -/
def Obligations.FloorTruncNorm : Prop :=
  (∀ x : F64, x.isFinite = true → ∃ n : Int, x.floor = some n ∧ n * 2 ^ 1074 ≤ x.units ∧
    x.units < (n + 1) * 2 ^ 1074) ∧
  (∀ x : F64, x.isFinite = true → |x.trunc| * 2 ^ 1074 ≤ |x.units| ∧ |x.units| < (|x.trunc| + 1) * 2 ^ 1074 ∧
    0 ≤ x.trunc * x.units) ∧
  (∀ n : Param, roundedFrom (normParam n) ((n.toNat : Int) * 2 ^ 1074) 127) ∧
  (normParam 0).toBits = 0 ∧ (normParam 127).toBits = 0x3FF0000000000000
end

