-- ==== Sys2Proof/Laws/Float.lean ====
section
/-! SUPPORT. What binary64 rounding does: `roundRat` gives the value `roundMag` units or overflows, `roundMag` is within
half a last place of the exact quotient, is monotone, and leaves a representable value as it is. -/

namespace Sys2Proof

/-! ## The nearest integer -/

/-- The nearest integer to num / den is within one half of it. -/
theorem F64.nearestEven_bounds (num : Nat) {den : Nat} (h : 0 < den) :
    2 * (den * nearestEven num den) ≤ 2 * num + den ∧ 2 * num ≤ 2 * (den * nearestEven num den) + den := by
  have hdiv := Nat.div_add_mod num den
  have hmod := Nat.mod_lt num h
  unfold F64.nearestEven
  simp only
  split
  · constructor <;> omega
  · split
    · rw [Nat.mul_add]; constructor <;> omega
    · rcases Nat.mod_two_eq_zero_or_one (num / den) with h2 | h2 <;> rw [h2]
      · constructor <;> simp <;> omega
      · rw [Nat.mul_add]; constructor <;> omega

/-- A tie is rounded to an even integer. -/
theorem F64.nearestEven_tie {num den : Nat} (h : 0 < den)
    (ht : 2 * (den * nearestEven num den) = 2 * num + den ∨ 2 * num = 2 * (den * nearestEven num den) + den) :
    nearestEven num den % 2 = 0 := by
  have hdiv := Nat.div_add_mod num den
  have hmod := Nat.mod_lt num h
  revert ht
  unfold F64.nearestEven
  simp only
  split
  · intro ht; omega
  · split
    · intro ht; rw [Nat.mul_add] at ht; omega
    · intro _
      rcases Nat.mod_two_eq_zero_or_one (num / den) with h2 | h2 <;> rw [h2] <;> omega

/-- An exact quotient is its own nearest integer. -/
theorem F64.nearestEven_exact (q : Nat) {den : Nat} (h : 0 < den) : nearestEven (q * den) den = q := by
  unfold F64.nearestEven
  simp [Nat.mul_div_cancel _ h, h]

/-- The nearest integer grows with the quotient. -/
theorem F64.nearestEven_mono {n1 d1 n2 d2 : Nat} (h1 : 0 < d1) (h2 : 0 < d2) (h : n1 * d2 ≤ n2 * d1) :
    nearestEven n1 d1 ≤ nearestEven n2 d2 := by
  by_contra hc
  have hlt : nearestEven n2 d2 + 1 ≤ nearestEven n1 d1 := by omega
  obtain ⟨a1, b1⟩ := nearestEven_bounds n1 h1
  obtain ⟨a2, b2⟩ := nearestEven_bounds n2 h2
  set x := nearestEven n1 d1 with hx
  set y := nearestEven n2 d2 with hy
  -- 2 d1 x − d1 ≤ 2 n1 and 2 n2 ≤ 2 d2 y + d2, so every step of the chain is an equality
  have c1 : 2 * (d1 * x) * d2 ≤ (2 * n1 + d1) * d2 := Nat.mul_le_mul_right _ a1
  have c2 : 2 * n2 * d1 ≤ (2 * (d2 * y) + d2) * d1 := Nat.mul_le_mul_right _ b2
  have c3 : d1 * d2 * (y + 1) ≤ d1 * d2 * x := Nat.mul_le_mul_left _ hlt
  have hpos : 0 < d1 * d2 := Nat.mul_pos h1 h2
  have e1 : 2 * (d1 * x) * d2 = 2 * (d1 * d2 * x) := by ring
  have e2 : (2 * n1 + d1) * d2 = 2 * (n1 * d2) + d1 * d2 := by ring
  have e3 : 2 * n2 * d1 = 2 * (n2 * d1) := by ring
  have e4 : (2 * (d2 * y) + d2) * d1 = 2 * (d1 * d2 * y) + d1 * d2 := by ring
  have e5 : d1 * d2 * (y + 1) = d1 * d2 * y + d1 * d2 := by ring
  rw [e1, e2] at c1
  rw [e3, e4] at c2
  rw [e5] at c3
  have t1 : 2 * (d1 * d2 * x) = 2 * (n1 * d2) + d1 * d2 := by omega
  have t2 : 2 * (n2 * d1) = 2 * (d1 * d2 * y) + d1 * d2 := by omega
  have t3 : d1 * d2 * x = d1 * d2 * (y + 1) := by rw [e5]; omega
  have hxy : x = y + 1 := Nat.eq_of_mul_eq_mul_left hpos t3
  have tie1 : 2 * (d1 * x) = 2 * n1 + d1 := by
    apply Nat.eq_of_mul_eq_mul_right h2
    rw [e1, e2]; exact t1
  have tie2 : 2 * n2 = 2 * (d2 * y) + d2 := by
    apply Nat.eq_of_mul_eq_mul_right h1
    rw [e3, e4]; exact t2
  have p1 : x % 2 = 0 := nearestEven_tie h1 (.inl tie1)
  have p2 : y % 2 = 0 := nearestEven_tie h2 (.inr tie2)
  omega

/-! ## The last place -/

/-- 53 bits hold the quotient's whole part above the last place. -/
theorem F64.lt_lastPlace (num : Nat) {den : Nat} (h : 0 < den) : num < den * 2 ^ (lastPlace num den + 53) := by
  have h1 : num / den < 2 ^ ((num / den).log2 + 1) := Nat.lt_log2_self
  have h2 : (2 : Nat) ^ ((num / den).log2 + 1) ≤ 2 ^ (lastPlace num den + 53) :=
    Nat.pow_le_pow_right (by decide) (by unfold F64.lastPlace; omega)
  exact (Nat.div_lt_iff_lt_mul h).mp (Nat.lt_of_lt_of_le h1 h2) |>.trans_eq (Nat.mul_comm _ _)

/-- A last place above 0 is the place of the 53rd bit. -/
theorem F64.lastPlace_le {num den : Nat} (hk : lastPlace num den ≠ 0) :
    den * 2 ^ (lastPlace num den + 52) ≤ num := by
  have h0 : num / den ≠ 0 := by
    intro e
    apply hk
    unfold F64.lastPlace
    rw [e]
    decide
  have h1 : 2 ^ (num / den).log2 ≤ num / den := Nat.log2_self_le h0
  have h2 : lastPlace num den + 52 = (num / den).log2 := by
    unfold F64.lastPlace at hk ⊢
    omega
  rw [h2]
  calc den * 2 ^ (num / den).log2 ≤ den * (num / den) := Nat.mul_le_mul_left _ h1
    _ ≤ num := Nat.mul_div_le num den

/-- The significand of a rounded quotient. -/
def F64.roundSig (num den : Nat) : Nat := nearestEven num (den * 2 ^ lastPlace num den)

/-- The magnitude of a rounded quotient in units. -/
def F64.roundMag (num den : Nat) : Nat := roundSig num den * 2 ^ lastPlace num den

/-- The significand has at most 53 bits, or is 2^53 by a carry. -/
theorem F64.roundSig_le (num : Nat) {den : Nat} (h : 0 < den) : roundSig num den ≤ 2 ^ 53 := by
  have hd : 0 < den * 2 ^ lastPlace num den := Nat.mul_pos h (by positivity)
  have h1 := lt_lastPlace num h
  have := nearestEven_mono (n1 := num) (n2 := 2 ^ 53 * (den * 2 ^ lastPlace num den)) hd hd (by
    apply Nat.mul_le_mul_right
    calc num ≤ den * 2 ^ (lastPlace num den + 53) := h1.le
      _ = 2 ^ 53 * (den * 2 ^ lastPlace num den) := by rw [pow_add]; ring)
  rwa [nearestEven_exact _ hd] at this

/-- Above the first last place the significand has all 53 bits. -/
theorem F64.le_roundSig {num den : Nat} (h : 0 < den) (hk : lastPlace num den ≠ 0) :
    2 ^ 52 ≤ roundSig num den := by
  have hd : 0 < den * 2 ^ lastPlace num den := Nat.mul_pos h (by positivity)
  have h1 := lastPlace_le hk
  have := nearestEven_mono (n1 := 2 ^ 52 * (den * 2 ^ lastPlace num den)) (n2 := num) hd hd (by
    apply Nat.mul_le_mul_right
    calc 2 ^ 52 * (den * 2 ^ lastPlace num den) = den * 2 ^ (lastPlace num den + 52) := by rw [pow_add]; ring
      _ ≤ num := h1)
  rwa [nearestEven_exact _ hd] at this

/-! ## Packing -/

@[simp] theorem F64.mag_fin (s : Bool) (e : Fin 2047) (f : Fin 4503599627370496) :
    (F64.fin s e f).mag = (if e.val = 0 then f.val else 2 ^ 52 + f.val) * 2 ^ (e.val - 1) := rfl

/-- A power of two of exponent 2098 or more reaches the limit. -/
theorem F64.limit_le_pow {n : Nat} (h : 2098 ≤ n) : unitsLimit ≤ 2 ^ n := by
  unfold F64.unitsLimit
  exact Nat.pow_le_pow_right (by decide) h

/-- A power of two of exponent below 2098 stays below the limit. -/
theorem F64.pow_lt_limit {n : Nat} (h : n < 2098) : 2 ^ n < unitsLimit := by
  unfold F64.unitsLimit
  exact Nat.pow_lt_pow_right (by decide) h

/-- A power of two of exponent at most 2098 does not pass the limit. -/
theorem F64.pow_le_limit {n : Nat} (h : n ≤ 2098) : 2 ^ n ≤ unitsLimit := by
  unfold F64.unitsLimit
  exact Nat.pow_le_pow_right (by decide) h

/-- `pack` of a subnormal significand. -/
theorem F64.pack_low (s : Bool) {m : Nat} (h : m < 2 ^ 52) :
    pack s m 0 = .fin s ⟨0, by decide⟩ ⟨m, h⟩ := by
  have hmod : m % 2 ^ 52 = m := Nat.mod_eq_of_lt h
  have h0 : (0 : Nat) < 2047 := by decide
  unfold F64.pack
  simp only [h, hmod, h0, if_true, dite_true]

/-- `pack` of a 53-bit significand. -/
theorem F64.pack_mid (s : Bool) {m k : Nat} (h1 : 2 ^ 52 ≤ m) (h2 : m < 2 ^ 53) (hk : k + 1 < 2047) :
    pack s m k = .fin s ⟨k + 1, hk⟩ ⟨m - 2 ^ 52, by omega⟩ := by
  have hmod : m % 2 ^ 52 = m - 2 ^ 52 := by omega
  have h1' : ¬ m < 2 ^ 52 := by omega
  unfold F64.pack
  simp only [h1', h2, hk, hmod, if_true, if_false, dite_true]

/-- `pack` of a significand that carried. -/
theorem F64.pack_carry (s : Bool) {k : Nat} (hk : k + 2 < 2047) :
    pack s (2 ^ 53) k = .fin s ⟨k + 2, hk⟩ ⟨0, by decide⟩ := by
  have h1 : ¬ (2 : Nat) ^ 53 < 2 ^ 52 := by decide
  have h2 : ¬ (2 : Nat) ^ 53 < 2 ^ 53 := by decide
  have h3 : (2 : Nat) ^ 53 % 2 ^ 52 = 0 := by decide
  unfold F64.pack
  simp only [h1, h2, h3, hk, if_false, dite_true]

/-- What `pack` gives: the value `m * 2^k` units, or an infinity from the limit on. -/
theorem F64.pack_spec (s : Bool) {m k : Nat} (hm : m ≤ 2 ^ 53) (hk : k ≠ 0 → 2 ^ 52 ≤ m) :
    (m * 2 ^ k < unitsLimit ∧ ∃ e f, pack s m k = .fin s e f ∧ (pack s m k).mag = m * 2 ^ k) ∨
    (unitsLimit ≤ m * 2 ^ k ∧ pack s m k = .inf s) := by
  have hpos : 0 < (2 : Nat) ^ k := by positivity
  by_cases h1 : m < 2 ^ 52
  · have hk0 : k = 0 := by by_contra h; have := hk h; omega
    subst hk0
    refine .inl ⟨?_, _, _, pack_low s h1, ?_⟩
    · rw [pow_zero, Nat.mul_one]
      exact h1.trans (pow_lt_limit (by decide))
    · rw [pack_low s h1]
      simp [F64.mag]
  · have h1' : 2 ^ 52 ≤ m := by omega
    by_cases h2 : m < 2 ^ 53
    · by_cases h3 : k + 1 < 2047
      · refine .inl ⟨?_, _, _, pack_mid s h1' h2 h3, ?_⟩
        · calc m * 2 ^ k < 2 ^ 53 * 2 ^ k := Nat.mul_lt_mul_of_pos_right h2 hpos
            _ = 2 ^ (53 + k) := (pow_add _ _ _).symm
            _ ≤ unitsLimit := pow_le_limit (by omega)
        · rw [pack_mid s h1' h2 h3]
          have : 2 ^ 52 + (m - 2 ^ 52) = m := by omega
          simp only [F64.mag, Nat.succ_ne_zero, if_false, this, Nat.add_sub_cancel]
      · refine .inr ⟨?_, ?_⟩
        · calc unitsLimit ≤ 2 ^ (52 + k) := limit_le_pow (by omega)
            _ = 2 ^ 52 * 2 ^ k := pow_add _ _ _
            _ ≤ m * 2 ^ k := Nat.mul_le_mul_right _ h1'
        · unfold F64.pack
          simp only [h1, if_false, h2, if_true, h3, dite_false]
    · have hm' : m = 2 ^ 53 := by omega
      subst hm'
      by_cases h3 : k + 2 < 2047
      · refine .inl ⟨?_, _, _, pack_carry s h3, ?_⟩
        · rw [← pow_add]; exact pow_lt_limit (by omega)
        · rw [pack_carry s h3]
          have : k + 2 - 1 = 1 + k := by omega
          simp only [F64.mag, Nat.add_eq_zero_iff, OfNat.ofNat_ne_zero, and_false, if_false, this, pow_add]
          ring
      · refine .inr ⟨?_, ?_⟩
        · rw [← pow_add]; exact limit_le_pow (by omega)
        · unfold F64.pack
          simp only [h1, if_false, h2, h3, dite_false]

/-- What `roundRat` gives: a finite value of `roundMag` units with the sign given, or an infinity of that sign when
`roundMag` reaches the limit 2^1024. -/
theorem F64.roundRat_spec (s : Bool) (num : Nat) {den : Nat} (h : 0 < den) :
    (roundMag num den < unitsLimit ∧
      ∃ e f, roundRat s num den = .fin s e f ∧ (roundRat s num den).mag = roundMag num den) ∨
    (unitsLimit ≤ roundMag num den ∧ roundRat s num den = .inf s) := by
  unfold F64.roundRat
  exact pack_spec s (roundSig_le num h) (le_roundSig h)

/-! ## roundMag is monotone and exact on representable values -/

/-- The last place grows with the quotient. -/
theorem F64.lastPlace_mono {n1 d1 n2 d2 : Nat} (h1 : 0 < d1) (h2 : 0 < d2) (h : n1 * d2 ≤ n2 * d1) :
    lastPlace n1 d1 ≤ lastPlace n2 d2 := by
  have hq : n1 / d1 ≤ n2 / d2 := by
    rw [Nat.le_div_iff_mul_le h2]
    apply Nat.le_of_mul_le_mul_right _ h1
    calc n1 / d1 * d2 * d1 = (d1 * (n1 / d1)) * d2 := by ring
      _ ≤ n1 * d2 := Nat.mul_le_mul_right _ (Nat.mul_div_le n1 d1)
      _ ≤ n2 * d1 := h
  unfold F64.lastPlace
  have : (n1 / d1).log2 ≤ (n2 / d2).log2 := by
    by_cases h0 : n1 / d1 = 0
    · rw [h0]; simp
    · have h0' : n2 / d2 ≠ 0 := fun e => h0 (Nat.le_zero.mp (e ▸ hq))
      exact (Nat.le_log2 h0').mpr ((Nat.log2_self_le h0).trans hq)
  omega

/-- Rounding is monotone. -/
theorem F64.roundMag_mono {n1 d1 n2 d2 : Nat} (h1 : 0 < d1) (h2 : 0 < d2) (h : n1 * d2 ≤ n2 * d1) :
    roundMag n1 d1 ≤ roundMag n2 d2 := by
  have hk := lastPlace_mono h1 h2 h
  rcases Nat.lt_or_eq_of_le hk with hlt | heq
  · have hne : lastPlace n2 d2 ≠ 0 := by omega
    calc roundMag n1 d1 ≤ 2 ^ 53 * 2 ^ lastPlace n1 d1 := Nat.mul_le_mul_right _ (roundSig_le n1 h1)
      _ = 2 ^ (lastPlace n1 d1 + 53) := by rw [pow_add]; ring
      _ ≤ 2 ^ (lastPlace n2 d2 + 52) := Nat.pow_le_pow_right (by decide) (by omega)
      _ = 2 ^ 52 * 2 ^ lastPlace n2 d2 := by rw [pow_add]; ring
      _ ≤ roundMag n2 d2 := Nat.mul_le_mul_right _ (le_roundSig h2 hne)
  · unfold F64.roundMag F64.roundSig
    rw [heq]
    apply Nat.mul_le_mul_right
    apply nearestEven_mono (Nat.mul_pos h1 (by positivity)) (Nat.mul_pos h2 (by positivity))
    calc n1 * (d2 * 2 ^ lastPlace n2 d2) = n1 * d2 * 2 ^ lastPlace n2 d2 := by ring
      _ ≤ n2 * d1 * 2 ^ lastPlace n2 d2 := Nat.mul_le_mul_right _ h
      _ = n2 * (d1 * 2 ^ lastPlace n2 d2) := by ring

/-- A magnitude of at most 53 significant bits. -/
def F64.Representable (r : Nat) : Prop := ∃ m j, m < 2 ^ 53 ∧ r = m * 2 ^ j

/-- Every binary64 magnitude is representable. -/
theorem F64.representable_mag (x : F64) : Representable x.mag := by
  cases x with
  | nan s p => exact ⟨0, 0, by decide, by simp [F64.mag]⟩
  | inf s => exact ⟨0, 0, by decide, by simp [F64.mag]⟩
  | fin s e f =>
    refine ⟨if e.val = 0 then f.val else 2 ^ 52 + f.val, e.val - 1, ?_, rfl⟩
    have := f.isLt
    split <;> omega

/-- Rounding leaves a representable quotient as it is. -/
theorem F64.roundMag_exact {r : Nat} (hr : Representable r) {den : Nat} (h : 0 < den) :
    roundMag (r * den) den = r := by
  obtain ⟨m, j, hm, rfl⟩ := hr
  have hq : m * 2 ^ j * den / den = m * 2 ^ j := Nat.mul_div_cancel _ h
  have hk : lastPlace (m * 2 ^ j * den) den ≤ j := by
    unfold F64.lastPlace
    rw [hq]
    by_cases h0 : m * 2 ^ j = 0
    · rw [h0]; simp
    · have : (m * 2 ^ j).log2 < 53 + j := by
        apply (Nat.log2_lt h0).mpr
        rw [pow_add]
        exact Nat.mul_lt_mul_of_pos_right hm (by positivity)
      omega
  obtain ⟨i, hi⟩ := Nat.exists_eq_add_of_le hk
  generalize hl : lastPlace (m * 2 ^ j * den) den = k at hk hi
  unfold F64.roundMag F64.roundSig
  rw [hl]
  have e : m * 2 ^ j * den = m * 2 ^ i * (den * 2 ^ k) := by
    rw [hi, pow_add]; ring
  rw [e, nearestEven_exact _ (Nat.mul_pos h (by positivity)), hi, pow_add]
  ring

/-- The rounded magnitude is representable. -/
theorem F64.representable_roundMag (num : Nat) {den : Nat} (h : 0 < den) : Representable (roundMag num den) := by
  rcases Nat.lt_or_eq_of_le (roundSig_le num h) with hlt | heq
  · exact ⟨_, _, hlt, rfl⟩
  · refine ⟨1, lastPlace num den + 53, by decide, ?_⟩
    unfold F64.roundMag
    rw [heq, pow_add]; ring

/-- Every magnitude is below the limit. -/
theorem F64.mag_lt (x : F64) : x.mag < unitsLimit := by
  cases x with
  | nan s p => exact Nat.lt_of_lt_of_le (by decide : 0 < 2 ^ 0) (pow_le_limit (by decide))
  | inf s => exact Nat.lt_of_lt_of_le (by decide : 0 < 2 ^ 0) (pow_le_limit (by decide))
  | fin s e f =>
    have hf := f.isLt
    have he := e.isLt
    have : (if e.val = 0 then f.val else 2 ^ 52 + f.val) < 2 ^ 53 := by split <;> omega
    calc (F64.fin s e f).mag < 2 ^ 53 * 2 ^ (e.val - 1) := Nat.mul_lt_mul_of_pos_right this (by positivity)
      _ = 2 ^ (53 + (e.val - 1)) := (pow_add _ _ _).symm
      _ ≤ unitsLimit := pow_le_limit (by omega)

/-! ## Signs, units and comparisons -/

@[simp] theorem F64.sign_fin (s : Bool) (e : Fin 2047) (f : Fin 4503599627370496) : (F64.fin s e f).sign = s := rfl

@[simp] theorem F64.isFinite_fin (s : Bool) (e : Fin 2047) (f : Fin 4503599627370496) :
    (F64.fin s e f).isFinite = true := rfl

/-- A finite value has the three fields. -/
theorem F64.isFinite_iff (x : F64) : x.isFinite = true ↔ ∃ s e f, x = .fin s e f := by
  cases x <;> simp [F64.isFinite]

/-- A finite value is no NaN. -/
theorem F64.isNaN_of_isFinite {x : F64} (h : x.isFinite = true) : x.isNaN = false := by
  cases x <;> simp_all [F64.isFinite, F64.isNaN]

/-- The units' absolute value is the magnitude. -/
@[simp] theorem F64.natAbs_units (x : F64) : x.units.natAbs = x.mag := by
  unfold F64.units
  split <;> simp

/-- Finite values compare as their exact values. -/
theorem F64.le_of_finite {x y : F64} (hx : x.isFinite = true) (hy : y.isFinite = true) :
    x.le y = decide (x.units ≤ y.units) := by
  obtain ⟨s, e, f, rfl⟩ := (isFinite_iff x).mp hx
  obtain ⟨t, g, k, rfl⟩ := (isFinite_iff y).mp hy
  rfl

/-- Finite values compare as their exact values, strictly. -/
theorem F64.lt_of_finite {x y : F64} (hx : x.isFinite = true) (hy : y.isFinite = true) :
    x.lt y = decide (x.units < y.units) := by
  rw [F64.lt, isNaN_of_isFinite hx, isNaN_of_isFinite hy, le_of_finite hy hx]
  simp only [Bool.not_false, Bool.true_and, ← decide_not, Int.not_le]

/-- The sum of two finite values: rounded from the exact sum, but for an exact zero. -/
theorem F64.add_of_finite {x y : F64} (hx : x.isFinite = true) (hy : y.isFinite = true) :
    x.add y = if x.units + y.units = 0 then F64.zero (x.sign && y.sign) else F64.roundUnits (x.units + y.units) := by
  obtain ⟨s, e, f, rfl⟩ := (isFinite_iff x).mp hx
  obtain ⟨t, g, k, rfl⟩ := (isFinite_iff y).mp hy
  unfold F64.add
  rfl

/-- The product of two finite values, rounded from the exact product. -/
theorem F64.mul_of_finite {x y : F64} (hx : x.isFinite = true) (hy : y.isFinite = true) :
    x.mul y = F64.roundRat (x.sign ^^ y.sign) (x.mag * y.mag) F64.unitsOne := by
  obtain ⟨s, e, f, rfl⟩ := (isFinite_iff x).mp hx
  obtain ⟨t, g, k, rfl⟩ := (isFinite_iff y).mp hy
  unfold F64.mul
  rfl

/-- The quotient of two finite values with a nonzero divisor, rounded from the exact quotient. -/
theorem F64.div_of_finite {x y : F64} (hx : x.isFinite = true) (hy : y.isFinite = true) (h0 : y.mag ≠ 0) :
    x.div y = F64.roundRat (x.sign ^^ y.sign) (x.mag * F64.unitsOne) y.mag := by
  obtain ⟨s, e, f, rfl⟩ := (isFinite_iff x).mp hx
  obtain ⟨t, g, k, rfl⟩ := (isFinite_iff y).mp hy
  unfold F64.div
  show (if (F64.fin t g k).mag = 0 then _ else _) = _
  rw [if_neg h0]
  rfl

/-- Negation changes the sign of the exact value. -/
theorem F64.units_neg (x : F64) : x.neg.units = -x.units := by
  cases x with
  | nan s p => simp [F64.units, F64.neg, F64.mag]
  | inf s => simp [F64.units, F64.neg, F64.mag]
  | fin s e f => cases s <;> simp [F64.units, F64.neg, F64.sign, F64.mag]

/-- The difference of finite values is the sum with the negated subtrahend. -/
theorem F64.sub_of_finite {x y : F64} (hx : x.isFinite = true) (hy : y.isFinite = true) :
    x.sub y = x.add y.neg := by
  simp [F64.sub, isNaN_of_isFinite hx, isNaN_of_isFinite hy]

end Sys2Proof
end

