-- ==== Sys2Proof/Laws/Bounds.lean ====
section
/-! SUPPORT. Bounds of rounded results: a sum, product or quotient whose exact value lies between two binary64 values is
finite and lies between them, and is exact where the exact value is one. -/

namespace Sys2Proof

open F64

set_option exponentiation.threshold 3000

/-- A rounded quotient between two representable magnitudes stays between them. -/
theorem F64.roundRat_bounds (s : Bool) {num den lo hi : Nat} (h : 0 < den) (rl : Representable lo)
    (rh : Representable hi) (hl : lo * den ≤ num) (hh : num ≤ hi * den) (hlim : hi < unitsLimit) :
    (roundRat s num den).isFinite = true ∧ (roundRat s num den).sign = s ∧
      lo ≤ (roundRat s num den).mag ∧ (roundRat s num den).mag ≤ hi := by
  have b1 : lo ≤ roundMag num den := by
    have := roundMag_mono h h (Nat.mul_le_mul_right den hl)
    rwa [roundMag_exact rl h] at this
  have b2 : roundMag num den ≤ hi := by
    have := roundMag_mono h h (Nat.mul_le_mul_right den hh)
    rwa [roundMag_exact rh h] at this
  obtain ⟨-, e, f, he, hm⟩ | ⟨hl', -⟩ := roundRat_spec s num h
  · rw [hm, he]; exact ⟨rfl, rfl, b1, b2⟩
  · omega

/-- A value of sign and magnitude between bounds of the same sign, as units. -/
theorem F64.units_of_sign {x : F64} {s : Bool} (h : x.sign = s) :
    x.units = if s then -(x.mag : Int) else (x.mag : Int) := by
  unfold F64.units; rw [h]

/-- Finite values of the same sign and units are the same datum. -/
theorem F64.ext_finite {x y : F64} (hx : x.isFinite = true) (hy : y.isFinite = true) (hs : x.sign = y.sign)
    (hm : x.mag = y.mag) : x = y := by
  obtain ⟨s, e, f, rfl⟩ := (isFinite_iff x).mp hx
  obtain ⟨t, g, k, rfl⟩ := (isFinite_iff y).mp hy
  obtain rfl : s = t := hs
  have key : ∀ (e g : Fin 2047) (f k : Fin 4503599627370496), e.val < g.val →
      (if e.val = 0 then f.val else 2 ^ 52 + f.val) * 2 ^ (e.val - 1) <
        (if g.val = 0 then k.val else 2 ^ 52 + k.val) * 2 ^ (g.val - 1) := by
    intro e g f k hlt
    have hg : g.val ≠ 0 := by omega
    rw [if_neg hg]
    have hf := f.isLt
    by_cases he : e.val = 0
    · rw [if_pos he, he]
      calc f.val * 2 ^ (0 - 1) = f.val := by simp
        _ < 2 ^ 52 := by omega
        _ ≤ (2 ^ 52 + k.val) * 1 := by omega
        _ ≤ (2 ^ 52 + k.val) * 2 ^ (g.val - 1) := Nat.mul_le_mul_left _ (Nat.one_le_two_pow)
    · rw [if_neg he]
      have hpe : 0 < (2 : Nat) ^ (e.val - 1) := by positivity
      calc (2 ^ 52 + f.val) * 2 ^ (e.val - 1) < 2 ^ 53 * 2 ^ (e.val - 1) :=
            Nat.mul_lt_mul_of_pos_right (by omega) hpe
        _ = 2 ^ 52 * 2 ^ e.val := by
            obtain ⟨j, hj⟩ : ∃ j, e.val = j + 1 := ⟨e.val - 1, by omega⟩
            rw [hj, Nat.add_sub_cancel, pow_succ 2 j]; ring
        _ ≤ 2 ^ 52 * 2 ^ (g.val - 1) := Nat.mul_le_mul_left _ (Nat.pow_le_pow_right (by decide) (by omega))
        _ ≤ (2 ^ 52 + k.val) * 2 ^ (g.val - 1) := Nat.mul_le_mul_right _ (by omega)
  simp only [F64.mag] at hm
  rcases Nat.lt_trichotomy e.val g.val with h | h | h
  · have := key e g f k h; omega
  · obtain rfl : e = g := Fin.ext h
    have hp : 0 < (2 : Nat) ^ (e.val - 1) := by positivity
    have := Nat.eq_of_mul_eq_mul_right hp hm
    have hk : f = k := by
      apply Fin.ext
      split at this <;> omega
    rw [hk]
  · have := key g e k f h; omega

/-- An integer number of units between two binary64 values rounds to a value between them. -/
theorem F64.roundUnits_bounds {z : Int} {lo hi : F64} (hl : lo.units ≤ z) (hh : z ≤ hi.units) :
    (roundUnits z).isFinite = true ∧ lo.units ≤ (roundUnits z).units ∧ (roundUnits z).units ≤ hi.units := by
  have ml := natAbs_units lo
  have mh := natAbs_units hi
  have r0 : Representable 0 := ⟨0, 0, by decide, rfl⟩
  have rl := representable_mag lo
  have rh := representable_mag hi
  have ll := mag_lt lo
  have lh := mag_lt hi
  unfold F64.roundUnits
  by_cases hz : z < 0
  · rw [decide_eq_true hz]
    by_cases hi0 : hi.units ≤ 0
    · obtain ⟨f, s, a, b⟩ := roundRat_bounds true (num := z.natAbs) (den := 1) (lo := hi.mag) (hi := lo.mag)
        (by decide) rh rl (by omega) (by omega) ll
      rw [units_of_sign s]
      refine ⟨f, ?_, ?_⟩ <;> simp only [if_true] <;> omega
    · obtain ⟨f, s, a, b⟩ := roundRat_bounds true (num := z.natAbs) (den := 1) (lo := 0) (hi := lo.mag)
        (by decide) r0 rl (by omega) (by omega) ll
      rw [units_of_sign s]
      refine ⟨f, ?_, ?_⟩ <;> simp only [if_true] <;> omega
  · rw [decide_eq_false hz]
    by_cases lo0 : 0 ≤ lo.units
    · obtain ⟨f, s, a, b⟩ := roundRat_bounds false (num := z.natAbs) (den := 1) (lo := lo.mag) (hi := hi.mag)
        (by decide) rl rh (by omega) (by omega) lh
      rw [units_of_sign s]
      refine ⟨f, ?_, ?_⟩ <;> simp only [Bool.false_eq_true, if_false] <;> omega
    · obtain ⟨f, s, a, b⟩ := roundRat_bounds false (num := z.natAbs) (den := 1) (lo := 0) (hi := hi.mag)
        (by decide) r0 rh (by omega) (by omega) lh
      rw [units_of_sign s]
      refine ⟨f, ?_, ?_⟩ <;> simp only [Bool.false_eq_true, if_false] <;> omega

/-- A sum whose exact value lies between two binary64 values lies between them. -/
theorem F64.add_bounds {x y lo hi : F64} (hx : x.isFinite = true) (hy : y.isFinite = true)
    (hl : lo.units ≤ x.units + y.units) (hh : x.units + y.units ≤ hi.units) :
    (x.add y).isFinite = true ∧ lo.units ≤ (x.add y).units ∧ (x.add y).units ≤ hi.units := by
  rw [add_of_finite hx hy]
  split
  · rename_i h0
    have : (F64.zero (x.sign && y.sign)).units = 0 := by
      cases (x.sign && y.sign) <;> simp [F64.zero, F64.units, F64.mag]
    rw [this]
    exact ⟨rfl, by omega, by omega⟩
  · exact roundUnits_bounds hl hh

/-- A finite value negated is finite. -/
@[simp] theorem F64.isFinite_neg (x : F64) : x.neg.isFinite = x.isFinite := by cases x <;> rfl

/-- A difference whose exact value lies between two binary64 values lies between them. -/
theorem F64.sub_bounds {x y lo hi : F64} (hx : x.isFinite = true) (hy : y.isFinite = true)
    (hl : lo.units ≤ x.units - y.units) (hh : x.units - y.units ≤ hi.units) :
    (x.sub y).isFinite = true ∧ lo.units ≤ (x.sub y).units ∧ (x.sub y).units ≤ hi.units := by
  rw [sub_of_finite hx hy]
  apply add_bounds hx (by rw [isFinite_neg]; exact hy) <;> rw [units_neg] <;> omega

/-- One is a positive number of units. -/
theorem F64.unitsOne_pos : 0 < unitsOne := by unfold F64.unitsOne; positivity

/-- A product whose exact magnitude lies between two binary64 magnitudes lies between them, with the sign of the
operands. -/
theorem F64.mul_bounds {x y lo hi : F64} (hx : x.isFinite = true) (hy : y.isFinite = true)
    (hl : lo.mag * unitsOne ≤ x.mag * y.mag) (hh : x.mag * y.mag ≤ hi.mag * unitsOne) :
    (x.mul y).isFinite = true ∧ (x.mul y).sign = (x.sign ^^ y.sign) ∧
      lo.mag ≤ (x.mul y).mag ∧ (x.mul y).mag ≤ hi.mag := by
  rw [mul_of_finite hx hy]
  exact roundRat_bounds _ unitsOne_pos (representable_mag lo) (representable_mag hi) hl hh (mag_lt hi)

/-- A quotient whose exact magnitude lies between two binary64 magnitudes lies between them, with the sign of the
operands. -/
theorem F64.div_bounds {x y lo hi : F64} (hx : x.isFinite = true) (hy : y.isFinite = true) (h0 : y.mag ≠ 0)
    (hl : lo.mag * y.mag ≤ x.mag * unitsOne) (hh : x.mag * unitsOne ≤ hi.mag * y.mag) :
    (x.div y).isFinite = true ∧ (x.div y).sign = (x.sign ^^ y.sign) ∧
      lo.mag ≤ (x.div y).mag ∧ (x.div y).mag ≤ hi.mag := by
  rw [div_of_finite hx hy h0]
  exact roundRat_bounds _ (Nat.pos_of_ne_zero h0) (representable_mag lo) (representable_mag hi) hl hh (mag_lt hi)

/-- A representable magnitude below the limit rounds to itself. -/
theorem F64.roundRat_exact (s : Bool) {num den r : Nat} (h : 0 < den) (hr : Representable r) (he : num = r * den)
    (hlim : r < unitsLimit) :
    (roundRat s num den).isFinite = true ∧ (roundRat s num den).sign = s ∧ (roundRat s num den).mag = r := by
  obtain ⟨a, b, c, d⟩ := roundRat_bounds s h hr hr he.ge he.le hlim
  exact ⟨a, b, Nat.le_antisymm d c⟩

/-- An integer below 2^53 in magnitude is converted exactly. -/
theorem F64.ofInt_exact {n : Int} (h : n.natAbs < 2 ^ 53) :
    (F64.ofInt n).isFinite = true ∧ (F64.ofInt n).sign = decide (n < 0) ∧
      (F64.ofInt n).mag = n.natAbs * unitsOne ∧ (F64.ofInt n).units = n * 2 ^ 1074 := by
  have hlim : n.natAbs * unitsOne < unitsLimit := by
    calc n.natAbs * unitsOne < 2 ^ 53 * unitsOne := Nat.mul_lt_mul_of_pos_right h unitsOne_pos
      _ = 2 ^ (53 + 1074) := by unfold F64.unitsOne; rw [pow_add]
      _ ≤ unitsLimit := pow_le_limit (by omega)
  obtain ⟨a, b, c⟩ := roundRat_exact (decide (n < 0)) (num := n.natAbs * unitsOne) (den := 1)
    (r := n.natAbs * unitsOne) (by decide) ⟨n.natAbs, 1074, h, rfl⟩ (Nat.mul_one _).symm hlim
  have e : F64.ofInt n = roundRat (decide (n < 0)) (n.natAbs * unitsOne) 1 := by unfold F64.ofInt; rfl
  rw [e]
  refine ⟨a, b, c, ?_⟩
  rw [units_of_sign b, c]
  unfold F64.unitsOne
  push_cast
  by_cases hn : n < 0
  · rw [decide_eq_true hn, if_pos rfl, abs_of_neg hn]; ring
  · rw [decide_eq_false hn, if_neg Bool.false_ne_true, abs_of_nonneg (by omega)]

/-- A representable magnitude times a power of two is representable. -/
theorem F64.representable_mul_pow {r : Nat} (h : Representable r) (k : Nat) : Representable (r * 2 ^ k) := by
  obtain ⟨m, j, hm, rfl⟩ := h
  exact ⟨m, j + k, hm, by rw [pow_add]; ring⟩

/-- A representable exact value is kept, or gives the infinity of its sign from the limit on. -/
theorem F64.roundRat_representable (s : Bool) {num den r : Nat} (h : 0 < den) (hr : Representable r)
    (he : num = r * den) :
    (r < unitsLimit ∧ (roundRat s num den).isFinite = true ∧ (roundRat s num den).sign = s ∧
      (roundRat s num den).mag = r) ∨
    (unitsLimit ≤ r ∧ roundRat s num den = .inf s) := by
  by_cases hl : r < unitsLimit
  · exact .inl ⟨hl, roundRat_exact s h hr he hl⟩
  · right
    refine ⟨by omega, ?_⟩
    obtain ⟨h1, -⟩ | ⟨-, h1⟩ := roundRat_spec s num h
    · rw [he, roundMag_exact hr h] at h1; omega
    · exact h1

/-- roundHalfAway gives the nearest integer of a finite value, ties away from zero, and keeps the sign. -/
theorem F64.roundHalfAway_spec (x : F64) (hx : x.isFinite = true) (N : Nat)
    (hN : N = (2 * x.mag + unitsOne) / (2 * unitsOne)) :
    ((x.roundHalfAway).isFinite = true ∧ x.roundHalfAway.sign = x.sign ∧ x.roundHalfAway.mag = N * unitsOne) := by
  obtain ⟨s, e, f, rfl⟩ := (isFinite_iff _).mp hx
  have e1 : (F64.fin s e f).roundHalfAway = roundRat s (N * unitsOne) 1 := by rw [hN]; unfold F64.roundHalfAway; rfl
  rw [e1]
  have hr : Representable (N * unitsOne) := by
    by_cases h : N < 2 ^ 53
    · exact ⟨N, 1074, h, rfl⟩
    · obtain ⟨m, j, hm, hj⟩ := representable_mag (F64.fin s e f)
      have : 1074 ≤ j := by
        by_contra hlt
        have h1 : (F64.fin s e f).mag < 2 ^ 53 * 2 ^ 1073 := by
          rw [hj]
          calc m * 2 ^ j < 2 ^ 53 * 2 ^ j := Nat.mul_lt_mul_of_pos_right hm (by positivity)
            _ ≤ 2 ^ 53 * 2 ^ 1073 := Nat.mul_le_mul_left _ (Nat.pow_le_pow_right (by decide) (by omega))
        apply h
        rw [hN, Nat.div_lt_iff_lt_mul (by have := unitsOne_pos; omega)]
        unfold F64.unitsOne
        omega
      obtain ⟨i, rfl⟩ := Nat.exists_eq_add_of_le this
      have hN2 : N = m * 2 ^ i := by
        rw [hN, hj, pow_add]
        have : 2 * (m * (2 ^ 1074 * 2 ^ i)) + unitsOne = unitsOne + (m * 2 ^ i) * (2 * unitsOne) := by
          unfold F64.unitsOne; ring
        rw [this, Nat.add_mul_div_right _ _ (by have := unitsOne_pos; omega),
          Nat.div_eq_of_lt (by have := unitsOne_pos; omega), Nat.zero_add]
      rw [hN2]
      exact ⟨m, i + 1074, hm, by unfold F64.unitsOne; rw [pow_add]; ring⟩
  have hlim : N * unitsOne < unitsLimit := by
    have hm := mag_lt (F64.fin s e f)
    have hr := roundMag_exact hr (den := 1) (by decide)
    by_contra hc
    have : unitsLimit ≤ N * unitsOne := by omega
    have h2 : N * (2 * unitsOne) ≤ 2 * (F64.fin s e f).mag + unitsOne := by
      rw [hN]; exact Nat.div_mul_le_self _ _
    have h3 : (F64.fin s e f).mag ≤ (2 ^ 53 - 1) * 2 ^ 2045 := by
      have hf := f.isLt
      have he := e.isLt
      calc (F64.fin s e f).mag ≤ (2 ^ 53 - 1) * 2 ^ (e.val - 1) := Nat.mul_le_mul_right _ (by split <;> omega)
        _ ≤ _ := Nat.mul_le_mul_left _ (Nat.pow_le_pow_right (by decide) (by omega))
    unfold F64.unitsOne F64.unitsLimit at *
    have : (2:Nat)^2098 = 2^53 * 2^2045 := by rw [← pow_add]
    have h5 : (2:Nat)^2045 = 2^971 * 2^1074 := by rw [← pow_add]
    have h6 : (0:Nat) < 2^1074 := by positivity
    have h7 : (2:Nat) ≤ 2^971 := by
      calc (2:Nat) = 2^1 := rfl
        _ ≤ 2^971 := Nat.pow_le_pow_right (by decide) (by decide)
    have h8 : 2 * 2^1074 ≤ (2:Nat)^971 * 2^1074 := Nat.mul_le_mul_right _ h7
    generalize (2:Nat)^2045 = A at *
    generalize (2:Nat)^1074 = B at *
    generalize (2:Nat)^2098 = C at *
    generalize (2:Nat)^971 * B = D at *
    have h9 : N * (2 * B) = 2 * (N * B) := by ring
    omega
  obtain ⟨a, b, c⟩ := roundRat_exact s (den := 1) (by decide) hr (Nat.mul_one _).symm hlim
  exact ⟨a, b, c⟩

end Sys2Proof
end

