-- ==== Sys2Proof/Laws/Decode.lean ====
section
/-! SUPPORT. What each field of a command word that the encoder puts together reads as (30_encoding.md R54). -/

namespace Sys2Proof

/-- A bit of an encoded command word, by the part it lies in. -/
theorem getLsbD_cmdWord (opc ch : BitVec 8) (low : BitVec 16) (i : Nat) :
    (cmdWord opc ch low).getLsbD i =
      if i < 16 then low.getLsbD i else if i < 24 then ch.getLsbD (i - 16) else opc.getLsbD (i - 24) := by
  show BitVec.getLsbD (w := 8 + 8 + 16) (opc ++ ch ++ low) i = _
  rw [BitVec.getLsbD_append, BitVec.getLsbD_append]
  by_cases h1 : i < 16
  · simp [h1]
  · by_cases h2 : i < 24
    · have : i - 16 < 8 := by omega
      simp [h1, h2, this]
    · have : ¬ i - 16 < 8 := by omega
      have e : i - 16 - 8 = i - 24 := by omega
      simp [h1, h2, this, e]

/-- A bit of a half word put together from two parts. -/
theorem getLsbD_low {a b : Nat} (x : BitVec a) (y : BitVec b) (h : a + b = 16) (i : Nat) :
    ((x ++ y).cast h).getLsbD i = if i < b then y.getLsbD i else x.getLsbD (i - b) := by
  rw [BitVec.getLsbD_cast, BitVec.getLsbD_append]

@[simp] theorem opcField_cmdWord (opc ch : BitVec 8) (low : BitVec 16) : opcField (cmdWord opc ch low) = opc := by
  apply BitVec.eq_of_getLsbD_eq
  intro i hi
  have h1 : ¬ 24 + i < 16 := by omega
  have h2 : ¬ 24 + i < 24 := by omega
  simp only [opcField, BitVec.getLsbD_extractLsb', hi, decide_true, Bool.true_and, getLsbD_cmdWord, h1, h2, if_false,
    Nat.add_sub_cancel_left]

@[simp] theorem chField_cmdWord (opc ch : BitVec 8) (low : BitVec 16) : chField (cmdWord opc ch low) = ch := by
  apply BitVec.eq_of_getLsbD_eq
  intro i hi
  have h1 : ¬ 16 + i < 16 := by omega
  have h2 : 16 + i < 24 := by omega
  simp only [chField, BitVec.getLsbD_extractLsb', hi, decide_true, Bool.true_and, getLsbD_cmdWord, h1, h2, if_true,
    if_false, Nat.add_sub_cancel_left]

/-- A field of CMD[15:0] is a field of the low half. -/
theorem extractLsb'_cmdWord_low (opc ch : BitVec 8) (low : BitVec 16) {start len : Nat} (h : start + len ≤ 16) :
    (cmdWord opc ch low).extractLsb' start len = low.extractLsb' start len := by
  apply BitVec.eq_of_getLsbD_eq
  intro i hi
  have h1 : start + i < 16 := by omega
  simp only [BitVec.getLsbD_extractLsb', hi, decide_true, Bool.true_and, getLsbD_cmdWord, h1, if_true]

/-- The high part of a half word. -/
theorem extractLsb'_low_high {a b : Nat} (x : BitVec a) (y : BitVec b) (h : a + b = 16) :
    ((x ++ y).cast h).extractLsb' b a = x := by
  apply BitVec.eq_of_getLsbD_eq
  intro i hi
  have h1 : ¬ b + i < b := by omega
  simp only [BitVec.getLsbD_extractLsb', hi, decide_true, Bool.true_and, getLsbD_low, h1, if_false,
    Nat.add_sub_cancel_left]

/-- The low part of a half word. -/
theorem extractLsb'_low_low {a b : Nat} (x : BitVec a) (y : BitVec b) (h : a + b = 16) :
    ((x ++ y).cast h).extractLsb' 0 b = y := by
  apply BitVec.eq_of_getLsbD_eq
  intro i hi
  simp only [BitVec.getLsbD_extractLsb', hi, decide_true, Bool.true_and, getLsbD_low, Nat.zero_add, if_true]

@[simp] theorem idxField_cmdWord (opc ch : BitVec 8) (hi lo : BitVec 8) :
    idxField (cmdWord opc ch (hi ++ lo)) = hi :=
  (extractLsb'_cmdWord_low _ _ _ (by decide)).trans (extractLsb'_low_high hi lo rfl)

@[simp] theorem codeField_cmdWord (opc ch : BitVec 8) (code : BitVec 12) :
    codeField (cmdWord opc ch (0#4 ++ code)) = code :=
  (extractLsb'_cmdWord_low _ _ _ (by decide)).trans (extractLsb'_low_low 0#4 code rfl)

@[simp] theorem selField_cmdWord (opc ch : BitVec 8) (sel : BitVec 8) :
    selField (cmdWord opc ch (0#8 ++ sel)) = sel :=
  (extractLsb'_cmdWord_low _ _ _ (by decide)).trans (extractLsb'_low_low 0#8 sel rfl)

@[simp] theorem valField_cmdWord (opc ch : BitVec 8) (val : Param) :
    valField (cmdWord opc ch (0#9 ++ val)) = val :=
  (extractLsb'_cmdWord_low _ _ _ (by decide)).trans (extractLsb'_low_low 0#9 val rfl)

@[simp] theorem valField_cmdWord_idx (opc ch idx : BitVec 8) (val : Param) :
    valField (cmdWord opc ch (idx ++ (0#1 ++ val))) = val := by
  have e : (idx ++ (0#1 ++ val) : BitVec 16) = ((idx ++ 0#1 : BitVec 9) ++ val : BitVec 16) := by
    apply BitVec.eq_of_getLsbD_eq
    intro i hi
    show BitVec.getLsbD (w := 8 + (1 + 7)) _ i = BitVec.getLsbD (w := 8 + 1 + 7) _ i
    simp only [BitVec.getLsbD_append]
    by_cases h1 : i < 7
    · have : i < 1 + 7 := by omega
      simp [h1, this]
    · by_cases h2 : i < 8
      · have h3 : i < 1 + 7 := by omega
        have h4 : i - 7 < 1 := by omega
        simp [h1, h3, h4]
      · have h3 : ¬ i < 1 + 7 := by omega
        have h4 : ¬ i - 7 < 1 := by omega
        have h5 : i - 7 - 1 = i - 8 := by omega
        simp [h1, h3, h4, h5]
  rw [e]
  exact (extractLsb'_cmdWord_low _ _ _ (by decide)).trans (extractLsb'_low_low (idx ++ 0#1 : BitVec 9) val rfl)

end Sys2Proof
end

