-- ==== Sys2Proof/Laws/State.lean ====
section
/-! SUPPORT. What each update of the state leaves, field by field, so that no proof unfolds a record update. -/

namespace Sys2Proof.Machine

@[simp] theorem State.setParam_cfg (s : State) (i : Fin 12) (v : Param) : (s.setParam i v).cfg = s.cfg := rfl
@[simp] theorem State.setParam_rate (s : State) (i : Fin 12) (v : Param) : (s.setParam i v).rate = s.rate := rfl
@[simp] theorem State.setParam_params (s : State) (i : Fin 12) (v : Param) : (s.setParam i v).params = s.params.set i.val v := rfl
@[simp] theorem State.setParam_bufs (s : State) (i : Fin 12) (v : Param) : (s.setParam i v).bufs = s.bufs := rfl
@[simp] theorem State.setParam_voices (s : State) (i : Fin 12) (v : Param) : (s.setParam i v).voices = s.voices := rfl
@[simp] theorem State.setParam_filter (s : State) (i : Fin 12) (v : Param) : (s.setParam i v).filter = s.filter := rfl
@[simp] theorem State.setParam_commands (s : State) (i : Fin 12) (v : Param) : (s.setParam i v).commands = s.commands := rfl
@[simp] theorem State.setParam_response (s : State) (i : Fin 12) (v : Param) : (s.setParam i v).response = s.response := rfl

@[simp] theorem State.setBuf_cfg (s : State) (c : Channel) (b : Buffer) : (s.setBuf c b).cfg = s.cfg := rfl
@[simp] theorem State.setBuf_rate (s : State) (c : Channel) (b : Buffer) : (s.setBuf c b).rate = s.rate := rfl
@[simp] theorem State.setBuf_params (s : State) (c : Channel) (b : Buffer) : (s.setBuf c b).params = s.params := rfl
@[simp] theorem State.setBuf_bufs (s : State) (c : Channel) (b : Buffer) : (s.setBuf c b).bufs = s.bufs.set c.val b := rfl
@[simp] theorem State.setBuf_voices (s : State) (c : Channel) (b : Buffer) : (s.setBuf c b).voices = s.voices := rfl
@[simp] theorem State.setBuf_filter (s : State) (c : Channel) (b : Buffer) : (s.setBuf c b).filter = s.filter := rfl
@[simp] theorem State.setBuf_commands (s : State) (c : Channel) (b : Buffer) : (s.setBuf c b).commands = s.commands := rfl
@[simp] theorem State.setBuf_response (s : State) (c : Channel) (b : Buffer) : (s.setBuf c b).response = s.response := rfl

@[simp] theorem State.setVoice_cfg (s : State) (c : Channel) (v : Voice) : (s.setVoice c v).cfg = s.cfg := rfl
@[simp] theorem State.setVoice_rate (s : State) (c : Channel) (v : Voice) : (s.setVoice c v).rate = s.rate := rfl
@[simp] theorem State.setVoice_params (s : State) (c : Channel) (v : Voice) : (s.setVoice c v).params = s.params := rfl
@[simp] theorem State.setVoice_bufs (s : State) (c : Channel) (v : Voice) : (s.setVoice c v).bufs = s.bufs := rfl
@[simp] theorem State.setVoice_voices (s : State) (c : Channel) (v : Voice) : (s.setVoice c v).voices = s.voices.set c.val v := rfl
@[simp] theorem State.setVoice_filter (s : State) (c : Channel) (v : Voice) : (s.setVoice c v).filter = s.filter := rfl
@[simp] theorem State.setVoice_commands (s : State) (c : Channel) (v : Voice) : (s.setVoice c v).commands = s.commands := rfl
@[simp] theorem State.setVoice_response (s : State) (c : Channel) (v : Voice) : (s.setVoice c v).response = s.response := rfl

@[simp] theorem State.setRate_cfg (s : State) (r : F64) : (s.setRate r).cfg = s.cfg := rfl
@[simp] theorem State.setRate_rate (s : State) (r : F64) : (s.setRate r).rate = r := rfl
@[simp] theorem State.setRate_params (s : State) (r : F64) : (s.setRate r).params = s.params := rfl
@[simp] theorem State.setRate_bufs (s : State) (r : F64) : (s.setRate r).bufs = s.bufs := rfl
@[simp] theorem State.setRate_voices (s : State) (r : F64) : (s.setRate r).voices = s.voices := rfl
@[simp] theorem State.setRate_filter (s : State) (r : F64) : (s.setRate r).filter = s.filter := rfl
@[simp] theorem State.setRate_commands (s : State) (r : F64) : (s.setRate r).commands = s.commands := rfl
@[simp] theorem State.setRate_response (s : State) (r : F64) : (s.setRate r).response = s.response := rfl

@[simp] theorem State.setFilter_cfg (s : State) (f : FilterState) : (s.setFilter f).cfg = s.cfg := rfl
@[simp] theorem State.setFilter_rate (s : State) (f : FilterState) : (s.setFilter f).rate = s.rate := rfl
@[simp] theorem State.setFilter_params (s : State) (f : FilterState) : (s.setFilter f).params = s.params := rfl
@[simp] theorem State.setFilter_bufs (s : State) (f : FilterState) : (s.setFilter f).bufs = s.bufs := rfl
@[simp] theorem State.setFilter_voices (s : State) (f : FilterState) : (s.setFilter f).voices = s.voices := rfl
@[simp] theorem State.setFilter_filter (s : State) (f : FilterState) : (s.setFilter f).filter = f := rfl
@[simp] theorem State.setFilter_commands (s : State) (f : FilterState) : (s.setFilter f).commands = s.commands := rfl
@[simp] theorem State.setFilter_response (s : State) (f : FilterState) : (s.setFilter f).response = s.response := rfl

@[simp] theorem State.respond_cfg (s : State) (st : Status) (a b : Word) : (s.respond st a b).cfg = s.cfg := rfl
@[simp] theorem State.respond_rate (s : State) (st : Status) (a b : Word) : (s.respond st a b).rate = s.rate := rfl
@[simp] theorem State.respond_params (s : State) (st : Status) (a b : Word) : (s.respond st a b).params = s.params := rfl
@[simp] theorem State.respond_bufs (s : State) (st : Status) (a b : Word) : (s.respond st a b).bufs = s.bufs := rfl
@[simp] theorem State.respond_voices (s : State) (st : Status) (a b : Word) : (s.respond st a b).voices = s.voices := rfl
@[simp] theorem State.respond_filter (s : State) (st : Status) (a b : Word) : (s.respond st a b).filter = s.filter := rfl
@[simp] theorem State.respond_commands (s : State) (st : Status) (a b : Word) : (s.respond st a b).commands = s.commands := rfl
@[simp] theorem State.respond_response (s : State) (st : Status) (a b : Word) : (s.respond st a b).response = ⟨st, a, b⟩ := rfl

@[simp] theorem State.filterRecompute_cfg (s : State) : s.filterRecompute.cfg = s.cfg := rfl
@[simp] theorem State.filterRecompute_rate (s : State) : s.filterRecompute.rate = s.rate := rfl
@[simp] theorem State.filterRecompute_params (s : State) : s.filterRecompute.params = s.params := rfl
@[simp] theorem State.filterRecompute_bufs (s : State) : s.filterRecompute.bufs = s.bufs := rfl
@[simp] theorem State.filterRecompute_voices (s : State) : s.filterRecompute.voices = s.voices := rfl
@[simp] theorem State.filterRecompute_commands (s : State) : s.filterRecompute.commands = s.commands := rfl
@[simp] theorem State.filterRecompute_response (s : State) : s.filterRecompute.response = s.response := rfl
@[simp] theorem State.filterRecompute_filter_fcReq (s : State) : s.filterRecompute.filter.fcReq = s.filter.fcReq := rfl
@[simp] theorem State.filterRecompute_filter_res (s : State) : s.filterRecompute.filter.res = s.filter.res := rfl
@[simp] theorem State.filterRecompute_filter_mode (s : State) : s.filterRecompute.filter.mode = s.filter.mode := rfl
@[simp] theorem State.filterRecompute_filter_left (s : State) : s.filterRecompute.filter.left = s.filter.left := rfl
@[simp] theorem State.filterRecompute_filter_right (s : State) : s.filterRecompute.filter.right = s.filter.right := rfl

@[simp] theorem State.resetWith_cfg (p : Params) : (State.resetWith p).cfg = p := rfl
@[simp] theorem State.resetWith_rate (p : Params) : (State.resetWith p).rate = State.reset.rate := rfl
@[simp] theorem State.resetWith_params (p : Params) : (State.resetWith p).params = State.reset.params := rfl
@[simp] theorem State.resetWith_bufs (p : Params) : (State.resetWith p).bufs = State.reset.bufs := rfl
@[simp] theorem State.resetWith_voices (p : Params) : (State.resetWith p).voices = State.reset.voices := rfl
@[simp] theorem State.resetWith_commands (p : Params) : (State.resetWith p).commands = State.reset.commands := rfl
@[simp] theorem State.resetWith_response (p : Params) : (State.resetWith p).response = State.reset.response := rfl
@[simp] theorem State.resetWith_filter_fcReq (p : Params) : (State.resetWith p).filter.fcReq = State.reset.filter.fcReq := rfl
@[simp] theorem State.resetWith_filter_res (p : Params) : (State.resetWith p).filter.res = State.reset.filter.res := rfl
@[simp] theorem State.resetWith_filter_mode (p : Params) : (State.resetWith p).filter.mode = State.reset.filter.mode := rfl
@[simp] theorem State.resetWith_filter_left (p : Params) : (State.resetWith p).filter.left = State.reset.filter.left := rfl
@[simp] theorem State.resetWith_filter_right (p : Params) : (State.resetWith p).filter.right = State.reset.filter.right := rfl

@[simp] theorem State.clearDelay_cfg (s : State) : s.clearDelay.cfg = s.cfg := rfl
@[simp] theorem State.clearDelay_rate (s : State) : s.clearDelay.rate = s.rate := rfl
@[simp] theorem State.clearDelay_params (s : State) : s.clearDelay.params = s.params := rfl
@[simp] theorem State.clearDelay_bufs (s : State) : s.clearDelay.bufs = s.bufs := rfl
@[simp] theorem State.clearDelay_voices (s : State) : s.clearDelay.voices = s.voices := rfl
@[simp] theorem State.clearDelay_commands (s : State) : s.clearDelay.commands = s.commands := rfl
@[simp] theorem State.clearDelay_response (s : State) : s.clearDelay.response = s.response := rfl
@[simp] theorem State.clearDelay_filter_fcReq (s : State) : s.clearDelay.filter.fcReq = s.filter.fcReq := rfl
@[simp] theorem State.clearDelay_filter_res (s : State) : s.clearDelay.filter.res = s.filter.res := rfl
@[simp] theorem State.clearDelay_filter_mode (s : State) : s.clearDelay.filter.mode = s.filter.mode := rfl
@[simp] theorem State.clearDelay_filter_coeffs (s : State) : s.clearDelay.filter.coeffs = s.filter.coeffs := rfl
@[simp] theorem State.clearDelay_filter_fallback (s : State) : s.clearDelay.filter.fallback = s.filter.fallback := rfl

@[simp] theorem State.memWrite_cfg (s : State) (c : Channel) (a : Nat) (w : SampleWord) : (s.memWrite c a w).cfg = s.cfg := rfl
@[simp] theorem State.memWrite_rate (s : State) (c : Channel) (a : Nat) (w : SampleWord) : (s.memWrite c a w).rate = s.rate := rfl
@[simp] theorem State.memWrite_params (s : State) (c : Channel) (a : Nat) (w : SampleWord) : (s.memWrite c a w).params = s.params := rfl
@[simp] theorem State.memWrite_voices (s : State) (c : Channel) (a : Nat) (w : SampleWord) : (s.memWrite c a w).voices = s.voices := rfl
@[simp] theorem State.memWrite_filter (s : State) (c : Channel) (a : Nat) (w : SampleWord) : (s.memWrite c a w).filter = s.filter := rfl
@[simp] theorem State.memWrite_commands (s : State) (c : Channel) (a : Nat) (w : SampleWord) : (s.memWrite c a w).commands = s.commands := rfl
@[simp] theorem State.memWrite_response (s : State) (c : Channel) (a : Nat) (w : SampleWord) : (s.memWrite c a w).response = s.response := rfl

@[simp] theorem State.fset_cfg (s : State) (x y : F64) (m : FilterMode) : (s.fset x y m).cfg = s.cfg := rfl
@[simp] theorem State.fset_rate (s : State) (x y : F64) (m : FilterMode) : (s.fset x y m).rate = s.rate := rfl
@[simp] theorem State.fset_params (s : State) (x y : F64) (m : FilterMode) : (s.fset x y m).params = s.params := rfl
@[simp] theorem State.fset_bufs (s : State) (x y : F64) (m : FilterMode) : (s.fset x y m).bufs = s.bufs := rfl
@[simp] theorem State.fset_voices (s : State) (x y : F64) (m : FilterMode) : (s.fset x y m).voices = s.voices := rfl
@[simp] theorem State.fset_commands (s : State) (x y : F64) (m : FilterMode) : (s.fset x y m).commands = s.commands := rfl
@[simp] theorem State.fset_response (s : State) (x y : F64) (m : FilterMode) : (s.fset x y m).response = s.response := rfl

/-! ## Reading back what was written -/

@[simp] theorem State.voice_setVoice_self (s : State) (c : Channel) (v : Voice) : (s.setVoice c v).voice c = v := by
  simp [State.voice, State.setVoice]

theorem State.voice_setVoice_ne (s : State) {c d : Channel} (v : Voice) (h : c ≠ d) :
    (s.setVoice c v).voice d = s.voice d := by
  have : c.val ≠ d.val := fun e => h (Fin.ext e)
  simp [State.voice, State.setVoice, this]

@[simp] theorem State.buf_setBuf_self (s : State) (c : Channel) (b : Buffer) : (s.setBuf c b).buf c = b := by
  simp [State.buf, State.setBuf]

theorem State.buf_setBuf_ne (s : State) {c d : Channel} (b : Buffer) (h : c ≠ d) :
    (s.setBuf c b).buf d = s.buf d := by
  have : c.val ≠ d.val := fun e => h (Fin.ext e)
  simp [State.buf, State.setBuf, this]

@[simp] theorem State.param_setParam_self (s : State) (i : Fin 12) (v : Param) : (s.setParam i v).param i = v := by
  simp [State.param, State.setParam]

theorem State.param_setParam_ne (s : State) {i j : Fin 12} (v : Param) (h : i ≠ j) :
    (s.setParam i v).param j = s.param j := by
  have : i.val ≠ j.val := fun e => h (Fin.ext e)
  simp [State.param, State.setParam, this]

@[simp] theorem State.setVoice_voice_self (s : State) (c : Channel) : s.setVoice c (s.voice c) = s := by
  simp [State.voice, State.setVoice]

@[simp] theorem State.setBuf_buf_self (s : State) (c : Channel) : s.setBuf c (s.buf c) = s := by
  simp [State.buf, State.setBuf]

/-- Writes of two voices do not depend on their order. -/
theorem State.setVoice_comm (s : State) {c d : Channel} (v w : Voice) (h : c ≠ d) :
    (s.setVoice c v).setVoice d w = (s.setVoice d w).setVoice c v := by
  have : c.val ≠ d.val := fun e => h (Fin.ext e)
  simp [State.setVoice, Vector.set_comm _ _ this]

/-! ## Accessors through updates of another field -/

@[simp] theorem State.voice_setParam (s : State) (i : Fin 12) (v : Param) (d : Channel) : (s.setParam i v).voice d = s.voice d := rfl
@[simp] theorem State.voice_setBuf (s : State) (c : Channel) (b : Buffer) (d : Channel) : (s.setBuf c b).voice d = s.voice d := rfl
@[simp] theorem State.voice_setRate (s : State) (r : F64) (d : Channel) : (s.setRate r).voice d = s.voice d := rfl
@[simp] theorem State.voice_setFilter (s : State) (f : FilterState) (d : Channel) : (s.setFilter f).voice d = s.voice d := rfl
@[simp] theorem State.voice_respond (s : State) (st : Status) (a b : Word) (d : Channel) : (s.respond st a b).voice d = s.voice d := rfl
@[simp] theorem State.voice_filterRecompute (s : State) (d : Channel) : s.filterRecompute.voice d = s.voice d := rfl
@[simp] theorem State.voice_resetWith (p : Params) (d : Channel) : (State.resetWith p).voice d = State.reset.voice d := rfl
@[simp] theorem State.buf_resetWith (p : Params) (d : Channel) : (State.resetWith p).buf d = State.reset.buf d := rfl
@[simp] theorem State.voice_clearDelay (s : State) (d : Channel) : s.clearDelay.voice d = s.voice d := rfl
@[simp] theorem State.buf_setParam (s : State) (i : Fin 12) (v : Param) (d : Channel) : (s.setParam i v).buf d = s.buf d := rfl
@[simp] theorem State.buf_setVoice (s : State) (c : Channel) (v : Voice) (d : Channel) : (s.setVoice c v).buf d = s.buf d := rfl
@[simp] theorem State.buf_setRate (s : State) (r : F64) (d : Channel) : (s.setRate r).buf d = s.buf d := rfl
@[simp] theorem State.buf_setFilter (s : State) (f : FilterState) (d : Channel) : (s.setFilter f).buf d = s.buf d := rfl
@[simp] theorem State.buf_respond (s : State) (st : Status) (a b : Word) (d : Channel) : (s.respond st a b).buf d = s.buf d := rfl
@[simp] theorem State.buf_filterRecompute (s : State) (d : Channel) : s.filterRecompute.buf d = s.buf d := rfl
@[simp] theorem State.buf_clearDelay (s : State) (d : Channel) : s.clearDelay.buf d = s.buf d := rfl
@[simp] theorem State.param_setBuf (s : State) (c : Channel) (b : Buffer) (j : Fin 12) : (s.setBuf c b).param j = s.param j := rfl
@[simp] theorem State.param_setVoice (s : State) (c : Channel) (v : Voice) (j : Fin 12) : (s.setVoice c v).param j = s.param j := rfl
@[simp] theorem State.param_setRate (s : State) (r : F64) (j : Fin 12) : (s.setRate r).param j = s.param j := rfl
@[simp] theorem State.param_setFilter (s : State) (f : FilterState) (j : Fin 12) : (s.setFilter f).param j = s.param j := rfl
@[simp] theorem State.param_respond (s : State) (st : Status) (a b : Word) (j : Fin 12) : (s.respond st a b).param j = s.param j := rfl
@[simp] theorem State.param_filterRecompute (s : State) (j : Fin 12) : s.filterRecompute.param j = s.param j := rfl
@[simp] theorem State.param_clearDelay (s : State) (j : Fin 12) : s.clearDelay.param j = s.param j := rfl

/-- A state is known by its registers: two states whose fields agree are equal. -/
theorem State.ext_voices {s t : State} (h : ∀ c, s.voice c = t.voice c) : s.voices = t.voices := by
  apply Vector.ext
  intro i hi
  exact h ⟨i, hi⟩

theorem State.ext_bufs {s t : State} (h : ∀ c, s.buf c = t.buf c) : s.bufs = t.bufs := by
  apply Vector.ext
  intro i hi
  exact h ⟨i, hi⟩

theorem State.ext_params {s t : State} (h : ∀ i, s.param i = t.param i) : s.params = t.params := by
  apply Vector.ext
  intro i hi
  exact h ⟨i, hi⟩

end Sys2Proof.Machine
end

