-- ==== Sys2Proof/Laws/Memory.lean ====
section
/-! SUPPORT. The laws of the sample memories: read after write, and the canonical form kept by every memory operation. -/

namespace Sys2Proof.Machine

/-- A byte written reads back. -/
@[simp] theorem Memory.read_write_self (m : Memory) (a : Nat) (v : Byte) : (Memory.write m a v).read a = some v := by
  induction m with
  | nil => simp [Memory.write, Memory.read]
  | cons cell rest ih =>
    obtain ⟨k, b⟩ := cell
    rcases Nat.lt_trichotomy a k with h | h | h
    · simp [Memory.write, Memory.read, h]
    · simp [Memory.write, Memory.read, h]
    · have h1 : ¬ a < k := by omega
      have h2 : a ≠ k := by omega
      have h3 : k ≠ a := by omega
      simp [Memory.write, Memory.read, h1, h2, h3, ih]

/-- Every other byte reads as before. -/
theorem Memory.read_write_ne (m : Memory) {a x : Nat} (v : Byte) (h : x ≠ a) :
    (Memory.write m a v).read x = m.read x := by
  have hx : a ≠ x := fun e => h e.symm
  induction m with
  | nil => simp [Memory.write, Memory.read, hx]
  | cons cell rest ih =>
    obtain ⟨k, b⟩ := cell
    rcases Nat.lt_trichotomy a k with hk | hk | hk
    · simp [Memory.write, Memory.read, hk, hx]
    · subst hk; simp [Memory.write, Memory.read, hx]
    · have h1 : ¬ a < k := by omega
      have h2 : a ≠ k := by omega
      simp only [Memory.write, h1, h2, if_false, Memory.read, ih]

/-- The cells after a write are the written cell and cells that were there. -/
theorem Memory.mem_write {m : Memory} {a : Nat} {v : Byte} {cell : Host.Cell}
    (h : cell ∈ Memory.write m a v) : cell = (a, v) ∨ cell ∈ m := by
  induction m with
  | nil => simpa [Memory.write] using h
  | cons c rest ih =>
    obtain ⟨k, b⟩ := c
    simp only [Memory.write] at h
    split at h
    · simpa using h
    · split at h
      · rcases List.mem_cons.mp h with h | h
        · exact .inl h
        · exact .inr (List.mem_cons_of_mem _ h)
      · rcases List.mem_cons.mp h with h | h
        · exact .inr (h ▸ List.mem_cons_self ..)
        · rcases ih h with h | h
          · exact .inl h
          · exact .inr (List.mem_cons_of_mem _ h)

/-- A byte write keeps the canonical form. -/
theorem Memory.wf_write {m : Memory} (h : Memory.wf m) (a : Nat) (v : Byte) : Memory.wf (Memory.write m a v) := by
  induction m with
  | nil => simp [Memory.write, Memory.wf]
  | cons c rest ih =>
    obtain ⟨k, b⟩ := c
    have hrest : Memory.wf rest := (List.pairwise_cons.mp h).2
    have hlt : ∀ y ∈ rest, k < y.1 := (List.pairwise_cons.mp h).1
    simp only [Memory.write]
    split
    · rename_i hk
      refine List.pairwise_cons.mpr ⟨fun y hy => ?_, h⟩
      rcases List.mem_cons.mp hy with rfl | hy
      · exact hk
      · exact Nat.lt_trans hk (hlt y hy)
    · split
      · rename_i hk
        subst hk
        exact List.pairwise_cons.mpr ⟨hlt, hrest⟩
      · rename_i h1 h2
        refine List.pairwise_cons.mpr ⟨fun y hy => ?_, ih hrest⟩
        rcases Memory.mem_write hy with rfl | hy
        · show k < a
          omega
        · exact hlt y hy

/-- A word write keeps the canonical form. -/
theorem Memory.wf_writeWord {m : Memory} (h : Memory.wf m) (a : Nat) (w : SampleWord) :
    Memory.wf (Memory.writeWord m a w) :=
  Memory.wf_write (Memory.wf_write h _ _) _ _

/-- The memory at reset is in canonical form. -/
theorem Memory.wf_reset (c : Channel) : Memory.wf (State.reset.buf c).mem := by
  have : State.reset.buf c = Buffer.reset := by simp [State.buf, State.reset]
  simp [this, Buffer.reset, Memory.wf]

/-- A word write changes the two bytes of its word and no other. -/
theorem Memory.read_writeWord_ne (m : Memory) {a x : Nat} (w : SampleWord) (h : x / 2 ≠ a) :
    (Memory.writeWord m a w).read x = m.read x := by
  have h1 : x ≠ 2 * a := by omega
  have h2 : x ≠ 2 * a + 1 := by omega
  simp only [Memory.writeWord, Memory.read_write_ne _ _ h2, Memory.read_write_ne _ _ h1]

/-- A word written reads back whole. -/
@[simp] theorem Memory.readWord_writeWord_self (m : Memory) (a : Nat) (w : SampleWord) :
    (Memory.writeWord m a w).readWord a = some w := by
  have h : 2 * a ≠ 2 * a + 1 := by omega
  have hw : (w.extractLsb' 8 8 ++ w.extractLsb' 0 8 : BitVec 16) = w := by
    apply BitVec.eq_of_getLsbD_eq
    intro i hi
    simp only [BitVec.getLsbD_append, BitVec.getLsbD_extractLsb']
    by_cases h8 : i < 8
    · simp [h8]
    · have : 8 + (i - 8) = i := by omega
      have h2 : i - 8 < 8 := by omega
      simp [h8, h2, this]
  simp only [Memory.readWord, Memory.writeWord, Memory.read_write_ne _ _ h, Memory.read_write_self, hw]

/-- Every other word reads as before. -/
theorem Memory.readWord_writeWord_ne (m : Memory) {a x : Nat} (w : SampleWord) (h : x ≠ a) :
    (Memory.writeWord m a w).readWord x = m.readWord x := by
  have h1 : 2 * x / 2 ≠ a := by omega
  have h2 : (2 * x + 1) / 2 ≠ a := by omega
  simp only [Memory.readWord, Memory.read_writeWord_ne _ _ h1, Memory.read_writeWord_ne _ _ h2]

/-- MemWrite on a buffer (20_memory.md R38): the length after it. -/
theorem Buffer.memWrite_len (b : Buffer) (a : Nat) (w : SampleWord) :
    (b.memWrite a w).len = if a = b.len.toNat then b.len + 1 else b.len := rfl

/-- MemWrite reads back at its own index, which is then below LEN; an append must leave room in LEN's 32 bits. -/
theorem Buffer.memRead_memWrite_self (b : Buffer) {a : Nat} (w : SampleWord) (h : a ≤ b.len.toNat)
    (hmax : a = b.len.toNat → b.len.toNat < 2 ^ 32 - 1) : (b.memWrite a w).memRead a = some w := by
  have hl : a < (b.memWrite a w).len.toNat := by
    simp only [Buffer.memWrite]
    split
    · rename_i he
      have := hmax he
      have : (b.len + 1).toNat = b.len.toNat + 1 := by
        rw [BitVec.toNat_add]; simp; omega
      omega
    · omega
  simp only [Buffer.memRead, hl, if_true]
  simp [Buffer.memWrite]

/-- MemWrite leaves every other word below the old LEN as it was. -/
theorem Buffer.memRead_memWrite_ne (b : Buffer) {a x : Nat} (w : SampleWord) (hx : x < b.len.toNat) (h : x ≠ a)
    (hmax : a = b.len.toNat → b.len.toNat < 2 ^ 32 - 1) : (b.memWrite a w).memRead x = b.memRead x := by
  have hl : x < (b.memWrite a w).len.toNat := by
    simp only [Buffer.memWrite]
    split
    · rename_i he
      have := hmax he
      have : (b.len + 1).toNat = b.len.toNat + 1 := by
        rw [BitVec.toNat_add]; simp; omega
      omega
    · exact hx
  simp only [Buffer.memRead, hl, hx, if_true]
  simp [Buffer.memWrite, Memory.readWord_writeWord_ne _ _ h]

/-- MemWrite keeps the canonical form. -/
theorem Buffer.wf_memWrite {b : Buffer} (h : Memory.wf b.mem) (a : Nat) (w : SampleWord) :
    Memory.wf (b.memWrite a w).mem := Memory.wf_writeWord h a w

end Sys2Proof.Machine
end

