-- ==== Sys2Proof/Laws/Ops.lean ====
section
/-! SUPPORT. For each shared operation, once, everything it can do: how a command completes, one voice step and its
stages, the mix of the voices, the reset of SETRATE, and the meaning of each instruction as an equation of `exec`. -/

namespace Sys2Proof.Machine

/-! ## Completion -/

@[simp] theorem complete_next (s t : State) (a b : Word) : complete s a b = .next t ↔ s.respond .ok a b = t := by
  simp [complete]

@[simp] theorem raise_next (s t : State) (st : Status) : raise s st = .next t ↔ s.respond st 0 0 = t := by
  simp [raise]

@[simp] theorem State.respond_respond (s : State) (st st' : Status) (a b a' b' : Word) :
    (s.respond st a b).respond st' a' b' = s.respond st' a' b' := rfl

/-- A response changes the response and nothing else. -/
theorem State.respond_eq (s : State) (st : Status) (a b : Word) :
    s.respond st a b = { s with response := (s.respond st a b).response } := rfl

/-! ## Channels -/

/-- Every channel is among those `for c in 0..7` takes. -/
theorem mem_channels : ∀ c : Channel, c ∈ channels := by decide

theorem nodup_channels : channels.Nodup := by decide

/-- A raw channel below 8 names itself (R57). -/
theorem chan_of_lt {ch : BitVec 8} (h : ch.toNat < 8) : chan ch = ⟨ch.toNat, h⟩ :=
  Fin.ext (Nat.min_eq_left (by omega))

/-- A raw channel from 7 on names channel 7 (R57). -/
theorem chan_of_ge {ch : BitVec 8} (h : 7 ≤ ch.toNat) : chan ch = 7 :=
  Fin.ext (Nat.min_eq_right h)

/-! ## Sample memory on the state -/

@[simp] theorem State.buf_memWrite_self (s : State) (c : Channel) (a : Nat) (w : SampleWord) :
    (s.memWrite c a w).buf c = (s.buf c).memWrite a w := by simp [State.memWrite]

theorem State.buf_memWrite_ne (s : State) {c d : Channel} (a : Nat) (w : SampleWord) (h : c ≠ d) :
    (s.memWrite c a w).buf d = s.buf d := State.buf_setBuf_ne s _ h

/-- A word write of buffer c leaves every byte but the word's own two as it was. -/
theorem State.byteAt_memWrite (s : State) (c d : Channel) (a x : Nat) (w : SampleWord) (h : d ≠ c ∨ x / 2 ≠ a) :
    (s.memWrite c a w).byteAt d x = s.byteAt d x := by
  unfold State.byteAt
  by_cases hd : c = d
  · subst hd
    simp only [State.buf_memWrite_self, Buffer.memWrite]
    exact Memory.read_writeWord_ne _ _ (h.resolve_left (fun e => e rfl))
  · rw [State.buf_memWrite_ne s a w hd]

/-! ## One step of a voice -/

/-- The reducer writes SRRCNT and SRRHOLD only. -/
theorem Voice.srr_frame (v : Voice) (x : F64) (s : Param) :
    (v.srr x s).2 = { v with srrCnt := (v.srr x s).2.srrCnt, srrHold := (v.srr x s).2.srrHold } := by
  unfold Voice.srr
  split <;> rfl

/-- The read of the engine: it fails, gives +0.0 and writes nothing, or gives the interpolated value and advances POS
(R82). -/
theorem Voice.readInterpolated_ok {v v' : Voice} {b : Buffer} {c : Channel} {r y : F64}
    (h : v.readInterpolated b c r = .ok (y, v')) :
    (y = F64.cZero ∧ v' = v ∧
      (b.len.toNat = 0 ∨ ∃ i, v.pos.floor = some i ∧ (b.len.toNat : Int) - 1 ≤ i)) ∨
    (∃ (i : Nat) (w1 w2 : SampleWord), v.pos.floor = some (i : Int) ∧ i + 1 < b.len.toNat ∧
      b.memRead i = some w1 ∧ b.memRead (i + 1) = some w2 ∧
      y = interpolate w1 w2 (v.pos.sub (F64.ofInt i)) ∧ v' = { v with pos := v.pos.add r }) := by
  unfold Voice.readInterpolated at h
  split at h
  · rename_i h0
    cases h
    exact .inl ⟨rfl, rfl, .inl h0⟩
  · split at h
    · cases h
    · rename_i i hi
      split at h
      · rename_i hge
        cases h
        exact .inl ⟨rfl, rfl, .inr ⟨i, hi, hge⟩⟩
      · split at h
        · cases h
        · rename_i hlt hneg
          obtain ⟨n, rfl⟩ : ∃ n : Nat, i = n := ⟨i.toNat, by omega⟩
          simp only [Int.toNat_natCast, Buffer.bracket] at h
          cases hr1 : b.memRead n with
          | none => rw [hr1] at h; cases h
          | some w1 =>
            cases hr2 : b.memRead (n + 1) with
            | none => rw [hr1, hr2] at h; cases h
            | some w2 =>
              rw [hr1, hr2] at h
              cases h
              exact .inr ⟨n, w1, w2, hi, by omega, hr1, hr2, rfl, rfl⟩

/-- The read answers when the position has a floor that is not negative and the words below LEN are written. -/
theorem Voice.readInterpolated_exists (v : Voice) (b : Buffer) (c : Channel) (r : F64) {i : Int}
    (hi : v.pos.floor = some i) (h0 : 0 ≤ i) (hw : ∀ a < b.len.toNat, ∃ w, b.memRead a = some w) :
    ∃ y v', v.readInterpolated b c r = .ok (y, v') := by
  unfold Voice.readInterpolated
  split
  · exact ⟨_, _, rfl⟩
  · rw [hi]
    dsimp only
    split
    · exact ⟨_, _, rfl⟩
    · rename_i hlt
      rw [if_neg (by omega)]
      obtain ⟨w1, h1⟩ := hw i.toNat (by omega)
      obtain ⟨w2, h2⟩ := hw (i.toNat + 1) (by omega)
      simp only [Buffer.bracket, h1, h2]
      exact ⟨_, _, rfl⟩

/-- The read with the lo-fi units: interpolation, quantizer, reducer (R83). -/
theorem Voice.readWithLoFi_ok {v v' : Voice} {b : Buffer} {c : Channel} {r x : F64} {s : Param}
    (h : v.readWithLoFi b c r s = .ok (x, v')) :
    ∃ y u, v.readInterpolated b c r = .ok (y, u) ∧ x = (u.srr (quantize12 y) s).1 ∧
      v' = (u.srr (quantize12 y) s).2 := by
  unfold Voice.readWithLoFi at h
  split at h
  · cases h
  · rename_i y u hr
    rw [Except.ok.injEq] at h
    exact ⟨y, u, hr, (congrArg Prod.fst h).symm, (congrArg Prod.snd h).symm⟩

/-- The read with the lo-fi units writes POS, SRRCNT and SRRHOLD only. -/
theorem Voice.readWithLoFi_frame {v v' : Voice} {b : Buffer} {c : Channel} {r x : F64} {s : Param}
    (h : v.readWithLoFi b c r s = .ok (x, v')) :
    v' = { v with pos := v'.pos, srrCnt := v'.srrCnt, srrHold := v'.srrHold } := by
  obtain ⟨y, u, hr, -, rfl⟩ := Voice.readWithLoFi_ok h
  rw [Voice.srr_frame]
  obtain ⟨-, rfl, -⟩ | ⟨i, w1, w2, -, -, -, -, -, rfl⟩ := Voice.readInterpolated_ok hr <;> rfl

/-- The envelope stage writes ENV, ACTIVE and HOLDREM only. -/
theorem Voice.stepEnvelope_frame (v : Voice) :
    v.stepEnvelope =
      { v with env := v.stepEnvelope.env, active := v.stepEnvelope.active, holdRem := v.stepEnvelope.holdRem } := by
  unfold Voice.stepEnvelope
  split
  · rfl
  · dsimp only
    split <;> rfl

/-- Stages 2 to 6: silent, ended, or played (R121). -/
theorem Voice.stepPlay_ok {v v' : Voice} {b : Buffer} {c : Channel} {y : F64} (h : v.stepPlay b c = .ok (y, v')) :
    (v.active = false ∧ y = F64.cZero ∧ v' = v) ∨
    (v.active = true ∧ v.engineFinished b v.endFrac = true ∧ y = F64.cZero ∧ v' = { v with active := false }) ∨
    (v.active = true ∧ v.engineFinished b v.endFrac = false ∧
      ∃ x u, v.readWithLoFi b c v.ratio v.srrAmt = .ok (x, u) ∧ y = (x.mul u.env).mul u.volume ∧
        v' = u.stepEnvelope) := by
  unfold Voice.stepPlay at h
  split at h
  · rename_i ha
    cases h
    exact .inl ⟨ha, rfl, rfl⟩
  · rename_i ha
    have ha : v.active = true := by simpa using ha
    split at h
    · rename_i hf
      cases h
      exact .inr (.inl ⟨ha, hf, rfl, rfl⟩)
    · rename_i hf
      split at h
      · cases h
      · rename_i x u hr
        cases h
        exact .inr (.inr ⟨ha, by simpa using hf, x, u, hr, rfl, rfl⟩)

/-- The retrigger stage: nothing, one count, or a restart (R122). -/
theorem Voice.stepRetrigger_cases (v : Voice) (rate : F64) (b : Buffer) :
    (v.rtrgRem.toNat = 0 ∧ v.stepRetrigger rate b = v) ∨
    (0 < v.rtrgRem.toNat ∧ v.rtrgCnt.toNat + 1 < v.rtrgInt.toNat ∧
      v.stepRetrigger rate b = { v with rtrgCnt := v.rtrgCnt + 1 }) ∨
    (0 < v.rtrgRem.toNat ∧ v.rtrgInt.toNat ≤ v.rtrgCnt.toNat + 1 ∧
      v.stepRetrigger rate b =
        ({ v with rtrgCnt := 0, rtrgRem := v.rtrgRem - 1 } : Voice).internalTrigger rate b) := by
  unfold Voice.stepRetrigger
  split
  · rename_i h0
    split
    · rename_i h1
      exact .inr (.inr ⟨h0, h1, rfl⟩)
    · rename_i h1
      exact .inr (.inl ⟨h0, by omega, rfl⟩)
  · rename_i h0
    exact .inl ⟨by omega, rfl⟩

/-- The record a restart leaves, over any values it writes: proved on variables, so that no check evaluates a
binary64 operation. -/
theorem Voice.restart_record (v : Voice) (p e d : F64) (h : BitVec 32) :
    ({ ({ ({ v with active := true } : Voice) with pos := p, srrCnt := 0, srrHold := F64.cZero } : Voice) with
        env := e, holdRem := h, decayRate := d } : Voice) =
      { v with active := true, pos := p, srrCnt := 0, srrHold := F64.cZero, env := e, holdRem := h, decayRate := d } :=
  rfl

/-- The restart writes ACTIVE, POS, SRRCNT, SRRHOLD, ENV, HOLDREM and DECAYRATE only (R119). -/
theorem Voice.internalTrigger_eq (v : Voice) (rate : F64) (b : Buffer) :
    v.internalTrigger rate b =
      { v with
        active := true
        pos := F64.min (F64.max (v.startFrac.mul b.lenF64) F64.cZero) b.lenF64
        srrCnt := 0
        srrHold := F64.cZero
        env := F64.cOne
        holdRem := BitVec.ofInt 32 (holdSamples rate (v.snapAt 3))
        decayRate := decayRateFor rate (v.snapAt 4) } :=
  Voice.restart_record v (F64.min (F64.max (v.startFrac.mul b.lenF64) F64.cZero) b.lenF64) F64.cOne
    (decayRateFor rate (v.snapAt 4)) (BitVec.ofInt 32 (holdSamples rate (v.snapAt 3)))

@[simp] theorem Voice.internalTrigger_snap (v : Voice) (rate : F64) (b : Buffer) :
    (v.internalTrigger rate b).snap = v.snap := by rw [Voice.internalTrigger_eq]
@[simp] theorem Voice.internalTrigger_active (v : Voice) (rate : F64) (b : Buffer) :
    (v.internalTrigger rate b).active = true := by rw [Voice.internalTrigger_eq]
@[simp] theorem Voice.internalTrigger_rtrgRem (v : Voice) (rate : F64) (b : Buffer) :
    (v.internalTrigger rate b).rtrgRem = v.rtrgRem := by rw [Voice.internalTrigger_eq]
@[simp] theorem Voice.internalTrigger_rtrgInt (v : Voice) (rate : F64) (b : Buffer) :
    (v.internalTrigger rate b).rtrgInt = v.rtrgInt := by rw [Voice.internalTrigger_eq]
@[simp] theorem Voice.internalTrigger_rtrgCnt (v : Voice) (rate : F64) (b : Buffer) :
    (v.internalTrigger rate b).rtrgCnt = v.rtrgCnt := by rw [Voice.internalTrigger_eq]

/-- A voice step keeps the snapshot and RTRGINT. -/
theorem Voice.process_keeps {v v' : Voice} {rate : F64} {b : Buffer} {c : Channel} {y : F64}
    (h : v.process rate b c = .ok (y, v')) : v'.snap = v.snap ∧ v'.rtrgInt = v.rtrgInt := by
  have h1 : (v.stepRetrigger rate b).snap = v.snap ∧ (v.stepRetrigger rate b).rtrgInt = v.rtrgInt := by
    obtain ⟨-, e⟩ | ⟨-, -, e⟩ | ⟨-, -, e⟩ := v.stepRetrigger_cases rate b <;> rw [e]
    · exact ⟨rfl, rfl⟩
    · exact ⟨rfl, rfl⟩
    · rw [Voice.internalTrigger_snap, Voice.internalTrigger_rtrgInt]
      exact ⟨rfl, rfl⟩
  have h2 : v'.snap = (v.stepRetrigger rate b).snap ∧ v'.rtrgInt = (v.stepRetrigger rate b).rtrgInt := by
    obtain ⟨-, -, rfl⟩ | ⟨-, -, -, rfl⟩ | ⟨-, -, x, u, hr, -, rfl⟩ := Voice.stepPlay_ok h
    · exact ⟨rfl, rfl⟩
    · exact ⟨rfl, rfl⟩
    · rw [Voice.stepEnvelope_frame, Voice.readWithLoFi_frame hr]
      exact ⟨rfl, rfl⟩
  exact ⟨h2.1.trans h1.1, h2.2.trans h1.2⟩

/-- A voice step on the state writes the voice's record and nothing else (R113). -/
theorem State.process_ok {s s' : State} {c : Channel} {y : F64} :
    s.process c = .ok (y, s') ↔
      ∃ v, (s.voice c).process s.rate (s.buf c) c = .ok (y, v) ∧ s' = s.setVoice c v := by
  unfold State.process
  cases h : (s.voice c).process s.rate (s.buf c) c with
  | error e => simp
  | ok p =>
    obtain ⟨y', v⟩ := p
    simp only [Except.ok.injEq, Prod.mk.injEq]
    constructor
    · rintro ⟨rfl, rfl⟩
      exact ⟨v, ⟨rfl, rfl⟩, rfl⟩
    · rintro ⟨w, ⟨rfl, rfl⟩, rfl⟩
      exact ⟨rfl, rfl⟩

/-! ## The mix -/

/-- The mix steps each voice of the list once, from the record it had before the mix, and writes nothing but those
records (R133, R48). -/
theorem State.mixFrom_ok {cs : List Channel} : ∀ {s s' : State} {m m' : F64}, cs.Nodup →
    s.mixFrom m cs = .ok (m', s') →
    s' = { s with voices := s'.voices } ∧ (∀ d, d ∉ cs → s'.voice d = s.voice d) ∧
      ∃ y : Channel → F64, m' = (cs.map y).foldl F64.add m ∧
        ∀ c ∈ cs, (s.voice c).process s.rate (s.buf c) c = .ok (y c, s'.voice c) := by
  induction cs with
  | nil =>
    intro s s' m m' _ h
    cases h
    exact ⟨rfl, fun _ _ => rfl, fun _ => F64.cZero, rfl, fun c hc => by cases hc⟩
  | cons c rest ih =>
    intro s s' m m' hn h
    obtain ⟨hc, hn⟩ := List.nodup_cons.mp hn
    unfold State.mixFrom at h
    split at h
    · cases h
    · rename_i y s1 hp
      obtain ⟨v, hv, rfl⟩ := State.process_ok.mp hp
      obtain ⟨he, hf, ys, hm, hall⟩ := ih hn h
      have hself : s'.voice c = v := by rw [hf c hc, State.voice_setVoice_self]
      refine ⟨?_, ?_, fun d => if d = c then y else ys d, ?_, ?_⟩
      · rw [he]; rfl
      · intro d hd
        have hdc : c ≠ d := fun e => hd (by simp [e])
        rw [hf d (fun hm => hd (List.mem_cons_of_mem _ hm)), State.voice_setVoice_ne s v hdc]
      · rw [hm]
        have : rest.map (fun d => if d = c then y else ys d) = rest.map ys := by
          apply List.map_congr_left
          intro d hd
          have : d ≠ c := fun e => hc (e ▸ hd)
          simp [this]
        simp [this]
      · intro d hd
        by_cases hdc : d = c
        · subst hdc
          simp [hself, hv]
        · have hd' := (List.mem_cons.mp hd).resolve_left hdc
          have := hall d hd'
          rw [State.voice_setVoice_ne s v (fun e => hdc e.symm)] at this
          simpa [hdc] using this

/-- The mix answers when every voice of the list can step. -/
theorem State.mixFrom_exists {cs : List Channel} : ∀ (s : State) (m : F64), cs.Nodup →
    (∀ c ∈ cs, ∃ y v, (s.voice c).process s.rate (s.buf c) c = .ok (y, v)) →
    ∃ m' s', s.mixFrom m cs = .ok (m', s') := by
  induction cs with
  | nil => exact fun s m _ _ => ⟨m, s, rfl⟩
  | cons c rest ih =>
    intro s m hn hall
    obtain ⟨hc, hn⟩ := List.nodup_cons.mp hn
    obtain ⟨y, v, hv⟩ := hall c (by simp)
    have hp : s.process c = .ok (y, s.setVoice c v) := State.process_ok.mpr ⟨v, hv, rfl⟩
    obtain ⟨m', s', h⟩ := ih (s.setVoice c v) (m.add y) hn (by
      intro d hd
      have hcd : c ≠ d := fun e => hc (e ▸ hd)
      rw [State.voice_setVoice_ne s v hcd]
      exact hall d (List.mem_cons_of_mem _ hd))
    refine ⟨m', s', ?_⟩
    unfold State.mixFrom
    rw [hp]
    exact h

/-! ## The reset of SETRATE -/

/-- SETRATE's loop over a list of channels: every voice of the list at reset, every buffer of the list cut, nothing else
touched (R68). -/
theorem State.resetChannels_spec {cs : List Channel} : ∀ (s : State), cs.Nodup →
    cs.foldl State.resetChannel s =
        { s with
          voices := (cs.foldl State.resetChannel s).voices
          bufs := (cs.foldl State.resetChannel s).bufs } ∧
      (∀ d, (cs.foldl State.resetChannel s).voice d = if d ∈ cs then Voice.reset else s.voice d) ∧
      (∀ d, (cs.foldl State.resetChannel s).buf d = if d ∈ cs then (s.buf d).cut s.maxLen else s.buf d) := by
  induction cs with
  | nil => exact fun s _ => ⟨rfl, fun _ => by simp, fun _ => by simp⟩
  | cons c rest ih =>
    intro s hn
    obtain ⟨hc, hn⟩ := List.nodup_cons.mp hn
    obtain ⟨he, hv, hb⟩ := ih (s.resetChannel c) hn
    have hmax : (s.resetChannel c).maxLen = s.maxLen := rfl
    refine ⟨?_, ?_, ?_⟩
    · show rest.foldl State.resetChannel (s.resetChannel c) = _
      rw [he]; rfl
    · intro d
      show (rest.foldl State.resetChannel (s.resetChannel c)).voice d = _
      rw [hv d]
      by_cases hd : d = c
      · subst hd
        simp [hc, State.resetChannel]
      · have : c ≠ d := fun e => hd e.symm
        simp [hd, State.resetChannel, State.voice_setVoice_ne s _ this]
    · intro d
      show (rest.foldl State.resetChannel (s.resetChannel c)).buf d = _
      rw [hb d, hmax]
      by_cases hd : d = c
      · subst hd
        simp [hc, State.resetChannel]
      · have : c ≠ d := fun e => hd e.symm
        simp [hd, State.resetChannel, State.buf_setBuf_ne _ _ this]

/-- What a performed SETRATE leaves of the voices (R68). -/
theorem State.setRateReset_voice (s : State) (sr : F64) (d : Channel) :
    (s.setRateReset sr).voice d = Voice.reset := by
  simp only [State.setRateReset, State.voice_filterRecompute, State.voice_clearDelay]
  rw [(State.resetChannels_spec (s.setRate sr) nodup_channels).2.1 d, if_pos (mem_channels d)]

/-- What a performed SETRATE leaves of the buffers (R68). -/
theorem State.setRateReset_buf (s : State) (sr : F64) (d : Channel) :
    (s.setRateReset sr).buf d = (s.buf d).cut (Sys2Proof.Machine.maxLen s.cfg sr) := by
  simp only [State.setRateReset, State.buf_filterRecompute, State.buf_clearDelay]
  rw [(State.resetChannels_spec (s.setRate sr) nodup_channels).2.2 d, if_pos (mem_channels d)]
  rfl

/-- A performed SETRATE writes RATE, the voices, the buffers' lengths and the filter, and no other field. -/
theorem State.setRateReset_frame (s : State) (sr : F64) :
    (s.setRateReset sr).cfg = s.cfg ∧ (s.setRateReset sr).rate = sr ∧ (s.setRateReset sr).params = s.params ∧
      (s.setRateReset sr).commands = s.commands ∧ (s.setRateReset sr).response = s.response ∧
      (s.setRateReset sr).filter.fcReq = s.filter.fcReq ∧ (s.setRateReset sr).filter.res = s.filter.res ∧
      (s.setRateReset sr).filter.mode = s.filter.mode ∧ (s.setRateReset sr).filter.left = Delay.reset ∧
      (s.setRateReset sr).filter.right = Delay.reset := by
  have h := (State.resetChannels_spec (s.setRate sr) nodup_channels).1
  unfold State.setRateReset
  rw [h]
  exact ⟨rfl, rfl, rfl, rfl, rfl, rfl, rfl, rfl, rfl, rfl⟩

/-- filterRecompute leaves coefficients and FALLBACK of the current inputs (R103, R104). -/
theorem State.filterRecompute_current (s : State) : s.filterRecompute.coeffsCurrent := rfl

/-! ## The meanings that run on every operand, as equations of exec -/

theorem exec_nop (s : State) : exec .nop s = .next (s.respond .ok 0 0) := rfl
theorem exec_rdrate (s : State) : exec .rdrate s = .next (s.respond .ok s.rate.toBits 0) := rfl
theorem exec_rdstatus (s : State) : exec .rdstatus s = .next (s.respond .ok s.statusWord 0) := rfl
theorem exec_bufclr (ch : BitVec 8) (s : State) :
    exec (.bufclr ch) s = .next ((s.setBuf (chan ch) { s.buf (chan ch) with len := 0 }).respond .ok 0 0) := rfl
theorem exec_buflen (ch : BitVec 8) (s : State) :
    exec (.buflen ch) s = .next (s.respond .ok (zext64 (s.lenOf (chan ch))) (zext64 s.maxLen)) := rfl
theorem exec_trig (ch : BitVec 8) (s : State) :
    exec (.trig ch) s =
      .next ((s.setVoice (chan ch) ((s.voice (chan ch)).trigger s.params s.rate (s.buf (chan ch)))).respond .ok 0 0) :=
  rfl
theorem exec_stop (ch : BitVec 8) (s : State) :
    exec (.stop ch) s = .next ((s.setVoice (chan ch) (s.voice (chan ch)).stopped).respond .ok 0 0) := rfl
theorem exec_vstat (ch : BitVec 8) (s : State) :
    exec (.vstat ch) s = .next (s.respond .ok (s.voice (chan ch)).statWord 0) := rfl
theorem exec_pitch (val : Param) (s : State) :
    exec (.pitch val) s = .next (s.respond .ok (pitchRatio val).toBits 0) := rfl
theorem exec_filt (d0 d1 : Word) (s : State) : exec (.filt d0 d1) s = filterStep s (f64 d0) (f64 d1) := rfl
theorem exec_fmode (val : Param) (s : State) :
    exec (.fmode val) s = .next (s.respond .ok (zext64 (modeFromParam val).code) 0) := rfl
theorem exec_cuthz (val : Param) (s : State) :
    exec (.cuthz val) s = .next (s.respond .ok (cutoffHz val).toBits 0) := rfl
theorem exec_quant (d0 : Word) (s : State) :
    exec (.quant d0) s = .next (s.respond .ok (quantize12 (f64 d0)).toBits 0) := rfl

/-- VSTEP answers with the voice's output, or faults where the voice cannot step (R128). -/
theorem exec_vstep {ch : BitVec 8} {s t : State} :
    exec (.vstep ch) s = .next t ↔
      ∃ y v, (s.voice (chan ch)).process s.rate (s.buf (chan ch)) (chan ch) = .ok (y, v) ∧
        t = (s.setVoice (chan ch) v).respond .ok y.toBits 0 := by
  show execVstep ch s = .next t ↔ _
  unfold execVstep
  cases h : s.process (chan ch) with
  | error e =>
    simp only [reduceCtorEq, false_iff]
    rintro ⟨y, v, hv, -⟩
    rw [State.process_ok.mpr ⟨v, hv, rfl⟩] at h
    cases h
  | ok p =>
    obtain ⟨y, s'⟩ := p
    obtain ⟨v, hv, rfl⟩ := State.process_ok.mp h
    simp only [complete_next, bits64]
    constructor
    · rintro rfl
      exact ⟨y, v, hv, rfl⟩
    · rintro ⟨y', v', hv', rfl⟩
      rw [hv] at hv'
      cases hv'
      rfl

/-- FRAME answers with one filter step of the mix, or faults where a voice cannot step (R133). -/
theorem exec_frame {s t : State} :
    exec .frame s = .next t ↔
      ∃ m s', s.mixFrom F64.cZero channels = .ok (m, s') ∧ filterStep s' m m = .next t := by
  show execFrame s = .next t ↔ _
  unfold execFrame
  cases h : s.mixFrom F64.cZero channels with
  | error e => simp
  | ok p =>
    obtain ⟨m, s'⟩ := p
    simp

/-- BUFRD answers with the word, refuses from LEN on, or faults on a word nothing has written (R78). -/
theorem exec_bufrd_of_word {ch : BitVec 8} {d0 : Word} {s : State} {w : SampleWord}
    (h : (s.buf (chan ch)).memRead d0.toNat = some w) :
    exec (.bufrd ch d0) s = .next (s.respond .ok (zext64 w.toNat) ((wordCode w).signExtend 64)) := by
  have hl : ¬ s.lenOf (chan ch) ≤ u64 d0 := by
    intro hle
    unfold Buffer.memRead at h
    rw [if_neg (by simpa [State.lenOf, u64] using hle)] at h
    cases h
  show execBufrd ch d0 s = _
  unfold execBufrd
  rw [if_neg hl]
  show (match (s.buf (chan ch)).memRead d0.toNat with
    | some w => complete s (zext64 w.toNat) ((wordCode w).signExtend 64)
    | none => .fault (.unwrittenWord (chan ch) (u64 d0))) = _
  rw [h]
  rfl

/-- BUFRD at LEN or above is refused (R78). -/
theorem exec_bufrd_refused {ch : BitVec 8} {d0 : Word} {s : State} (h : s.lenOf (chan ch) ≤ d0.toNat) :
    exec (.bufrd ch d0) s = .next (s.respond .refused 0 0) := by
  show execBufrd ch d0 s = _
  unfold execBufrd
  have h' : s.lenOf (chan ch) ≤ u64 d0 := h
  rw [if_pos h']
  rfl

/-- BUFWR writes where it may and refuses elsewhere (R75). -/
theorem exec_bufwr (ch : BitVec 8) (code : BitVec 12) (d0 : Word) (s : State) :
    exec (.bufwr ch code d0) s =
      if s.mayWrite (chan ch) d0.toNat = true then
        .next ((s.memWrite (chan ch) d0.toNat (codeWord code)).respond .ok 0 0)
      else .next (s.respond .refused 0 0) := rfl

/-- BUFAPP appends below the bound and refuses at it (R76). -/
theorem exec_bufapp (ch : BitVec 8) (code : BitVec 12) (s : State) :
    exec (.bufapp ch code) s =
      if s.maxLen ≤ s.lenOf (chan ch) then .next (s.respond .refused 0 0)
      else .next ((s.memWrite (chan ch) (s.lenOf (chan ch)) (codeWord code)).respond .ok
        (zext64 (s.lenOf (chan ch))) 0) := rfl

/-- BUFAPQ appends the quantized sample below the bound and refuses at it (R77). -/
theorem exec_bufapq (ch : BitVec 8) (d0 : Word) (s : State) :
    exec (.bufapq ch d0) s =
      if s.maxLen ≤ s.lenOf (chan ch) then .next (s.respond .refused 0 0)
      else .next ((s.memWrite (chan ch) (s.lenOf (chan ch)) (BitVec.ofInt 16 (quantCode (f64 d0) * 16))).respond .ok
        (zext64 (s.lenOf (chan ch))) (sext64 (quantCode (f64 d0)))) := rfl

/-- SETRATE resets at an accepted rate and refuses any other (R68). -/
theorem exec_setrate (d0 : Word) (s : State) :
    exec (.setrate d0) s =
      if rateOk s.cfg (f64 d0) = true then .next ((s.setRateReset (f64 d0)).respond .ok 0 0)
      else .next (s.respond .refused 0 0) := rfl

/-- A parameter index that names a register. -/
theorem paramIndex_of_lt {idx : BitVec 8} (h : idx.toNat < 12) : paramIndex idx = some ⟨idx.toNat, h⟩ := by
  simp [paramIndex, h]

/-- A parameter index that names none. -/
theorem paramIndex_of_ge {idx : BitVec 8} (h : 12 ≤ idx.toNat) : paramIndex idx = none := by
  have : ¬ idx.toNat < 12 := by omega
  simp [paramIndex, this]

/-- WRPARAM of a register (R70). -/
theorem exec_wrparam_of_lt {idx : BitVec 8} (h : idx.toNat < 12) (val : Param) (s : State) :
    exec (.wrparam idx val) s =
      .next (((s.setParam ⟨idx.toNat, h⟩ val).applyParam ⟨idx.toNat, h⟩ val).respond .ok 0 0) := by
  show execWrparam idx val s = _
  unfold execWrparam
  rw [paramIndex_of_lt h]
  rfl

/-- WRPARAM of an index that names no register (R70). -/
theorem exec_wrparam_of_ge {idx : BitVec 8} (h : 12 ≤ idx.toNat) (val : Param) (s : State) :
    exec (.wrparam idx val) s = .next (s.respond .illegal 0 0) := by
  show execWrparam idx val s = _
  unfold execWrparam
  rw [paramIndex_of_ge h]
  rfl

/-- RDPARAM of a register (R71). -/
theorem exec_rdparam_of_lt {idx : BitVec 8} (h : idx.toNat < 12) (s : State) :
    exec (.rdparam idx) s = .next (s.respond .ok (zext64 (s.param ⟨idx.toNat, h⟩).toNat) 0) := by
  show execRdparam idx s = _
  unfold execRdparam
  rw [paramIndex_of_lt h]
  rfl

/-- RDPARAM of an index that names no register (R71). -/
theorem exec_rdparam_of_ge {idx : BitVec 8} (h : 12 ≤ idx.toNat) (s : State) :
    exec (.rdparam idx) s = .next (s.respond .illegal 0 0) := by
  show execRdparam idx s = _
  unfold execRdparam
  rw [paramIndex_of_ge h]
  rfl

/-- A write of P[0..8] does nothing beside the write (R24). -/
theorem State.applyParam_low (s : State) {i : Fin 12} (val : Param) (h : i.val < 9) : s.applyParam i val = s := by
  unfold State.applyParam
  split <;> first | omega | rfl

end Sys2Proof.Machine
end

