-- ==== Sys2Proof/Laws/PerInstr.lean ====
section
/-! SUPPORT. Statements for all instructions, one lemma per constructor. `EncodeFields`: the encoder puts the row's opcode
into OPC and leaves every field and operand word that the row does not read at 0 (30_encoding.md R60, R63). -/

namespace Sys2Proof.Laws.EncodeFields

/-- The opcode of a row (R60). -/
def opcode : Instr → BitVec 8
  | .nop => 0x00
  | .setrate _ => 0x01
  | .rdrate => 0x02
  | .wrparam _ _ => 0x03
  | .rdparam _ => 0x04
  | .rdstatus => 0x05
  | .bufclr _ => 0x10
  | .bufwr _ _ _ => 0x11
  | .bufapp _ _ => 0x12
  | .bufapq _ _ => 0x13
  | .bufrd _ _ => 0x14
  | .buflen _ => 0x15
  | .trig _ => 0x20
  | .stop _ => 0x21
  | .vstep _ => 0x22
  | .vstat _ => 0x23
  | .vrd _ _ => 0x24
  | .pitch _ => 0x25
  | .frame => 0x30
  | .filt _ _ => 0x31
  | .fset _ _ _ => 0x32
  | .frd _ => 0x33
  | .fmode _ => 0x34
  | .cuthz _ => 0x35
  | .quant _ => 0x40
  | .srrp _ => 0x41

/-- The encoding of i has i's opcode, and 0 in every bit and operand word i's row does not read. -/
def Statement (i : Instr) : Prop :=
  opcField (encode i).cmd = opcode i ∧ (encode i).cmd &&& ~~~ i.readMask = 0 ∧
    (i.readsD0 = false → (encode i).d0 = 0) ∧ (i.readsD1 = false → (encode i).d1 = 0)

/-- A command word under a mask, part by part. -/
theorem cmdWord_and (a b x y : BitVec 8) (c z : BitVec 16) :
    cmdWord a b c &&& cmdWord x y z = cmdWord (a &&& x) (b &&& y) (c &&& z) :=
  (BitVec.and_append (x₁ := a ++ b) (x₂ := x ++ y) (y₁ := c) (y₂ := z)).trans
    (congrArg (· ++ (c &&& z)) (BitVec.and_append (x₁ := a) (x₂ := x) (y₁ := b) (y₂ := y)))

/-- A half word of two parts under a mask of two parts is 0 when both parts are. -/
theorem low_and {a b : Nat} (h : a + b = 16) {x m : BitVec a} {y n : BitVec b} (h1 : x &&& m = 0) (h2 : y &&& n = 0) :
    ((x ++ y).cast h) &&& ((m ++ n).cast h) = 0#16 := by
  apply BitVec.eq_of_getLsbD_eq
  intro i hi
  have e1 : ∀ j, (x.getLsbD j && m.getLsbD j) = false := by
    intro j
    have := congrArg (fun z => z.getLsbD j) h1
    simpa using this
  have e2 : ∀ j, (y.getLsbD j && n.getLsbD j) = false := by
    intro j
    have := congrArg (fun z => z.getLsbD j) h2
    simpa using this
  rw [BitVec.getLsbD_and, BitVec.getLsbD_cast, BitVec.getLsbD_cast, BitVec.getLsbD_append, BitVec.getLsbD_append]
  by_cases hb : i < b
  · rw [if_pos hb, if_pos hb, e2]
    simp
  · rw [if_neg hb, if_neg hb, e1]
    simp

/-- The low half of a word with only a CODE. -/
theorem code_and (code : BitVec 12) : (0#4 ++ code : BitVec 16) &&& 0xF000#16 = 0 :=
  low_and (x := 0#4) (m := 0xF#4) (y := code) (n := 0#12) rfl (by decide) (by simp)

/-- The low half of a word with only a SEL. -/
theorem sel_and (sel : BitVec 8) : (0#8 ++ sel : BitVec 16) &&& 0xFF00#16 = 0 :=
  low_and (x := 0#8) (m := 0xFF#8) (y := sel) (n := 0#8) rfl (by decide) (by simp)

/-- The low half of a word with only a VAL. -/
theorem val_and (val : Param) : (0#9 ++ val : BitVec 16) &&& 0xFF80#16 = 0 :=
  low_and (x := 0#9) (m := 0x1FF#9) (y := val) (n := 0#7) rfl (by decide) (by simp)

/-- The low half of a word with only an IDX. -/
theorem idx_and (idx : BitVec 8) : (idx ++ 0#8 : BitVec 16) &&& 0x00FF#16 = 0 :=
  low_and (x := idx) (m := 0#8) (y := 0#8) (n := 0xFF#8) rfl (by simp) (by decide)

/-- A value below bit 7 leaves bit 7 at 0. -/
theorem bit7_and : ∀ val : Param, (0#1 ++ val : BitVec 8) &&& 0x80#8 = 0 := by decide

/-- The low half of a word with an IDX and a VAL. -/
theorem idxval_and (idx : BitVec 8) (val : Param) : (idx ++ (0#1 ++ val) : BitVec 16) &&& 0x0080#16 = 0 :=
  low_and (x := idx) (m := 0#8) (y := 0#1 ++ val) (n := 0x80#8) rfl (by simp) (bit7_and val)

/-- The statement from its parts. -/
theorem of_parts {i : Instr} {opc ch : BitVec 8} {low : BitVec 16} (m2 : BitVec 8) (m3 : BitVec 16)
    (hc : (encode i).cmd = cmdWord opc ch low) (ho : opc = opcode i) (hm : ~~~ i.readMask = cmdWord 0 m2 m3)
    (h2 : ch &&& m2 = 0) (h3 : low &&& m3 = 0)
    (hd0 : i.readsD0 = false → (encode i).d0 = 0) (hd1 : i.readsD1 = false → (encode i).d1 = 0) : Statement i := by
  refine ⟨?_, ?_, hd0, hd1⟩
  · rw [hc, opcField_cmdWord, ho]
  · rw [hc, hm, cmdWord_and, h2, h3]
    simp [cmdWord]

theorem nop : Statement .nop :=
  of_parts 0xFF 0xFFFF rfl rfl (by simp only [Instr.readMask]; decide) (by decide) (by decide) (fun _ => rfl) (fun _ => rfl)

theorem setrate (d0 : Word) : Statement (.setrate d0) :=
  of_parts 0xFF 0xFFFF rfl rfl (by simp only [Instr.readMask]; decide) (by decide) (by decide) (fun h => by cases h) (fun _ => rfl)

theorem rdrate : Statement .rdrate :=
  of_parts 0xFF 0xFFFF rfl rfl (by simp only [Instr.readMask]; decide) (by decide) (by decide) (fun _ => rfl) (fun _ => rfl)

theorem wrparam (idx : BitVec 8) (val : Param) : Statement (.wrparam idx val) :=
  of_parts 0xFF 0x0080 rfl rfl (by simp only [Instr.readMask]; decide) (by decide) (idxval_and idx val) (fun _ => rfl) (fun _ => rfl)

theorem rdparam (idx : BitVec 8) : Statement (.rdparam idx) :=
  of_parts 0xFF 0x00FF rfl rfl (by simp only [Instr.readMask]; decide) (by decide) (idx_and idx) (fun _ => rfl) (fun _ => rfl)

theorem rdstatus : Statement .rdstatus :=
  of_parts 0xFF 0xFFFF rfl rfl (by simp only [Instr.readMask]; decide) (by decide) (by decide) (fun _ => rfl) (fun _ => rfl)

theorem bufclr (ch : BitVec 8) : Statement (.bufclr ch) :=
  of_parts 0x00 0xFFFF rfl rfl (by simp only [Instr.readMask]; decide) (by simp) (by decide) (fun _ => rfl) (fun _ => rfl)

theorem bufwr (ch : BitVec 8) (code : BitVec 12) (d0 : Word) : Statement (.bufwr ch code d0) :=
  of_parts 0x00 0xF000 rfl rfl (by simp only [Instr.readMask]; decide) (by simp) (code_and code) (fun h => by cases h) (fun _ => rfl)

theorem bufapp (ch : BitVec 8) (code : BitVec 12) : Statement (.bufapp ch code) :=
  of_parts 0x00 0xF000 rfl rfl (by simp only [Instr.readMask]; decide) (by simp) (code_and code) (fun _ => rfl) (fun _ => rfl)

theorem bufapq (ch : BitVec 8) (d0 : Word) : Statement (.bufapq ch d0) :=
  of_parts 0x00 0xFFFF rfl rfl (by simp only [Instr.readMask]; decide) (by simp) (by decide) (fun h => by cases h) (fun _ => rfl)

theorem bufrd (ch : BitVec 8) (d0 : Word) : Statement (.bufrd ch d0) :=
  of_parts 0x00 0xFFFF rfl rfl (by simp only [Instr.readMask]; decide) (by simp) (by decide) (fun h => by cases h) (fun _ => rfl)

theorem buflen (ch : BitVec 8) : Statement (.buflen ch) :=
  of_parts 0x00 0xFFFF rfl rfl (by simp only [Instr.readMask]; decide) (by simp) (by decide) (fun _ => rfl) (fun _ => rfl)

theorem trig (ch : BitVec 8) : Statement (.trig ch) :=
  of_parts 0x00 0xFFFF rfl rfl (by simp only [Instr.readMask]; decide) (by simp) (by decide) (fun _ => rfl) (fun _ => rfl)

theorem stop (ch : BitVec 8) : Statement (.stop ch) :=
  of_parts 0x00 0xFFFF rfl rfl (by simp only [Instr.readMask]; decide) (by simp) (by decide) (fun _ => rfl) (fun _ => rfl)

theorem vstep (ch : BitVec 8) : Statement (.vstep ch) :=
  of_parts 0x00 0xFFFF rfl rfl (by simp only [Instr.readMask]; decide) (by simp) (by decide) (fun _ => rfl) (fun _ => rfl)

theorem vstat (ch : BitVec 8) : Statement (.vstat ch) :=
  of_parts 0x00 0xFFFF rfl rfl (by simp only [Instr.readMask]; decide) (by simp) (by decide) (fun _ => rfl) (fun _ => rfl)

theorem vrd (ch : BitVec 8) (sel : BitVec 8) : Statement (.vrd ch sel) :=
  of_parts 0x00 0xFF00 rfl rfl (by simp only [Instr.readMask]; decide) (by simp) (sel_and sel) (fun _ => rfl) (fun _ => rfl)

theorem pitch (val : Param) : Statement (.pitch val) :=
  of_parts 0xFF 0xFF80 rfl rfl (by simp only [Instr.readMask]; decide) (by decide) (val_and val) (fun _ => rfl) (fun _ => rfl)

theorem frame : Statement .frame :=
  of_parts 0xFF 0xFFFF rfl rfl (by simp only [Instr.readMask]; decide) (by decide) (by decide) (fun _ => rfl) (fun _ => rfl)

theorem filt (d0 : Word) (d1 : Word) : Statement (.filt d0 d1) :=
  of_parts 0xFF 0xFFFF rfl rfl (by simp only [Instr.readMask]; decide) (by decide) (by decide) (fun h => by cases h) (fun h => by cases h)

theorem fset (val : Param) (d0 : Word) (d1 : Word) : Statement (.fset val d0 d1) :=
  of_parts 0xFF 0xFF80 rfl rfl (by simp only [Instr.readMask]; decide) (by decide) (val_and val) (fun h => by cases h) (fun h => by cases h)

theorem frd (sel : BitVec 8) : Statement (.frd sel) :=
  of_parts 0xFF 0xFF00 rfl rfl (by simp only [Instr.readMask]; decide) (by decide) (sel_and sel) (fun _ => rfl) (fun _ => rfl)

theorem fmode (val : Param) : Statement (.fmode val) :=
  of_parts 0xFF 0xFF80 rfl rfl (by simp only [Instr.readMask]; decide) (by decide) (val_and val) (fun _ => rfl) (fun _ => rfl)

theorem cuthz (val : Param) : Statement (.cuthz val) :=
  of_parts 0xFF 0xFF80 rfl rfl (by simp only [Instr.readMask]; decide) (by decide) (val_and val) (fun _ => rfl) (fun _ => rfl)

theorem quant (d0 : Word) : Statement (.quant d0) :=
  of_parts 0xFF 0xFFFF rfl rfl (by simp only [Instr.readMask]; decide) (by decide) (by decide) (fun h => by cases h) (fun _ => rfl)

theorem srrp (val : Param) : Statement (.srrp val) :=
  of_parts 0xFF 0xFF80 rfl rfl (by simp only [Instr.readMask]; decide) (by decide) (val_and val) (fun _ => rfl) (fun _ => rfl)

end Sys2Proof.Laws.EncodeFields
end

