-- ==== Sys2Proof/Tests/Slice0.lean ====
section
/-! SUPPORT. The model's own tests: ill-formed terms that WellFormed refuses, a word of every constructor written out from
30_encoding.md, one-step examples whose results the spec prints, and, for each statement with hypotheses, a state and
operands that meet them together. -/

-- one proof at a time: each kernel evaluation in a thread of its own asks for more memory than a check allows
set_option Elab.async false

namespace Sys2Proof.Tests

open Sys2Proof.Machine

/-! ## Helpers -/

/-- The next state of an outcome. -/
def resultOf : Host.Outcome State Fault Refusal → Option State
  | .next t => some t
  | .fault _ => none
  | .refused _ => none

/-- The response of an outcome. -/
def responseOf (o : Host.Outcome State Fault Refusal) : Option Response := (resultOf o).map (fun t => t.response)

/-- An outcome with a next state is that next state. -/
theorem next_of_isSome {o : Host.Outcome State Fault Refusal} (h : (resultOf o).isSome = true) : ∃ t, o = .next t := by
  cases o with
  | next t => exact ⟨t, rfl⟩
  | fault f => cases h
  | refused r => cases h

/-- The next state of an outcome and a check of it. -/
theorem next_of_check {o : Host.Outcome State Fault Refusal} (p : State → Bool)
    (h : ((resultOf o).map p) = some true) : ∃ t, o = .next t ∧ p t = true := by
  cases o with
  | next t => exact ⟨t, rfl, Option.some.inj h⟩
  | fault f => cases h
  | refused r => cases h

/-- A step or run of a voice that answers, and a check of the answer. -/
theorem ok_of_check {α : Type} {e : Except Fault α} (p : α → Bool) (h : e.toOption.map p = some true) :
    ∃ a, e = .ok a ∧ p a = true := by
  cases e with
  | ok a => exact ⟨a, rfl, Option.some.inj h⟩
  | error f => cases h

/-- The default parameters but for TRIG at R151's w, where it gives the sine and the cosine named. -/
def otherTrig (sn cs : F64) : Params :=
  { Params.default with trig := [⟨F64.ofBits 0x40069E9565708EFC, sn, cs⟩] }

/-- What a command word with its operand words decodes to. -/
def decodes (cmd : BitVec 32) (d0 d1 : Word) : Option Instr := (decode ⟨cmd, d0, d1⟩).toOption

/-- The two words 8192 and 16384 of the examples of R128 and R133 (codes 512 and 1024), as bytes. -/
def twoWords : Buffer := ⟨2, [(0, 0x00), (1, 0x20), (2, 0x00), (3, 0x40)]⟩

/-- Reset with the two words in buffer 0 and the capacity given. -/
def loaded (cap : Nat) : State :=
  { State.reset.setBuf 0 twoWords with cfg := { Params.default with bufCap := cap } }

/-- The voice of the state with voice 0 triggered from reset parameters: written out, as R126's example has it. -/
def soundingVoice : Voice := { Voice.reset with active := true, env := F64.cOne, decayRate := F64.cOne }

/-- The loaded state with voice 0 sounding. -/
def sounding (cap : Nat) : State := (loaded cap).setVoice 0 soundingVoice

/-- The sounding state with one command presented. -/
def presented (cmd : BitVec 32) : State := { sounding 1920000 with commands := [⟨cmd, 0, 0⟩] }

/-! ## WellFormed refuses what names nothing (R61) -/

theorem test_wf_wrparam_12 : (Instr.wrparam 12 0).wellFormed = false := by decide
theorem test_wf_rdparam_255 : (Instr.rdparam 255).wellFormed = false := by decide
theorem test_wf_vrd_11 : (Instr.vrd 0 11).wellFormed = false := by decide
theorem test_wf_vrd_25 : (Instr.vrd 0 25).wellFormed = false := by decide
theorem test_wf_frd_17 : (Instr.frd 17).wellFormed = false := by decide
theorem test_wf_last_indices : (Instr.wrparam 11 127).wellFormed = true ∧ (Instr.rdparam 11).wellFormed = true ∧
    (Instr.vrd 255 10).wellFormed = true ∧ (Instr.vrd 0 16).wellFormed = true ∧ (Instr.vrd 0 24).wellFormed = true ∧
    (Instr.frd 16).wellFormed = true := by decide

/-! ## A word of every constructor (R54, R60), with ones in the bits its row does not read (R61) -/

theorem test_decode_control :
    decodes 0x00FFFFFF 7 9 = some .nop ∧
    decodes 0x01FFFFFF 0x40E5888000000000 9 = some (.setrate 0x40E5888000000000) ∧
    decodes 0x02FFFFFF 7 9 = some .rdrate ∧
    decodes 0x03FF02CC 7 9 = some (.wrparam 2 76) ∧
    decodes 0x04FF0BFF 7 9 = some (.rdparam 11) ∧
    decodes 0x05FFFFFF 7 9 = some .rdstatus := by decide +kernel

theorem test_decode_buffer :
    decodes 0x1001FFFF 7 9 = some (.bufclr 1) ∧
    decodes 0x1103FE00 5 9 = some (.bufwr 3 0xE00 5) ∧
    decodes 0x1200F7FF 7 9 = some (.bufapp 0 0x7FF) ∧
    decodes 0x1308FFFF 0x3FD0000000000000 9 = some (.bufapq 8 0x3FD0000000000000) ∧
    decodes 0x1403FFFF 6 9 = some (.bufrd 3 6) ∧
    decodes 0x1505FFFF 7 9 = some (.buflen 5) := by decide +kernel

theorem test_decode_voice :
    decodes 0x20C8FFFF 7 9 = some (.trig 200) ∧
    decodes 0x2101FFFF 7 9 = some (.stop 1) ∧
    decodes 0x2202FFFF 7 9 = some (.vstep 2) ∧
    decodes 0x2303FFFF 7 9 = some (.vstat 3) ∧
    decodes 0x2401FF11 7 9 = some (.vrd 1 17) ∧
    decodes 0x25FFFFCC 7 9 = some (.pitch 76) := by decide +kernel

theorem test_decode_filter :
    decodes 0x30FFFFFF 7 9 = some .frame ∧
    decodes 0x31FFFFFF 7 9 = some (.filt 7 9) ∧
    decodes 0x32FFFFD5 7 9 = some (.fset 85 7 9) ∧
    decodes 0x33FFFF10 7 9 = some (.frd 16) ∧
    decodes 0x34FFFFD5 7 9 = some (.fmode 85) ∧
    decodes 0x35FFFFFF 7 9 = some (.cuthz 127) := by decide +kernel

theorem test_decode_lofi :
    decodes 0x40FFFFFF 7 9 = some (.quant 7) ∧ decodes 0x41FFFFFF 7 9 = some (.srrp 127) := by decide +kernel

theorem test_decode_unassigned :
    decodes 0x06000000 0 0 = none ∧ decodes 0x16000000 0 0 = none ∧ decodes 0x26000000 0 0 = none ∧
    decodes 0x36000000 0 0 = none ∧ decodes 0x42000000 0 0 = none ∧ decodes 0xFF000000 0 0 = none := by decide +kernel

/-! ## One-step examples the rules print -/

/-- R67 -/
theorem test_nop : responseOf (exec .nop State.reset) = some ⟨.ok, 0, 0⟩ := by decide +kernel
/-- R68: the example, on a block with a voice playing -/
theorem test_setrate :
    (resultOf (exec (.setrate 0x40E7700000000000) (sounding 1920000))).map
      (fun t => (t.rate.toBits, t.statusWord, t.filter.left, t.response)) =
    some (0x40E7700000000000, 0, Delay.reset, ⟨.ok, 0, 0⟩) := by decide +kernel
/-- R68: subnormal rates are refused -/
theorem test_setrate_subnormal : responseOf (exec (.setrate 1) State.reset) = some ⟨.refused, 0, 0⟩ := by decide +kernel
/-- R69 -/
theorem test_rdrate : responseOf (exec .rdrate State.reset) = some ⟨.ok, 0x40E5888000000000, 0⟩ := by decide +kernel
/-- R70 -/
theorem test_wrparam : (resultOf (exec (.wrparam 2 76) State.reset)).map (fun t => t.params.toList) =
    some [0, 127, 76, 0, 0, 0, 0, 0, 127, 127, 0, 0] := by decide +kernel
/-- R71 -/
theorem test_rdparam : responseOf (exec (.rdparam 1) State.reset) = some ⟨.ok, 127, 0⟩ := by decide +kernel
/-- R72: voice 2 active -/
theorem test_rdstatus :
    responseOf (exec .rdstatus (State.reset.setVoice 2 soundingVoice)) = some ⟨.ok, 0x0404, 0⟩ := by decide +kernel
/-- R74 -/
theorem test_bufclr : (resultOf (exec (.bufclr 0) (loaded 8))).map (fun t => t.lenOf 0) = some 0 := by decide +kernel
/-- R75: the example -/
theorem test_bufwr : (resultOf (exec (.bufwr 3 0xE00 0) State.reset)).map
    (fun t => (t.lenOf 3, (t.buf 3).memRead 0)) = some (1, some 0xE000) := by decide +kernel
/-- R75: the same command with addr=5 -/
theorem test_bufwr_hole : responseOf (exec (.bufwr 3 0xE00 5) State.reset) = some ⟨.refused, 0, 0⟩ := by decide +kernel
/-- R76: the example, and the least code -/
theorem test_bufapp : (resultOf (exec (.bufapp 0 0x7FF) State.reset)).map
    (fun t => (t.lenOf 0, (t.buf 0).memRead 0, t.response)) = some (1, some 0x7FF0, ⟨.ok, 0, 0⟩) := by decide +kernel
/-- R76 -/
theorem test_bufapp_least : (resultOf (exec (.bufapp 0 0x800) (loaded 8))).map
    (fun t => (t.lenOf 0, (t.buf 0).memRead 2, t.response.rsp0)) = some (3, some 0x8000, 2) := by decide +kernel
/-- R77: the example -/
theorem test_bufapq : (resultOf (exec (.bufapq 0 0x3FD0000000000000) State.reset)).map
    (fun t => ((t.buf 0).memRead 0, t.response)) = some (some 8192, ⟨.ok, 0, 512⟩) := by decide +kernel
/-- R77: x = −1.0 stores −2048 -/
theorem test_bufapq_least : (resultOf (exec (.bufapq 0 0xBFF0000000000000) State.reset)).map
    (fun t => ((t.buf 0).memRead 0, t.response.rsp1)) = some (some 0x8000, 0xFFFFFFFFFFFFF800) := by decide +kernel
/-- R78: the example -/
theorem test_bufrd : responseOf (exec (.bufrd 3 0) (State.reset.setBuf 3 ⟨1, [(0, 0x00), (1, 0xE0)]⟩)) =
    some ⟨.ok, 0xE000, 0xFFFFFFFFFFFFFE00⟩ := by decide +kernel
/-- R79: the example -/
theorem test_buflen : responseOf (exec (.buflen 5) State.reset) = some ⟨.ok, 0, 441000⟩ := by decide +kernel
/-- R126: the example -/
theorem test_trig : (resultOf (exec (.trig 0) (loaded 1920000))).map (fun t => t.voice 0) = some soundingVoice := by
  decide +kernel
/-- R126: a channel value of 8 or more triggers voice 7 -/
theorem test_trig_alias : (resultOf (exec (.trig 200) State.reset)).map (fun t => t.statusWord) = some 0x8080 := by
  decide +kernel
/-- R127: the example -/
theorem test_stop : (resultOf (exec (.stop 0) (sounding 8))).map (fun t => (t.voice 0).playing) = some false := by
  decide +kernel
/-- R128: the example -/
theorem test_vstep : (resultOf (exec (.vstep 0) (sounding 1920000))).map
    (fun t => (t.response, (t.voice 0).pos.toBits, (t.voice 0).active)) =
    some (⟨.ok, 0x3FD0000000000000, 0⟩, 0x3FF0000000000000, false) := by decide +kernel
/-- R129: the example -/
theorem test_vstat : responseOf (exec (.vstat 0) (sounding 8)) = some ⟨.ok, 3, 0⟩ := by decide +kernel
/-- R130: the selectors 10 and 17 at reset, and one that names nothing -/
theorem test_vrd : responseOf (exec (.vrd 0 10) State.reset) = some ⟨.ok, 0x3FF0000000000000, 0⟩ ∧
    responseOf (exec (.vrd 0 17) State.reset) = some ⟨.ok, 127, 0⟩ ∧
    responseOf (exec (.vrd 0 11) State.reset) = some ⟨.illegal, 0, 0⟩ := by decide +kernel
/-- R131: the example -/
theorem test_pitch : responseOf (exec (.pitch 76) State.reset) = some ⟨.ok, 0x4000000000000000, 0⟩ := by decide +kernel
/-- R133: the example -/
theorem test_frame : responseOf (exec .frame (sounding 1920000)) =
    some ⟨.ok, 0x3FC7D8FBD79F1152, 0x3FC7D8FBD79F1152⟩ := by decide +kernel
/-- R105 with no clamp (log entry 11): A1 of R151 times the largest finite Y1L overflows -/
theorem test_frame_overflow : responseOf (exec .frame (State.reset.setFilter { State.reset.filter with
    left := { Delay.reset with y1 := F64.ofBits 0x7FEFFFFFFFFFFFFF } })) =
    some ⟨.ok, 0xFFF0000000000000, 0⟩ := by decide +kernel
/-- R108: the example -/
theorem test_filt : responseOf (exec (.filt 0x3FF0000000000000 0) State.reset) =
    some ⟨.ok, 0x3FE7D8FBD79F1152, 0⟩ := by decide +kernel
/-- R109: the example -/
theorem test_fset_nan : (resultOf (exec (.fset 0 0x7FF8000000000000 0) State.reset)).map
    (fun t => (t.response, t.filter.coeffs)) = some (⟨.ok, 1, 0⟩, Coeffs.fallbackSet) := by decide +kernel
/-- R109: fcReq = 10.0 at 44100.0 is clamped and does not fall back -/
theorem test_fset_low : responseOf (exec (.fset 0 0x4024000000000000 0) State.reset) = some ⟨.ok, 0, 0⟩ := by
  decide +kernel
/-- R110: the example -/
theorem test_frd : responseOf (exec (.frd 6) State.reset) = some ⟨.ok, 0x40D3880000000000, 0⟩ := by decide +kernel
/-- R111: the four boundaries -/
theorem test_fmode : [42, 43, 84, 85].map (fun v => responseOf (exec (.fmode v) State.reset)) =
    [some ⟨.ok, 0, 0⟩, some ⟨.ok, 1, 0⟩, some ⟨.ok, 1, 0⟩, some ⟨.ok, 2, 0⟩] := by decide +kernel
/-- R112: the example -/
theorem test_cuthz : responseOf (exec (.cuthz 0) State.reset) = some ⟨.ok, 0x4034000000000000, 0⟩ := by decide +kernel
/-- R93: the examples -/
theorem test_quant : responseOf (exec (.quant 0x3FE0000000000000) State.reset) = some ⟨.ok, 0x3FE0000000000000, 0⟩ ∧
    responseOf (exec (.quant 0x3FF0000000000000) State.reset) = some ⟨.ok, 0x3FEFFC0000000000, 0⟩ := by decide +kernel
/-- R94: the example and the amount 0 -/
theorem test_srrp : responseOf (exec (.srrp 127) State.reset) = some ⟨.ok, 64, 0⟩ ∧
    responseOf (exec (.srrp 0) State.reset) = some ⟨.ok, 0, 0⟩ := by decide +kernel

/-- R81: the position of the example, LEN = 1000 and START = 64 -/
theorem test_start_position :
    ((normParam 64).mul (F64.ofInt 1000)).toBits = 0x407F7EFDFBF7EFE0 := by decide +kernel
/-- R82: the example -/
theorem test_interpolate : ((({ soundingVoice with pos := F64.cHalf } : Voice).readInterpolated
    ⟨2, [(0, 0x00), (1, 0x00), (2, 0x00), (3, 0x40)]⟩ 0 F64.cOne).toOption.map
      (fun p => (p.1.toBits, p.2.pos.toBits))) = some (0x3FD0000000000000, 0x3FF8000000000000) := by decide +kernel
/-- R91: the example, amount 5 -/
theorem test_reduce : (Voice.reset.reduce 5 [F64.cOne, F64.cTwo, F64.cFour, F64.cTen]) =
    [F64.cOne, F64.cOne, F64.cOne, F64.cTen] := by decide +kernel
/-- R83: the example, and that the quantizer stands before the reducer: 0.3 leaves as 614/2048 with the reducer off -/
theorem test_lofi_order : ((({ soundingVoice with pos := F64.cZero } : Voice).readWithLoFi twoWords 0 F64.cOne 0).toOption.map
      (fun p => p.1.toBits)) = some 0x3FD0000000000000 ∧
    (({ soundingVoice with pos := F64.ofBits 0x3FC999999999999A } : Voice).readWithLoFi twoWords 0 F64.cOne 0).toOption.map
      (fun p => p.1.toBits) = some 0x3FD3300000000000 := by decide +kernel
/-- R151, R100 by hand: with sine 0.0 and cosine 1.0 at w, (1 - 1) / 2 = 0, alpha = 0, a1 = -2, a2 = 1 -/
theorem test_reset_with_trig : (State.resetWith (otherTrig F64.cZero F64.cOne)).filter.coeffs =
      ⟨F64.cZero, F64.cZero, F64.cZero, F64.cNegTwo, F64.cOne⟩ ∧
    (State.resetWith (otherTrig F64.cZero F64.cOne)).filter.fallback = false := by decide +kernel
/-- R151, R102: an infinite sine leaves no finite set, so reset installs the fallback set -/
theorem test_reset_with_trig_fallback :
    (State.resetWith (otherTrig (.inf false) F64.cOne)).filter.coeffs = Coeffs.fallbackSet ∧
    (State.resetWith (otherTrig (.inf false) F64.cOne)).filter.fallback = true := by decide +kernel
/-- withFetchWord presents the command next -/
theorem test_fetch : responseOf (step (State.reset.withFetchWord 32 0x2500004C)) =
    some ⟨.ok, 0x4000000000000000, 0⟩ := by decide +kernel

/-! ## A sound state with a loaded buffer and a sounding voice -/

/-- A reset voice is sound under any parameters that admit the rate 1.0. -/
theorem witness_reset_voice : voiceOk Params.default Voice.reset := by
  refine ⟨⟨⟨by decide, by decide +kernel⟩, ⟨by decide +kernel, by decide +kernel⟩, .inl rfl, by decide, 0, ?_⟩, ?_⟩
  · decide +kernel
  · exact ⟨by decide +kernel, by decide +kernel, .inr rfl, fun h => absurd rfl h⟩

/-- The sounding voice is sound. -/
theorem witness_sounding_voice : voiceOk Params.default soundingVoice := by
  refine ⟨⟨⟨by decide, by decide +kernel⟩, ⟨by decide +kernel, by decide +kernel⟩,
    .inr ⟨by decide +kernel, by decide +kernel⟩, by decide, 0, ?_⟩, ?_⟩
  · decide +kernel
  · exact ⟨by decide +kernel, by decide +kernel, .inr rfl, fun h => absurd rfl h⟩

/-- The loaded buffer is sound under a bound of at least 2. -/
theorem witness_loaded_buffer (cap bound : Nat) (h1 : 2 ≤ cap) (h2 : 2 ≤ bound) :
    bufferOk { Params.default with bufCap := cap } bound twoWords := by
  refine ⟨h2, by decide, ?_, ?_⟩
  · intro cell hc
    have : cell.1 < 4 := by
      revert cell
      decide
    show cell.1 < 2 * cap
    omega
  · intro a ha
    have : ∀ a < 2, ∃ w, twoWords.memRead a = some w ∧ w.extractLsb' 0 4 = 0#4 := by
      intro a ha
      interval_cases a
      · exact ⟨0x2000, by decide, by decide⟩
      · exact ⟨0x4000, by decide, by decide⟩
    exact this a ha

/-- The sounding state is sound, at the capacity 2, which its buffer fills, and at the default. -/
theorem witness_sounding (cap : Nat) (h : cap = 2 ∨ cap = 1920000) : (sounding cap).Inv := by
  have hb : ∀ c, (sounding cap).buf c = if c = 0 then twoWords else Buffer.reset := by
    intro c
    fin_cases c <;> rfl
  have hv : ∀ c, (sounding cap).voice c = if c = 0 then soundingVoice else Voice.reset := by
    intro c
    fin_cases c <;> rfl
  have hp : (sounding cap).cfg = { Params.default with bufCap := cap } := rfl
  have hlen : 2 ≤ (sounding cap).maxLen := by
    rcases h with rfl | rfl <;> decide +kernel
  refine ⟨?_, ?_, ?_, ?_, ?_⟩
  · rw [hp]
    refine ⟨by rcases h with rfl | rfl <;> decide, by rcases h with rfl | rfl <;> decide, rfl, ?_, ?_⟩
    · exact (by decide +kernel : F64.cOne.le Params.default.srMax = true)
    · exact (by decide +kernel : (Params.default.srMax.mul F64.cTwo).lt (F64.ofInt 4294967296) = true)
  · exact (by decide +kernel : rateOk Params.default State.reset.rate = true)
  · intro c
    rw [hb c, hp]
    by_cases hc : c = 0
    · rw [if_pos hc]
      exact witness_loaded_buffer cap _ (by rcases h with rfl | rfl <;> decide) hlen
    · rw [if_neg hc]
      refine ⟨Nat.zero_le _, by decide, ?_, ?_⟩
      · intro cell hcell
        cases hcell
      · intro a ha
        exact absurd ha (Nat.not_lt_zero a)
  · intro c
    rw [hv c]
    by_cases hc : c = 0
    · rw [if_pos hc]
      exact witness_sounding_voice
    · rw [if_neg hc]
      exact witness_reset_voice
  · exact (by decide +kernel : coeffsFor Params.default State.reset.rate State.reset.filter.fcReq
      State.reset.filter.res State.reset.filter.mode = (State.reset.filter.coeffs, State.reset.filter.fallback))

/-- A sound buffer put in place of another leaves a sound state. -/
theorem inv_setBuf {s : State} (h : s.Inv) (c : Channel) {b : Buffer} (hb : bufferOk s.cfg s.maxLen b) :
    (s.setBuf c b).Inv := by
  refine ⟨h.cfgValid, h.rateValid, fun d => ?_, h.voices, h.coeffs⟩
  by_cases e : c = d
  · rw [← e, State.buf_setBuf_self]; exact hb
  · rw [State.buf_setBuf_ne s b e]; exact h.bufs d

/-- The invariant does not look at the commands presented. -/
theorem witness_presented (cmd : BitVec 32) : (presented cmd).Inv :=
  have h := witness_sounding 1920000 (.inr rfl)
  ⟨h.cfgValid, h.rateValid, h.bufs, h.voices, h.coeffs⟩

/-! ## What the hypotheses of the statements ask for -/

/-- ReservedAndIgnoredEncodings: an unassigned opcode presented; the first index and selectors that name nothing; two
commands that agree on what the row reads and differ elsewhere. -/
theorem witness_reserved :
    (presented 0x06000000).commands = ⟨0x06000000, 0, 0⟩ :: [] ∧ opcField 0x06000000 ∉ assignedOpcodes ∧
    12 ≤ (12 : BitVec 8).toNat ∧ 11 ≤ (11 : BitVec 8).toNat ∧ (15 : BitVec 8).toNat ≤ 15 ∧
    25 ≤ (25 : BitVec 8).toNat ∧ 17 ≤ (17 : BitVec 8).toNat ∧
    (decode ⟨0x20030000, 0, 0⟩).toOption = some (.trig 3) ∧
    0x2003FFFF#32 &&& (Instr.trig 3).readMask = 0x20030000#32 &&& (Instr.trig 3).readMask ∧
    (Instr.trig 3).readsD0 = false ∧ (Instr.trig 3).readsD1 = false ∧ (Instr.quant 5).readsD0 = true ∧
    (Instr.filt 5 6).readsD1 = true := by decide +kernel

/-- StepRunsDecodedCommand: a command presented that decodes, and no command presented. -/
theorem witness_step : (presented 0x22000000).commands = ⟨0x22000000, 0, 0⟩ :: [] ∧
    decode ⟨0x22000000, 0, 0⟩ = .ok (.vstep 0) ∧ State.reset.commands = [] := ⟨rfl, rfl, rfl⟩

/-- StepKeepsInvariant, StepAlwaysAnswers, CoefficientsStayCurrent: a sound state whose step runs FRAME. -/
theorem witness_sound_step : (presented 0x30000000).Inv ∧ (presented 0x30000000).coeffsCurrent ∧
    ∃ t, step (presented 0x30000000) = .next t :=
  ⟨witness_presented _, (witness_presented _).coeffs, next_of_isSome (by decide +kernel)⟩

/-- FailedCommandChangesNothing, StatusCauses: a sound state whose step ends ILLEGAL, and one whose step ends REFUSED. -/
theorem witness_failed :
    (presented 0xFF000000).Inv ∧
    (∃ t, step (presented 0xFF000000) = .next t ∧ decide (t.response.status = .illegal) = true) ∧
    (∃ t, step (presented 0x33000011) = .next t ∧ decide (t.response.status = .illegal) = true) ∧
    (∃ t, step (presented 0x01000000) = .next t ∧ decide (t.response.status = .refused) = true) ∧
    (presented 0x01000000).commands = ⟨0x01000000, 0, 0⟩ :: [] :=
  ⟨witness_presented _, next_of_check _ (by decide +kernel), next_of_check _ (by decide +kernel),
    next_of_check _ (by decide +kernel), rfl⟩

/-- RateWrittenOnlyBySetrate: a command that changes RATE. -/
theorem witness_rate_changes : ∃ t, exec (.setrate 0x40E7700000000000) State.reset = .next t ∧
    decide (t.rate ≠ State.reset.rate) = true := next_of_check _ (by decide +kernel)

/-- VoiceAndParameterWriters: commands that change a parameter, a snapshot and a record. -/
theorem witness_voice_writers :
    (∃ t, exec (.wrparam 2 76) State.reset = .next t ∧ decide (t.params ≠ State.reset.params) = true) ∧
    (∃ t, exec (.trig 3) (State.reset.setParam 2 76) = .next t ∧
      (decide ((t.voice 3).snap ≠ ((State.reset.setParam 2 76).voice 3).snap) &&
        decide (t.voice 3 ≠ (State.reset.setParam 2 76).voice 3)) = true) :=
  ⟨next_of_check _ (by decide +kernel), next_of_check _ (by decide +kernel)⟩

/-- MemoryWriters: a command that changes a byte and a length. -/
theorem witness_memory_writers : ∃ t, exec (.bufapp 0 7) State.reset = .next t ∧
    (decide (t.byteAt 0 0 ≠ State.reset.byteAt 0 0) && decide (t.lenOf 0 ≠ State.reset.lenOf 0)) = true :=
  next_of_check _ (by decide +kernel)

/-- ReadsChangeNothing: a read that answers. -/
theorem witness_read : onlyReads (.bufrd 0 1) = true ∧ ∃ t, exec (.bufrd 0 1) (sounding 8) = .next t :=
  ⟨rfl, next_of_isSome (by decide +kernel)⟩

/-- NopRdrateRdparamResults, WrparamResult: an opcode, and the indices where the clauses meet. -/
theorem witness_indices : opcField 0x00FFFFFF = 0x00 ∧ opcField 0x02FFFFFF = 0x02 ∧ opcField 0x04FFFFFF = 0x04 ∧ (8 : BitVec 8).toNat < 9 ∧ 9 ≤ (9 : BitVec 8).toNat ∧
    (11 : BitVec 8).toNat < 12 ∧ 12 ≤ (12 : BitVec 8).toNat := by decide

/-- SetrateResult: the rates 1.0 and 192000.0 are in range; a NaN, 0.5 and the value above 192000.0 are not. -/
theorem witness_rates : paramsValid State.reset.cfg ∧
    (F64.ofBits 0x3FF0000000000000).isFinite = true ∧
    (F64.ofBits 0x3FF0000000000000).le (F64.ofBits 0x3FF0000000000000) = true ∧
    (F64.ofBits 0x3FF0000000000000).le State.reset.cfg.srMax = true ∧
    (F64.ofBits 0x4107700000000000).le State.reset.cfg.srMax = true ∧
    (F64.ofBits 0x7FF8000000000000).isFinite = false ∧
    (F64.ofBits 0x3FE0000000000000).lt (F64.ofBits 0x3FF0000000000000) = true ∧
    State.reset.cfg.srMax.lt (F64.ofBits 0x4107700000000001) = true :=
  ⟨(witness_sounding 1920000 (.inr rfl)).cfgValid, by decide +kernel, by decide +kernel, by decide +kernel,
    by decide +kernel, by decide +kernel, by decide +kernel, by decide +kernel⟩

/-- BufclrResult, BufwrResult, BufappResult, BufapqResult, BufrdResult, BuflenResult: sound states whose buffer 0 has
room (an index below LEN, LEN itself, one above) and is full. -/
theorem witness_buffers : (sounding 1920000).Inv ∧ (sounding 2).Inv ∧
    (1 : Word).toNat < (sounding 1920000).lenOf (chan 0) ∧
    (2 : Word).toNat = (sounding 1920000).lenOf (chan 0) ∧
    (sounding 1920000).lenOf (chan 0) < (sounding 1920000).maxLen ∧
    (sounding 1920000).lenOf (chan 0) < (3 : Word).toNat ∧
    (2 : Word).toNat = (sounding 2).lenOf (chan 0) ∧ (sounding 2).lenOf (chan 0) = (sounding 2).maxLen ∧
    F64.cZero.le ((sounding 2).voice (chan 0)).pos = true :=
  ⟨witness_sounding _ (.inr rfl), witness_sounding _ (.inl rfl), by decide +kernel, by decide +kernel,
    by decide +kernel, by decide +kernel, by decide +kernel, by decide +kernel, by decide +kernel⟩

/-- QuantizerValue, QuantizerLaws: a finite value in both ranges, one in the wider only, a NaN, and a word. -/
theorem witness_quantizer : (F64.ofBits 0x3FD3333333333333).isFinite = true ∧
    -(2 ^ 1074) ≤ (F64.ofBits 0x3FD3333333333333).units ∧
    (F64.ofBits 0x3FD3333333333333).units ≤ 2047 * 2 ^ 1063 ∧
    -(2 ^ 1074) ≤ F64.cOne.units ∧ F64.cOne.units ≤ 2 ^ 1074 ∧ (F64.nan false 0).isNaN = true ∧
    (0x7FF0 : SampleWord).extractLsb' 0 4 = 0#4 := by decide +kernel

/-- ReducerHoldsInputs, SrrpAndFmodeResults: an amount, a voice with its counter at 0, an index in the row of inputs, and
the ends of the range of periods. -/
theorem witness_reducer : (127 : Param) ≠ 0 ∧ Voice.reset.srrCnt = 0 ∧ 1 < [F64.cOne, F64.cTwo].length ∧
    2 ≤ 2 ∧ 63 ≤ 63 := by decide

/-- CutoffClamp: 44100.0 with a NaN, a low, an inner, and a high request; 30.0, whose upper limit is below 20. -/
theorem witness_clamp : State.reset.rate.isFinite = true ∧
    (F64.cFcMaxFrac.mul State.reset.rate).isFinite = true ∧
    F64.cTwenty.le (F64.cFcMaxFrac.mul State.reset.rate) = true ∧
    (F64.nan false 0).isNaN = true ∧ (F64.ofBits 0x4024000000000000).lt F64.cTwenty = true ∧
    F64.cTwenty.le (F64.ofBits 0x408F400000000000) = true ∧
    (F64.ofBits 0x408F400000000000).le (F64.cFcMaxFrac.mul State.reset.rate) = true ∧
    (F64.cFcMaxFrac.mul State.reset.rate).lt (F64.ofBits 0x40DD4C0000000000) = true ∧
    (F64.cFcMaxFrac.mul (F64.ofInt 30)).lt F64.cTwenty = true ∧
    (F64.cFcMaxFrac.mul (F64.ofInt 30)).isFinite = true ∧ F64.cTwo.isNaN = false := by decide +kernel

/-- DeriveFormulas: values that meet the five equations. -/
theorem witness_derive (p : Params) (fs fc q : F64) : ∃ w sn cs alpha dv : F64,
    w = ((F64.cTwo.mul (F64.ofBits 0x400921FB54442D18)).mul fc).div fs ∧ sn = sinT p w ∧ cs = cosT p w ∧
    alpha = sn.div (F64.cTwo.mul q) ∧ dv = F64.cOne.div (F64.cOne.add alpha) :=
  ⟨_, _, _, _, _, rfl, rfl, rfl, rfl, rfl⟩

/-- FilterRecompute: the reset filter passes every test. -/
theorem witness_recompute_derived :
    deriveFails State.reset.rate (clampCutoff State.reset.rate State.reset.filter.fcReq)
      (qOf State.reset.filter.res) = false ∧
    (derive State.reset.cfg State.reset.rate (clampCutoff State.reset.rate State.reset.filter.fcReq)
      (qOf State.reset.filter.res) State.reset.filter.mode).allFinite = true := by decide +kernel

/-- FilterRecompute: a derived coefficient that is not finite, every test before the derivation passed. -/
theorem witness_recompute_not_finite :
    deriveFails State.reset.rate (clampCutoff State.reset.rate State.reset.filter.fcReq)
      (qOf State.reset.filter.res) = false ∧
    (derive (otherTrig (.inf false) F64.cOne) State.reset.rate (clampCutoff State.reset.rate State.reset.filter.fcReq)
      (qOf State.reset.filter.res) State.reset.filter.mode).a2.isFinite = false := by decide +kernel

/-- ResetCoefficients, ResetMeetsInvariant: valid parameters with another TRIG that accept the reset RATE, whose derived
coefficients are finite, and others where they are not. -/
theorem witness_reset_other_trig :
    paramsValid (otherTrig F64.cZero F64.cOne) ∧
    (F64.ofBits 0x40E5888000000000).le (otherTrig F64.cZero F64.cOne).srMax = true ∧
    (derive (otherTrig F64.cZero F64.cOne) (F64.ofBits 0x40E5888000000000) (F64.ofBits 0x40D3614000000000)
      (F64.ofBits 0x3FE0000000000000) .lowPass).allFinite = true ∧
    (derive (otherTrig (.inf false) F64.cOne) (F64.ofBits 0x40E5888000000000) (F64.ofBits 0x40D3614000000000)
      (F64.ofBits 0x3FE0000000000000) .lowPass).allFinite = false :=
  ⟨(witness_sounding 1920000 (.inr rfl)).cfgValid, by decide +kernel, by decide +kernel, by decide +kernel⟩

/-- FilterRecompute: a request of NaN fails a test. -/
theorem witness_recompute_fallback :
    (clampCutoff State.reset.rate (F64.nan false 0)).isFinite = false := by decide +kernel

/-- FsetResult: an FSET that answers, and operands of each failing kind. -/
theorem witness_fset : (∃ t, exec (.fset 0 0x7FF8000000000000 0) State.reset = .next t) ∧
    (F64.ofBits 0x7FF8000000000000).isNaN = true ∧ (F64.ofBits 0x7FF0000000000000).isFinite = false ∧
    (F64.ofBits 0xBFA999999999999A).le (F64.ofBits 0xBFA999999999999A) = true :=
  ⟨⟨_, rfl⟩, by decide +kernel, by decide +kernel, by decide +kernel⟩

/-- RegisterInputsPassFailureTests, TriggerTimeBounds: parameters and an accepted rate, 44100.0, above 31.75. -/
theorem witness_accepted_rate : paramsValid Params.default ∧ rateOk Params.default State.reset.rate = true ∧
    (F64.ofBits 0x403FC00000000000).le State.reset.rate = true ∧ (1 : Param) ≠ 0 :=
  ⟨witness_rates.1, by decide +kernel, by decide +kernel, by decide⟩

/-- FilterWriters: FSET, a filter parameter, a performed SETRATE, and a command of none of these. -/
theorem witness_filter_writers :
    (∃ t, exec (.fset 0 0 0) State.reset = .next t) ∧ 9 ≤ (9 : BitVec 8).toNat ∧ (11 : BitVec 8).toNat < 12 ∧
    (∃ t, exec (.setrate 0x40E7700000000000) State.reset = .next t ∧ decide (t.response.status = .ok) = true) ∧
    (∃ t, exec (.bufclr 0) State.reset = .next t) :=
  ⟨⟨_, rfl⟩, by decide, by decide, next_of_check _ (by decide +kernel), ⟨_, rfl⟩⟩

/-- PoisonedDelayStays: a state whose left and right output states are not finite, and FRAME on it. -/
theorem witness_poisoned :
    (F64.ofBits 0x7FF0000000000000).isFinite = false ∧
    ∃ s : State, s.filter.left.y1.isFinite = false ∧ s.filter.right.y1.isFinite = false ∧
      ∃ t, exec .frame s = .next t :=
  ⟨by decide +kernel,
    State.reset.setFilter { State.reset.filter with
      left := { Delay.reset with y1 := .inf false }, right := { Delay.reset with y1 := .inf true } },
    rfl, rfl, next_of_isSome (by decide +kernel)⟩

/-- A voice with two retriggers left at the interval 2. -/
def armedVoice : Voice := { soundingVoice with rtrgRem := 2, rtrgInt := 2 }

/-- RetriggerEveryNthStep: three steps of the armed voice, and a voice at its restart. -/
theorem witness_retrigger : armedVoice.rtrgCnt = 0 ∧
    (∃ p : List F64 × Voice, Voice.run State.reset.rate twoWords 0 3 armedVoice = .ok p ∧ (p.2.rtrgRem == 1) = true) ∧
    0 < ({ armedVoice with rtrgCnt := 1 } : Voice).rtrgRem.toNat ∧
    ({ armedVoice with rtrgCnt := 1 } : Voice).rtrgInt.toNat ≤
      ({ armedVoice with rtrgCnt := 1 } : Voice).rtrgCnt.toNat + 1 :=
  ⟨rfl, ok_of_check (fun p : List F64 × Voice => p.2.rtrgRem == 1) (by decide +kernel), by decide, by decide⟩

/-- A voice that holds for one step and then decays slowly. -/
def holdingVoice : Voice := { soundingVoice with holdRem := 1, decayRate := F64.ofBits 0x3F50000000000000 }

/-- EnvelopeTiming: one step of the holding voice leaves it active and unfinished, and it steps again. -/
theorem witness_envelope : holdingVoice.active = true ∧ holdingVoice.rtrgRem = 0 ∧
    (∃ p : List F64 × Voice, Voice.run State.reset.rate twoWords 0 1 holdingVoice = .ok p ∧
      (p.2.active && !(p.2.engineFinished twoWords p.2.endFrac) &&
        (p.2.process State.reset.rate twoWords 0).toOption.isSome) = true) :=
  ⟨rfl, rfl, ok_of_check (fun p : List F64 × Voice => p.2.active && !(p.2.engineFinished twoWords p.2.endFrac) &&
    (p.2.process State.reset.rate twoWords 0).toOption.isSome) (by decide +kernel)⟩

/-- FinishedVoiceEnds: a position, fractions, and a finished active voice. -/
theorem witness_finished : F64.cZero.le soundingVoice.pos = true ∧ Buffer.reset.len = 0 ∧
    F64.cZero.le F64.cHalf = true ∧ F64.cHalf.le F64.cOne = true ∧ F64.cOne.le F64.cOne = true ∧
    (soundingVoice.stepRetrigger State.reset.rate Buffer.reset).active = true ∧
    (soundingVoice.stepRetrigger State.reset.rate Buffer.reset).engineFinished Buffer.reset
      (soundingVoice.stepRetrigger State.reset.rate Buffer.reset).endFrac = true := by decide +kernel

/-- PositionLaw, VstepResult, VoiceOutputBound: a sound state and a step of its voice 0. -/
theorem witness_position : (sounding 1920000).Inv ∧ (∃ t, exec (.vstep 0) (sounding 1920000) = .next t) ∧
    ∃ p, ((sounding 1920000).voice 0).process (sounding 1920000).rate ((sounding 1920000).buf 0) 0 = .ok p ∧
      true = true :=
  ⟨witness_sounding _ (.inr rfl), next_of_isSome (by decide +kernel), ok_of_check (fun _ => true) (by decide +kernel)⟩

/-- VstepResult: the sounding voice plays, an idle one is silent, and on an empty buffer the sounding voice is finished. -/
theorem witness_vstep_stages :
    (((sounding 1920000).voice (chan 0)).stepRetrigger (sounding 1920000).rate twoWords).active = true ∧
    (((sounding 1920000).voice (chan 0)).stepRetrigger (sounding 1920000).rate twoWords).engineFinished twoWords
      (normParam (((sounding 1920000).voice (chan 0)).stepRetrigger (sounding 1920000).rate twoWords).snap[1]) = false ∧
    (((sounding 1920000).voice (chan 1)).stepRetrigger (sounding 1920000).rate Buffer.reset).active = false ∧
    ((sounding 1920000).setBuf 0 Buffer.reset).Inv ∧
    (((sounding 1920000).voice (chan 0)).stepRetrigger (sounding 1920000).rate Buffer.reset).engineFinished Buffer.reset
      (normParam (((sounding 1920000).voice (chan 0)).stepRetrigger (sounding 1920000).rate Buffer.reset).snap[1]) = true :=
  ⟨by decide +kernel, by decide +kernel, by decide +kernel,
    inv_setBuf (witness_sounding _ (.inr rfl)) 0 ⟨Nat.zero_le _, by decide, by simp [Buffer.reset], fun a ha =>
      absurd ha (Nat.not_lt_zero a)⟩, by decide +kernel⟩

/-- LastSampleStall: the sounding voice at position 1.0 of the two words. -/
theorem witness_stall : 0 < twoWords.len.toNat ∧
    (F64.ofInt ((twoWords.len.toNat : Int) - 1)).le F64.cOne = true ∧
    F64.cOne.lt (({ soundingVoice with pos := F64.cOne } : Voice).endFrac.mul twoWords.lenF64) = true ∧
    F64.cOne.lt twoWords.lenF64 = true ∧ ({ soundingVoice with pos := F64.cOne } : Voice).srrAmt = 0 ∧
    soundingVoice.env.isFinite = true := by decide +kernel

/-- InterpolationStaysBetween: position 0.0 before the last word, position 1.0 at it, and an empty buffer. -/
theorem witness_interpolation : soundingVoice.pos.floor = some ((0 : Nat) : Int) ∧ 0 + 1 < twoWords.len.toNat ∧
    twoWords.memRead 0 = some 0x2000 ∧ twoWords.memRead 1 = some 0x4000 ∧
    soundingVoice.pos.units = ((0 : Nat) : Int) * 2 ^ 1074 ∧ F64.cOne.floor = some 1 ∧
    (twoWords.len.toNat : Int) - 1 ≤ 1 ∧ Buffer.reset.len = 0 := by decide +kernel

/-- VoicesAreIndependent: steps of voices 0 and 1 in a row, and a second state that shares voice 0. -/
theorem witness_independent : chan 0 ≠ chan 1 ∧
    (∃ t, exec (.vstep 0) (sounding 8) = .next t ∧ (resultOf (exec (.vstep 1) t)).isSome = true) ∧
    (sounding 8).rate = (sounding 9).rate ∧ (sounding 8).voice (chan 0) = (sounding 9).voice (chan 0) ∧
    (sounding 8).buf (chan 0) = (sounding 9).buf (chan 0) :=
  ⟨by decide, next_of_check (fun t => (resultOf (exec (.vstep 1) t)).isSome) (by decide +kernel), rfl, rfl, rfl⟩

/-- SilentFrame: no voice plays at reset. -/
theorem witness_silent : ∀ c, (State.reset.voice c).playing = false := by decide

/-- SumsAreRounded, ProductsAreRounded, FloorTruncNorm: finite operands with a divisor that is not 0. -/
theorem witness_finite : F64.cOne.isFinite = true ∧ F64.cPi.isFinite = true ∧ F64.cPi.units ≠ 0 := by decide +kernel

end Sys2Proof.Tests
end

/-! Rounding is correct: `roundRat` gives the binary64 value nearest to the exact quotient, ties to the even
significand, and an infinity from the overflow threshold on (00_scope.md R12). With it `floor` and `trunc` of a finite
value (R13) and `norm` as the quotient by 127 rounded once (R16). -/

section

open Sys2Proof Sys2Proof.Machine F64

set_option exponentiation.threshold 3000

namespace Sys2Proof

/-! ## The rounded quotient is nearest among the representable values -/

/-- No integer is nearer to the quotient than `nearestEven`, and at a tie with another one it is even. -/
theorem F64.nearestEven_nearest (num : Nat) {den : Nat} (h : 0 < den) (t : Int) :
    |(nearestEven num den : Int) * den - num| ≤ |t * den - num| ∧
      (|(nearestEven num den : Int) * den - num| = |t * den - num| → t ≠ nearestEven num den →
        nearestEven num den % 2 = 0) := by
  have hb := nearestEven_bounds num h
  have ht := nearestEven_tie (num := num) h
  generalize nearestEven num den = q at hb ht ⊢
  rw [Nat.mul_comm den q] at hb ht
  have hd : (den : Int) ≤ |t - q| * den ∨ t = q := by
    by_cases e : t = q
    · exact .inr e
    · exact .inl (le_mul_of_one_le_left (by omega) (Int.one_le_abs (by omega)))
  obtain hd | rfl := hd
  · rw [← Nat.abs_cast den, ← abs_mul, Int.sub_mul, Nat.abs_cast] at hd
    zify at hb ht
    generalize (q : Int) * den = x at hb ht hd ⊢
    generalize t * (den : Int) = y at hd ⊢
    simp only [Int.abs_eq_natAbs] at hd ⊢
    omega
  · exact ⟨le_rfl, fun _ hne => absurd rfl hne⟩

/-- A representable magnitude is a multiple of `2^k` or lies below the 53-bit significands at that place. -/
theorem F64.Representable.dvd_or_lt {r : Nat} (hr : Representable r) (k : Nat) :
    2 ^ k ∣ r ∨ k ≠ 0 ∧ r < 2 ^ (k + 52) := by
  obtain ⟨m, j, hm, rfl⟩ := hr
  by_cases hj : k ≤ j
  · exact .inl (Dvd.dvd.mul_left (pow_dvd_pow 2 hj) m)
  · refine .inr ⟨by omega, ?_⟩
    calc m * 2 ^ j < 2 ^ 53 * 2 ^ j := Nat.mul_lt_mul_of_pos_right hm (by positivity)
      _ = 2 ^ (j + 53) := by rw [pow_add]; ring
      _ ≤ 2 ^ (k + 52) := Nat.pow_le_pow_right (by decide) (by omega)

/-- No representable value is nearer to the quotient than the rounded one, and at a tie with another one the
significand is even. -/
theorem F64.roundMag_nearest (num : Nat) {den : Nat} (h : 0 < den) {u : Int} (hu : Representable u.natAbs) :
    |(roundMag num den : Int) * den - num| ≤ |u * den - num| ∧
      (|(roundMag num den : Int) * den - num| = |u * den - num| → u ≠ roundMag num den →
        roundSig num den % 2 = 0) := by
  have hD : 0 < den * 2 ^ lastPlace num den := Nat.mul_pos h (by positivity)
  have near := nearestEven_nearest num hD
  have hm : (roundMag num den : Int) * den = roundSig num den * (den * 2 ^ lastPlace num den : Nat) := by
    unfold F64.roundMag; push_cast; ring
  rw [hm]
  obtain hdvd | ⟨hk, hlt⟩ := hu.dvd_or_lt (lastPlace num den)
  · -- u lies on the lattice of the last place
    obtain ⟨t, rfl⟩ : ((2 ^ lastPlace num den : Nat) : Int) ∣ u := Int.natCast_dvd.mpr hdvd
    have ht : ((2 ^ lastPlace num den : Nat) : Int) * t * den = t * (den * 2 ^ lastPlace num den : Nat) := by
      push_cast; ring
    rw [ht]
    refine ⟨(near t).1, fun he hne => (near t).2 he fun e => hne ?_⟩
    rw [e]; unfold F64.roundMag F64.roundSig; push_cast; ring
  · -- u lies below the lattice point 2^52, which does not pass the quotient
    have hp := lastPlace_le (num := num) (den := den) hk
    have hpt : ((2 ^ 52 : Nat) : Int) * (den * 2 ^ lastPlace num den : Nat) =
        ((den * 2 ^ (lastPlace num den + 52) : Nat) : Int) := by
      push_cast; rw [pow_add]; ring
    have hn := (near (2 ^ 52 : Nat)).1
    rw [hpt] at hn
    have hul : u * den < ((den * 2 ^ (lastPlace num den + 52) : Nat) : Int) := by
      push_cast
      rw [mul_comm (den : Int)]
      have : u < ((2 ^ (lastPlace num den + 52) : Nat) : Int) := by omega
      exact mul_lt_mul_of_pos_right (by exact_mod_cast this) (by exact_mod_cast h)
    have hlt' : |(roundSig num den : Int) * (den * 2 ^ lastPlace num den : Nat) - num| < |u * den - num| := by
      refine lt_of_le_of_lt hn ?_
      generalize den * 2 ^ (lastPlace num den + 52) = p at hp hul
      generalize u * (den : Int) = y at hul ⊢
      simp only [Int.abs_eq_natAbs]
      omega
    exact ⟨hlt'.le, fun he => absurd he hlt'.ne⟩

/-! ## The overflow threshold -/

/-- The quotient at the threshold (2^54 − 1) × 2^2044 is a tie between the largest finite value and 2^1024, and goes up
to the even significand. -/
theorem F64.roundMag_threshold : roundMag ((2 ^ 54 - 1) * 2 ^ 2044) 1 = unitsLimit := by decide +kernel

/-- A quotient rounds past the largest finite value exactly from the threshold on. -/
theorem F64.roundMag_lt_limit_iff (num : Nat) {den : Nat} (h : 0 < den) :
    roundMag num den < unitsLimit ↔ num < (2 ^ 54 - 1) * 2 ^ 2044 * den := by
  constructor
  · intro hlt
    by_contra hge
    have := roundMag_mono (n1 := (2 ^ 54 - 1) * 2 ^ 2044) (d1 := 1) (n2 := num) (d2 := den) (by decide) h (by omega)
    rw [roundMag_threshold] at this
    omega
  · intro hlt
    by_contra hge
    -- the largest finite value would be nearer
    have hr : Representable ((2 ^ 53 - 1) * 2 ^ 2045) := ⟨2 ^ 53 - 1, 2045, by decide, rfl⟩
    have hn := (roundMag_nearest num h (u := (((2 ^ 53 - 1) * 2 ^ 2045 : Nat) : Int)) hr).1
    have hm : unitsLimit * den ≤ roundMag num den * den := Nat.mul_le_mul_right _ (by omega)
    have e1 : unitsLimit * den = (2 ^ 54 - 1) * 2 ^ 2044 * den + 2 ^ 2044 * den := by
      rw [← Nat.add_mul]; rfl
    have e2 : (2 ^ 54 - 1) * 2 ^ 2044 * den = (2 ^ 53 - 1) * 2 ^ 2045 * den + 2 ^ 2044 * den := by
      rw [← Nat.add_mul]; rfl
    have hg : 0 < 2 ^ 2044 * den := Nat.mul_pos (by positivity) h
    rw [← Nat.cast_mul, ← Nat.cast_mul, Int.abs_eq_natAbs, Int.abs_eq_natAbs] at hn
    generalize roundMag num den * den = x at *
    generalize unitsLimit * den = l at *
    generalize (2 ^ 53 - 1) * 2 ^ 2045 * den = t at *
    generalize (2 ^ 54 - 1) * 2 ^ 2044 * den = o at *
    generalize 2 ^ 2044 * den = g at *
    omega

/-! ## The last fraction bit -/

/-- The lowest bit of a pattern is the parity of its fraction. -/
theorem F64.getLsbD_zero_joinFields (s : Bool) (e f : Nat) : (joinFields s e f).getLsbD 0 = decide (f % 2 = 1) := by
  have : (s.toNat * 2 ^ 63 + e * 2 ^ 52 + f) % 2 = f % 2 := by omega
  unfold F64.joinFields
  rw [BitVec.getLsbD_ofNat, Nat.testBit_zero, this]
  rfl

/-- A value rounded to an even significand has the lowest bit 0. -/
theorem F64.getLsbD_zero_roundRat (s : Bool) {num den : Nat} (h2 : roundSig num den % 2 = 0) :
    (roundRat s num den).toBits.getLsbD 0 = false := by
  have hp : roundRat s num den = pack s (roundSig num den) (lastPlace num den) := by unfold F64.roundRat; rfl
  have heven : ¬ roundSig num den % 2 ^ 52 % 2 = 1 := by omega
  rw [hp]
  unfold F64.pack
  simp only
  generalize (if roundSig num den < 2 ^ 52 then 0 else _) = e
  split
  · exact (getLsbD_zero_joinFields _ _ _).trans (decide_eq_false heven)
  · exact getLsbD_zero_joinFields _ _ _

/-! ## `roundRat` rounds correctly -/

/-- A common sign does not change a distance. -/
theorem F64.abs_signed_sub (s : Bool) (a d n : Int) :
    |(if s then -a else a) * d - (if s then -n else n)| = |a * d - n| := by
  cases s with
  | false => rfl
  | true => simp only [if_true]; rw [← abs_neg]; congr 1; ring

/-- A finite rounded quotient is nearest among the finite values, ties to even. -/
theorem F64.nearestUnits_roundRat (s : Bool) (num : Nat) {den : Nat} (h : 0 < den)
    (hu : (roundRat s num den).units = if s then -(roundMag num den : Int) else roundMag num den) :
    nearestUnits (roundRat s num den) (if s then -(num : Int) else num) den := by
  intro z _
  obtain ⟨u, hz⟩ : ∃ u : Int, z.units = if s then -u else u :=
    ⟨if s then -z.units else z.units, by cases s <;> simp⟩
  have hr : Representable u.natAbs := by
    have := representable_mag z
    rw [← natAbs_units, hz] at this
    cases s <;> simpa using this
  obtain ⟨hle, htie⟩ := roundMag_nearest num h hr
  rw [hu, hz, abs_signed_sub, abs_signed_sub]
  exact ⟨hle, fun he hne => getLsbD_zero_roundRat s (htie he fun e => hne (by rw [e]))⟩

/-- `roundRat` gives the quotient with the sign, rounded to nearest, ties to even (R12). -/
theorem F64.roundRat_roundedFrom (s : Bool) (num : Nat) {den : Nat} (h : 0 < den) :
    roundedFrom (roundRat s num den) (if s then -(num : Int) else num) den := by
  have habs : (if s then -(num : Int) else num).natAbs = num := by cases s <;> simp
  have hover := roundMag_lt_limit_iff num h
  unfold roundedFrom
  rw [habs]
  obtain ⟨hlt, e, f, hfin, hmag⟩ | ⟨hge, hinf⟩ := roundRat_spec s num h
  · rw [if_pos (hover.mp hlt)]
    have hs : (roundRat s num den).sign = s := by rw [hfin]; rfl
    exact ⟨by rw [hfin]; rfl, nearestUnits_roundRat s num h (by rw [units_of_sign hs, hmag])⟩
  · have hnum : ¬ num < (2 ^ 54 - 1) * 2 ^ 2044 * den := fun hc => absurd (hover.mpr hc) (by omega)
    have hpos : 0 < num := (Nat.mul_pos (by positivity) h).trans_le (Nat.le_of_not_lt hnum)
    rw [if_neg hnum, hinf]
    cases s <;> simp [hpos]

/-- Rounding depends on the quotient only: a common factor cancels. -/
theorem F64.roundRat_mul_right (s : Bool) (num den : Nat) {c : Nat} (hc : 0 < c) :
    roundRat s (num * c) (den * c) = roundRat s num den := by
  have hl : lastPlace (num * c) (den * c) = lastPlace num den := by
    unfold F64.lastPlace; rw [Nat.mul_div_mul_right _ _ hc]
  have hn : ∀ d, nearestEven (num * c) (d * c) = nearestEven num d := fun d => by
    unfold F64.nearestEven
    simp only [Nat.mul_div_mul_right _ _ hc, Nat.mul_mod_mul_right, ← Nat.mul_assoc, Nat.mul_lt_mul_right hc]
  unfold F64.roundRat
  rw [hl, Nat.mul_right_comm, hn]

/-! ## floor, trunc and norm -/

/-- 1.0 in units, as an integer. -/
theorem F64.unitsOne_cast : (unitsOne : Int) = 2 ^ 1074 := by unfold F64.unitsOne; rw [Nat.cast_pow]; rfl

/-- The floor of a finite value (R13). -/
theorem F64.floor_of_finite {x : F64} (h : x.isFinite = true) : x.floor = some (x.units / unitsOne) := by
  unfold F64.floor; rw [if_pos h]

/-- The integer part of a finite value (R13). -/
theorem F64.trunc_of_finite {x : F64} (h : x.isFinite = true) : x.trunc = x.units.tdiv unitsOne := by
  unfold F64.trunc; rw [if_pos h]

/-- The magnitude of the integer part is the floor of the magnitude. -/
theorem F64.abs_trunc {x : F64} (h : x.isFinite = true) : |x.trunc| = |x.units| / unitsOne := by
  rw [trunc_of_finite h, Int.abs_eq_natAbs, Int.natAbs_tdiv, Int.abs_eq_natAbs]
  rfl

/-- The integer part has the sign of the value. -/
theorem F64.trunc_mul_units_nonneg {x : F64} (h : x.isFinite = true) : 0 ≤ x.trunc * x.units := by
  have hU : (0 : Int) ≤ unitsOne := Int.natCast_nonneg _
  rw [trunc_of_finite h]
  rcases le_total 0 x.units with h0 | h0
  · exact mul_nonneg (Int.tdiv_nonneg h0 hU) h0
  · have hneg := Int.tdiv_nonneg (Int.neg_nonneg_of_nonpos h0) hU
    rw [Int.neg_tdiv] at hneg
    exact mul_nonneg_of_nonpos_of_nonpos (Int.nonpos_of_neg_nonneg hneg) h0

/-- `norm(n)` is n / 127 rounded once (R16). -/
theorem normParam_eq_roundRat (n : Param) : normParam n = roundRat false (n.toNat * unitsOne) 127 := by
  have h127 : F64.cN127.isFinite = true ∧ F64.cN127.sign = false ∧ F64.cN127.mag = 127 * unitsOne := by decide +kernel
  obtain ⟨yfin, ysign, ymag⟩ := h127
  obtain ⟨xfin, xsign, xmag, -⟩ := ofInt_exact (n := n.toNat) (by omega)
  have hpos := unitsOne_pos
  unfold normParam
  rw [div_of_finite xfin yfin (by omega), xsign, ysign, xmag, ymag, roundRat_mul_right _ _ _ hpos,
    decide_eq_false (by omega)]
  rfl

/-- `norm(n)` is the nearest value to n / 127, ties to even (R16). -/
theorem roundedFrom_normParam (n : Param) : roundedFrom (normParam n) ((n.toNat : Int) * unitsOne) 127 := by
  have := roundRat_roundedFrom false (n.toNat * unitsOne) (den := 127) (by decide)
  rwa [← normParam_eq_roundRat, if_neg Bool.false_ne_true, Nat.cast_mul] at this

end Sys2Proof

/-- Settles O60: floor and trunc are the quotients by 1.0 of the value and of its magnitude, and norm is one correct
rounding. -/
theorem floorTruncNorm : Obligations.FloorTruncNorm := by
  unfold Obligations.FloorTruncNorm
  have hpos : (0 : Int) < unitsOne := by exact_mod_cast unitsOne_pos
  rw [← unitsOne_cast]
  refine ⟨fun x hx => ⟨_, floor_of_finite hx, Int.ediv_mul_le _ hpos.ne', Int.lt_ediv_add_one_mul_self _ hpos⟩,
    fun x hx => ?_, roundedFrom_normParam, by decide +kernel, by decide +kernel⟩
  rw [abs_trunc hx]
  exact ⟨Int.ediv_mul_le _ hpos.ne', Int.lt_ediv_add_one_mul_self _ hpos, trunc_mul_units_nonneg hx⟩

end

/-! What the decoder ignores and what the block rejects (30_encoding.md R60, R61): two commands that agree on the bits a
row reads agree on every field of the row, an opcode outside the map is an error, and a readback selector that names
nothing answers ILLEGAL. -/

section

open Sys2Proof Sys2Proof.Machine

namespace Sys2Proof

/-! ## The decoder reads only its row's fields -/

/-- Two words that agree under a mask agree on every field the mask covers. -/
theorem extractLsb'_eq_of_and_eq {w start len : Nat} {x y m : BitVec w} (h : x &&& m = y &&& m)
    (hm : m.extractLsb' start len = BitVec.allOnes len) : x.extractLsb' start len = y.extractLsb' start len := by
  have := congrArg (BitVec.extractLsb' start len) h
  rwa [BitVec.extractLsb'_and, BitVec.extractLsb'_and, hm, BitVec.and_allOnes, BitVec.and_allOnes] at this

/-- Every row reads OPC (R59). -/
theorem opcField_readMask (i : Instr) : opcField i.readMask = BitVec.allOnes 8 := by
  cases i <;> simp only [Instr.readMask] <;> decide

/-- A command that agrees with another on what the row of its instruction reads decodes to the same instruction (R61). -/
theorem decode_eq_ok_of_agree {c c' : Command} {i : Instr} (hi : decode c = .ok i)
    (hcmd : c'.cmd &&& i.readMask = c.cmd &&& i.readMask) (hd0 : i.readsD0 = true → c'.d0 = c.d0)
    (hd1 : i.readsD1 = true → c'.d1 = c.d1) : decode c' = .ok i := by
  have hopc : opcField c'.cmd = opcField c.cmd := extractLsb'_eq_of_and_eq hcmd (opcField_readMask i)
  have hch : chField i.readMask = BitVec.allOnes 8 → chField c'.cmd = chField c.cmd :=
    extractLsb'_eq_of_and_eq hcmd
  have hidx : idxField i.readMask = BitVec.allOnes 8 → idxField c'.cmd = idxField c.cmd :=
    extractLsb'_eq_of_and_eq hcmd
  have hcode : codeField i.readMask = BitVec.allOnes 12 → codeField c'.cmd = codeField c.cmd :=
    extractLsb'_eq_of_and_eq hcmd
  have hsel : selField i.readMask = BitVec.allOnes 8 → selField c'.cmd = selField c.cmd :=
    extractLsb'_eq_of_and_eq hcmd
  have hval : valField i.readMask = BitVec.allOnes 7 → valField c'.cmd = valField c.cmd :=
    extractLsb'_eq_of_and_eq hcmd
  unfold decode at hi ⊢
  rw [hopc]
  split at hi <;> cases hi
  -- what the row reads agrees because the row's mask, a literal, covers it; `id` states that side goal as it is posed
  all_goals simp (disch := refine id ?_; simp only [Instr.readMask, Instr.readsD0, Instr.readsD1] <;> decide) only
    [hch, hidx, hcode, hsel, hval, hd0, hd1]

/-- An opcode that is no row of the map is an error (R59, R61). -/
theorem decode_of_unassigned {c : Command} (h : opcField c.cmd ∉ assignedOpcodes) :
    decode c = .error (.unassignedOpcode (opcField c.cmd)) := by
  unfold decode
  split
  case h_27 => rfl
  all_goals
    rename_i hrow
    rw [hrow] at h
    exact absurd h (by decide)

end Sys2Proof

namespace Sys2Proof.Machine

/-! ## What names nothing is ILLEGAL (R61) -/

/-- A step on an unassigned opcode takes the command and answers ILLEGAL. -/
theorem step_of_unassigned {s : State} {c : Command} {rest : List Command} (hs : s.commands = c :: rest)
    (h : opcField c.cmd ∉ assignedOpcodes) :
    step s = .next (({ s with commands := rest } : State).respond .illegal 0 0) := by
  simp only [step, hs, decode_of_unassigned h, raise]

/-- The selectors R130 gives no row. -/
theorem Voice.readback_eq_none (v : Voice) {sel : BitVec 8}
    (h : (11 ≤ sel.toNat ∧ sel.toNat ≤ 15) ∨ 25 ≤ sel.toNat) : v.readback sel = none := by
  unfold Voice.readback
  split
  case h_21 => rfl
  all_goals omega

/-- The selectors R110 gives no row. -/
theorem FilterState.readback_eq_none (f : FilterState) {sel : BitVec 8} (h : 17 ≤ sel.toNat) :
    f.readback sel = none := by
  unfold FilterState.readback
  split
  case h_18 => rfl
  all_goals omega

/-- VRD of a selector that names nothing (R130). -/
theorem exec_vrd_of_unnamed {sel : BitVec 8} (h : (11 ≤ sel.toNat ∧ sel.toNat ≤ 15) ∨ 25 ≤ sel.toNat)
    (ch : BitVec 8) (s : State) : exec (.vrd ch sel) s = .next (s.respond .illegal 0 0) := by
  simp only [exec, execVrd, Voice.readback_eq_none _ h, raise]

/-- FRD of a selector that names nothing (R110). -/
theorem exec_frd_of_unnamed {sel : BitVec 8} (h : 17 ≤ sel.toNat) (s : State) :
    exec (.frd sel) s = .next (s.respond .illegal 0 0) := by
  simp only [exec, execFrd, FilterState.readback_eq_none _ h, raise]

end Sys2Proof.Machine

/-- Settles O3: each reserved encoding ends in `raise ILLEGAL`, and the mask of a row covers every field it reads. -/
theorem reservedAndIgnoredEncodings : Obligations.ReservedAndIgnoredEncodings := by
  unfold Obligations.ReservedAndIgnoredEncodings
  exact ⟨fun _ _ _ hs h => step_of_unassigned hs h,
    fun s _ val h => ⟨exec_wrparam_of_ge h val s, exec_rdparam_of_ge h s⟩,
    fun s ch _ h => exec_vrd_of_unnamed h ch s,
    fun s _ h => exec_frd_of_unnamed h s,
    fun _ _ _ hi hcmd hd0 hd1 => decode_eq_ok_of_agree hi hcmd hd0 hd1⟩

/-- Settles O4: the encoder gives each printed word and the decoder reads it back, by evaluation; a channel value from 7
on names channel 7. -/
theorem encodingExamples : Obligations.EncodingExamples := by
  unfold Obligations.EncodingExamples
  exact ⟨by decide, chan_of_ge (by decide)⟩

end

/-! The control commands (41_control.md): the rows of NOP, RDRATE and RDPARAM, what a parameter write leaves of the
filter inputs, the bits of the flag words, and the reset that SETRATE performs. -/

section

open Sys2Proof Sys2Proof.Machine

namespace Sys2Proof

/-- Opcode 0x00 is NOP, whatever the other bits hold (R67). -/
theorem decode_of_opcField_nop {c : Command} (h : opcField c.cmd = 0x00) : decode c = .ok .nop := by
  unfold decode; rw [h]; rfl

/-- Opcode 0x02 is RDRATE, whatever the other bits hold (R69). -/
theorem decode_of_opcField_rdrate {c : Command} (h : opcField c.cmd = 0x02) : decode c = .ok .rdrate := by
  unfold decode; rw [h]; rfl

/-- Opcode 0x04 is RDPARAM of its idx field, whatever the other bits hold (R71). -/
theorem decode_of_opcField_rdparam {c : Command} (h : opcField c.cmd = 0x04) :
    decode c = .ok (.rdparam (idxField c.cmd)) := by
  unfold decode; rw [h]; rfl

/-- No value is below one it is at least (R13). -/
theorem F64.lt_eq_false_of_le {x y : F64} (h : y.le x = true) : x.lt y = false := by
  simp [F64.lt, h]

end Sys2Proof

namespace Sys2Proof.Machine

/-! ## The filter inputs of a parameter write (R70) -/

/-- The filter record with the input of P[i] written, the coefficients as they were: the cutoff of index 9, the
resonance of 10, the mode of 11 (R70). -/
def FilterState.withInput (f : FilterState) (i : Fin 12) (val : Param) : FilterState :=
  { f with
    fcReq := if i.val = 9 then cutoffHz val else f.fcReq
    res := if i.val = 10 then normParam val else f.res
    mode := if i.val = 11 then modeFromParam val else f.mode }

/-- A write of P[9..11] writes its filter input and recomputes the coefficients (R70). -/
theorem State.applyParam_high (s : State) {i : Fin 12} (val : Param) (h : 9 ≤ i.val) :
    s.applyParam i val = (s.setFilter (s.filter.withInput i val)).filterRecompute := by
  obtain hi | hi | hi : i.val = 9 ∨ i.val = 10 ∨ i.val = 11 := by omega
  all_goals simp [State.applyParam, FilterState.withInput, hi]

/-- An index below 9 names no filter input (R70). -/
theorem FilterState.withInput_low (f : FilterState) {i : Fin 12} (val : Param) (h : i.val < 9) :
    f.withInput i val = f := by
  have h9 : i.val ≠ 9 ∧ i.val ≠ 10 ∧ i.val ≠ 11 := by omega
  simp [FilterState.withInput, h9]

/-- The input of a register written twice is as written once. -/
theorem FilterState.withInput_withInput (f : FilterState) (i : Fin 12) (val : Param) :
    (f.withInput i val).withInput i val = f.withInput i val := by
  unfold FilterState.withInput
  congr 1 <;> split <;> rfl

/-- A write of P[9..11] leaves current coefficients (R70, R104). -/
theorem State.applyParam_current (s : State) {i : Fin 12} (val : Param) (h : 9 ≤ i.val) :
    (s.applyParam i val).coeffsCurrent := by
  rw [State.applyParam_high s val h]
  exact State.filterRecompute_current _

/-- Beside the register a parameter write writes its filter input, the coefficients and FALLBACK, and nothing else
(R70). -/
theorem State.applyParam_frame (s : State) (i : Fin 12) (val : Param) :
    ∃ k b, s.applyParam i val =
      { s with filter := { s.filter.withInput i val with coeffs := k, fallback := b } } := by
  obtain h | h := Nat.lt_or_ge i.val 9
  · rw [State.applyParam_low s val h, FilterState.withInput_low _ val h]
    exact ⟨s.filter.coeffs, s.filter.fallback, rfl⟩
  · rw [State.applyParam_high s val h]
    exact ⟨_, _, rfl⟩

/-! ## A second WRPARAM of the same value -/

/-- A register write repeated is the same write. -/
@[simp] theorem State.setParam_setParam (s : State) (i : Fin 12) (val : Param) :
    (s.setParam i val).setParam i val = s.setParam i val := by
  simp [State.setParam]

/-- Of two filter writes the second stands. -/
@[simp] theorem State.setFilter_setFilter (s : State) (f g : FilterState) :
    (s.setFilter f).setFilter g = s.setFilter g := rfl

/-- A recomputation after a write of an input does not see an earlier recomputation. -/
theorem State.filterRecompute_withInput_filterRecompute (s : State) (i : Fin 12) (val : Param) :
    (s.filterRecompute.setFilter (s.filterRecompute.filter.withInput i val)).filterRecompute =
      (s.setFilter (s.filter.withInput i val)).filterRecompute := rfl

/-- The effects beside the register, repeated, are the same effects. -/
theorem State.applyParam_applyParam (s : State) (i : Fin 12) (val : Param) :
    (s.applyParam i val).applyParam i val = s.applyParam i val := by
  obtain h | h := Nat.lt_or_ge i.val 9
  · rw [State.applyParam_low _ val h, State.applyParam_low _ val h]
  · rw [State.applyParam_high _ val h, State.applyParam_high _ val h,
      State.filterRecompute_withInput_filterRecompute, State.setFilter_filter, FilterState.withInput_withInput,
      State.setFilter_setFilter]

/-- The effects beside the register depend on no parameter register. -/
theorem State.setParam_applyParam (s : State) (i j : Fin 12) (v w : Param) :
    (s.applyParam i v).setParam j w = (s.setParam j w).applyParam i v := by
  obtain h | h := Nat.lt_or_ge i.val 9
  · rw [State.applyParam_low _ v h, State.applyParam_low _ v h]
  · rw [State.applyParam_high _ v h, State.applyParam_high _ v h]; rfl

/-- A parameter write does not read the response. -/
theorem State.writeParam_respond (s : State) (i : Fin 12) (val : Param) (st : Status) (a b : Word) :
    ((s.respond st a b).setParam i val).applyParam i val = ((s.setParam i val).applyParam i val).respond st a b := by
  obtain h | h := Nat.lt_or_ge i.val 9
  · rw [State.applyParam_low _ val h, State.applyParam_low _ val h]; rfl
  · rw [State.applyParam_high _ val h, State.applyParam_high _ val h]; rfl

/-- The same WRPARAM again has no effect (R70). -/
theorem exec_wrparam_again {idx : BitVec 8} (h : idx.toNat < 12) {val : Param} {s t : State}
    (ht : exec (.wrparam idx val) s = .next t) : exec (.wrparam idx val) t = .next t := by
  rw [exec_wrparam_of_lt h] at ht ⊢
  cases ht
  rw [State.writeParam_respond, State.setParam_applyParam, State.setParam_setParam, State.applyParam_applyParam,
    State.respond_respond]

/-! ## The flag words -/

/-- Bit i of a flag word is flag i, and 0 past the last (R72). -/
theorem testBit_flagBits (l : List Bool) (i : Nat) : (flagBits l).testBit i = l[i]?.getD false := by
  induction l generalizing i with
  | nil => exact Nat.zero_testBit i
  | cons b rest ih =>
    cases i with
    | zero => cases b <;> simp [flagBits, Nat.testBit_zero]
    | succ i =>
      have hdiv : (b.toNat + 2 * flagBits rest) / 2 = flagBits rest := by have := b.toNat_lt; omega
      rw [flagBits, Nat.testBit_succ, hdiv, ih, List.getElem?_cons_succ]

/-- A flag word has no bit past its last flag. -/
theorem flagBits_lt (l : List Bool) : flagBits l < 2 ^ l.length := by
  induction l with
  | nil => exact Nat.one_pos
  | cons b rest ih =>
    have := b.toNat_lt
    rw [flagBits, List.length_cons, pow_succ]
    omega

/-- A bit of a result word of flags. -/
theorem getLsbD_zext64_flagBits (l : List Bool) {i : Nat} (h : i < 64) :
    (zext64 (flagBits l)).getLsbD i = l[i]?.getD false := by
  rw [zext64, BitVec.getLsbD_ofNat, testBit_flagBits, decide_eq_true h, Bool.true_and]

/-- A result word of flags has no bit past its last flag. -/
theorem toNat_zext64_flagBits_lt (l : List Bool) : (zext64 (flagBits l)).toNat < 2 ^ l.length := by
  rw [zext64, BitVec.toNat_ofNat]
  exact (Nat.mod_le _ _).trans_lt (flagBits_lt l)

/-- The loop over the channels takes channel c in place c. -/
theorem getElem?_channels : ∀ c : Channel, channels[c.val]? = some c := by decide

/-- RDSTATUS's word: playing in the low eight bits, ACTIVE in the next (R72). -/
theorem State.getLsbD_statusWord (s : State) (c : Channel) :
    s.statusWord.getLsbD c.val = (s.voice c).playing ∧ s.statusWord.getLsbD (8 + c.val) = (s.voice c).active := by
  have hlen : ∀ f : Channel → Bool, (channels.map f).length = 8 := fun f => List.length_map f
  have hget : ∀ f : Channel → Bool, (channels.map f)[c.val]? = some (f c) := fun f => by
    rw [List.getElem?_map, getElem?_channels, Option.map_some]
  unfold State.statusWord
  rw [getLsbD_zext64_flagBits _ (by omega), getLsbD_zext64_flagBits _ (by omega),
    List.getElem?_append_left (by rw [hlen]; exact c.isLt), List.getElem?_append_right (by rw [hlen]; omega), hlen,
    Nat.add_sub_cancel_left, hget, hget]
  exact ⟨rfl, rfl⟩

/-! ## The reset of SETRATE (R68, R153) -/

/-- A finite rate from 1.0 to SR_MAX is accepted (R68). -/
theorem rateOk_of_range {p : Params} {sr : F64} (hfin : sr.isFinite = true) (hlo : F64.cOne.le sr = true)
    (hhi : sr.le p.srMax = true) : rateOk p sr = true := by
  simp [rateOk, F64.gt, hfin, F64.lt_eq_false_of_le hlo, F64.lt_eq_false_of_le hhi]

/-- Any other rate is not (R68). -/
theorem rateOk_eq_false {p : Params} {sr : F64}
    (h : sr.isFinite = false ∨ sr.lt F64.cOne = true ∨ p.srMax.lt sr = true) : rateOk p sr = false := by
  obtain h | h | h := h <;> simp [rateOk, F64.gt, h]

/-- A cut buffer is no longer than before and no longer than the bound (R68). -/
theorem Buffer.cut_len (b : Buffer) (bound : Nat) : (b.cut bound).len.toNat = Nat.min b.len.toNat bound := by
  unfold Buffer.cut
  split
  · next h =>
    have hlt : bound < 2 ^ 32 := h.trans b.len.isLt
    rw [BitVec.toNat_ofNat, Nat.mod_eq_of_lt hlt]
    exact (Nat.min_eq_right h.le).symm
  · next h => exact (Nat.min_eq_left (Nat.le_of_not_lt h)).symm

/-- A cut writes no word (R68). -/
@[simp] theorem Buffer.cut_mem (b : Buffer) (bound : Nat) : (b.cut bound).mem = b.mem := by
  unfold Buffer.cut
  split <;> rfl

/-- Every voice at reset (R150). -/
theorem State.voice_reset (c : Channel) : State.reset.voice c = Voice.reset := by
  simp [State.voice, State.reset]

/-- Both lanes' delay state at reset (R150). -/
theorem State.filter_reset_delay :
    State.reset.filter.left = Delay.reset ∧ State.reset.filter.right = Delay.reset := ⟨rfl, rfl⟩

/-- What a performed SETRATE leaves of the lengths (R68, R153). -/
theorem State.setRateReset_lenOf (s : State) (sr : F64) (c : Channel) :
    (s.setRateReset sr).lenOf c = Nat.min (s.lenOf c) (Sys2Proof.Machine.maxLen s.cfg sr) := by
  rw [State.lenOf, State.setRateReset_buf, Buffer.cut_len, State.lenOf]

/-- A performed SETRATE writes no byte of memory (R153). -/
theorem State.setRateReset_byteAt (s : State) (sr : F64) (c : Channel) (a : Nat) :
    (s.setRateReset sr).byteAt c a = s.byteAt c a := by
  rw [State.byteAt, State.setRateReset_buf, Buffer.cut_mem, State.byteAt]

/-- A performed SETRATE leaves current coefficients (R68, R104). -/
theorem State.setRateReset_current (s : State) (sr : F64) : (s.setRateReset sr).coeffsCurrent :=
  State.filterRecompute_current _

end Sys2Proof.Machine

/-- Settles O18: the three meanings on every operand, and the three opcodes. -/
theorem nopRdrateRdparamResults : Obligations.NopRdrateRdparamResults := by
  unfold Obligations.NopRdrateRdparamResults
  refine ⟨exec_nop, fun _ => decode_of_opcField_nop, fun _ => decode_of_opcField_rdrate,
    fun _ => decode_of_opcField_rdparam, exec_rdrate, by decide +kernel, fun s idx h => ?_, fun s _ h => exec_rdparam_of_ge h s,
    exec_rdparam_of_lt (by decide) State.reset⟩
  rw [exec_rdparam_of_lt h, zext64, BitVec.ofNat_toNat, State.param]

/-- Settles O19: WRPARAM is the register write and `State.applyParam`, whose frame and second run are laws above. -/
theorem wrparamResult : Obligations.WrparamResult := by
  unfold Obligations.WrparamResult
  refine ⟨fun s idx val h => ?_, fun s _ val h => exec_wrparam_of_ge h val s⟩
  have ht := exec_wrparam_of_lt h val s
  obtain ⟨k, b, he⟩ := (s.setParam ⟨idx.toNat, h⟩ val).applyParam_frame ⟨idx.toNat, h⟩ val
  exact ⟨_, ht, rfl, congrArg (·.params) he, fun h9 => congrArg (·.filter) (State.applyParam_low _ val h9),
    congrArg (·.filter.fcReq) he, congrArg (·.filter.res) he, congrArg (·.filter.mode) he,
    fun h9 => (s.setParam ⟨idx.toNat, h⟩ val).applyParam_current val h9, congrArg (·.filter.left) he,
    congrArg (·.filter.right) he, by rw [he]; rfl, exec_wrparam_again h ht⟩

/-- Settles O20: a flag word holds flag i in bit i, and the two words are those of RDSTATUS and VSTAT. -/
theorem statusWordBits : Obligations.StatusWordBits := by
  unfold Obligations.StatusWordBits
  refine ⟨fun s => ⟨s.statusWord, exec_rdstatus s, toNat_zext64_flagBits_lt _, s.getLsbD_statusWord⟩,
    fun s ch => ⟨(s.voice (chan ch)).statWord, exec_vstat ch s, toNat_zext64_flagBits_lt _, ?_, ?_⟩⟩
  · exact getLsbD_zext64_flagBits _ (by decide)
  · exact getLsbD_zext64_flagBits _ (by decide)

/-- Settles O21: an accepted rate leaves `State.setRateReset`, whose parts its laws give; any other rate is refused. -/
theorem setrateResult : Obligations.SetrateResult := by
  unfold Obligations.SetrateResult
  intro s d0 _
  have hone : F64.ofBits 0x3FF0000000000000 = F64.cOne := rfl
  obtain ⟨hleft₀, hright₀⟩ := State.filter_reset_delay
  rw [exec_setrate, f64, hone, hleft₀, hright₀]
  generalize F64.ofBits d0 = sr
  obtain ⟨hcfg, hrate, hparams, hcommands, -, hfc, hres, hmode, hleft, hright⟩ := s.setRateReset_frame sr
  refine ⟨fun hfin hlo hhi => ⟨_, if_pos (rateOk_of_range hfin hlo hhi), ?_⟩,
    fun h => if_neg (Bool.eq_false_iff.mp (rateOk_eq_false h))⟩
  exact ⟨rfl, hrate, fun c => (s.setRateReset_voice sr c).trans (State.voice_reset c).symm, s.setRateReset_lenOf sr,
    s.setRateReset_byteAt sr, hfc, hres, hmode, hleft, hright, s.setRateReset_current sr, hcfg, hparams, hcommands⟩

end

/-! The quantizer's outputs lie on the grid of 1/2048 (44_lofi.md R88), and the code BUFAPQ stores is the multiple
(42_buffer.md R77). Products and quotients whose exact value is a representable number of units are exact. -/

section

open Sys2Proof Sys2Proof.Machine F64

set_option exponentiation.threshold 3000

namespace Sys2Proof

/-! ## Exact products and quotients -/

/-- The exact product of two values in squared units. -/
theorem F64.units_mul_units (x y : F64) :
    x.units * y.units =
      if (x.sign ^^ y.sign) = true then -((x.mag * y.mag : Nat) : Int) else (x.mag * y.mag : Nat) := by
  unfold F64.units
  cases x.sign <;> cases y.sign <;> simp

/-- A positive number of units has the sign bit 0 and is the magnitude. -/
theorem F64.sign_of_units_pos {x : F64} (h : 0 < x.units) : x.sign = false ∧ x.units = x.mag := by
  unfold F64.units at h ⊢
  cases hs : x.sign
  · exact ⟨rfl, rfl⟩
  · rw [hs, if_pos rfl] at h
    omega

/-- A quotient that is a representable number of units, sign included, rounds to it. -/
theorem F64.roundRat_units_exact {s : Bool} {num den : Nat} {z : Int} (h : 0 < den) (hr : Representable z.natAbs)
    (hlim : z.natAbs < unitsLimit) (he : (if s = true then -(num : Int) else num) = z * den) :
    (roundRat s num den).isFinite = true ∧ (roundRat s num den).units = z := by
  have hnum : num = z.natAbs * den := by
    have := congrArg Int.natAbs he
    rwa [Int.natAbs_mul, Int.natAbs_natCast, apply_ite Int.natAbs, Int.natAbs_neg, Int.natAbs_natCast, ite_self] at this
  obtain ⟨hfin, hsign, hmag⟩ := roundRat_exact s h hr hnum hlim
  refine ⟨hfin, Int.eq_of_mul_eq_mul_right (a := (den : Int)) (by omega) ?_⟩
  rw [units_of_sign hsign, hmag, ← he, hnum]
  cases s <;> simp

/-- Rounding does not fall below a value of sign bit 0 that the exact quotient reaches. -/
theorem F64.le_roundRat {y : F64} (hy : y.isFinite = true) (hsign : y.sign = false) {num den : Nat} (h : 0 < den)
    (hle : y.mag * den ≤ num) : y.le (roundRat false num den) = true := by
  have hmono : y.mag ≤ roundMag num den := by
    have := roundMag_mono h h (Nat.mul_le_mul_right den hle)
    rwa [roundMag_exact (representable_mag y) h] at this
  obtain ⟨-, e, f, he, hm⟩ | ⟨-, he⟩ := roundRat_spec false num h
  · rw [he] at hm ⊢
    rw [le_of_finite hy rfl, units_of_sign hsign, units_of_sign (F64.sign_fin false e f), hm]
    simpa using hmono
  · rw [he]
    obtain ⟨s, e, f, rfl⟩ := (isFinite_iff y).mp hy
    rfl

/-- An exact product that is a representable number of units is kept (R12). -/
theorem F64.mul_units_exact {x y : F64} {z : Int} (hx : x.isFinite = true) (hy : y.isFinite = true)
    (hr : Representable z.natAbs) (hlim : z.natAbs < unitsLimit) (he : x.units * y.units = z * unitsOne) :
    (x.mul y).isFinite = true ∧ (x.mul y).units = z := by
  rw [mul_of_finite hx hy]
  exact roundRat_units_exact unitsOne_pos hr hlim ((units_mul_units x y).symm.trans he)

/-- An exact quotient by a positive value that is a representable number of units is kept (R12). -/
theorem F64.div_units_exact {x y : F64} {z : Int} (hx : x.isFinite = true) (hy : y.isFinite = true)
    (hpos : 0 < y.units) (hr : Representable z.natAbs) (hlim : z.natAbs < unitsLimit)
    (he : x.units * unitsOne = z * y.units) : (x.div y).isFinite = true ∧ (x.div y).units = z := by
  obtain ⟨hsign, hmag⟩ := sign_of_units_pos hpos
  rw [div_of_finite hx hy (by omega)]
  refine roundRat_units_exact (by omega) hr hlim ?_
  rw [← hmag, ← he, hsign, Bool.xor_false, F64.units]
  cases x.sign <;> simp

/-! ## Integral values between −2048 and 2047 -/

/-- A code's multiple of a power of two below 2^2087 is representable and finite. -/
theorem F64.representable_code {k : Int} (hlo : -2048 ≤ k) (hhi : k ≤ 2047) {e : Nat} (he : e < 2087) :
    Representable (k * 2 ^ e).natAbs ∧ (k * 2 ^ e).natAbs < unitsLimit := by
  have habs : (k * 2 ^ e).natAbs = k.natAbs * 2 ^ e := by rw [Int.natAbs_mul, Int.natAbs_pow]; rfl
  rw [habs]
  refine ⟨⟨k.natAbs, e, by omega, rfl⟩, ?_⟩
  calc k.natAbs * 2 ^ e ≤ 2 ^ 11 * 2 ^ e := Nat.mul_le_mul_right _ (by omega)
    _ = 2 ^ (11 + e) := (pow_add _ _ _).symm
    _ < unitsLimit := pow_lt_limit (by omega)

/-- The constants of the quantizer are finite integers (R88). -/
theorem F64.quantizer_constants :
    (cN2048.isFinite = true ∧ cN2048.units = 2 ^ 1085) ∧
      (cNeg2048.isFinite = true ∧ cNeg2048.units = -2048 * 2 ^ 1074) ∧
      (cN2047.isFinite = true ∧ cN2047.units = 2047 * 2 ^ 1074) := by
  decide +kernel

/-- Integers compare as binary64 values as they do as integers. -/
theorem F64.le_iff_of_integral {x y : F64} {a b : Int} (hx : x.isFinite = true) (hy : y.isFinite = true)
    (ha : x.units = a * 2 ^ 1074) (hb : y.units = b * 2 ^ 1074) : x.le y = true ↔ a ≤ b := by
  rw [le_of_finite hx hy, ha, hb, decide_eq_true_eq]
  exact Int.mul_le_mul_right (by positivity)

/-- The clamp of the quantizer brings an integer or an infinity to an integer in −2048..2047 (R88). -/
theorem F64.clamp_integral {n : F64}
    (hn : (∃ s, n = .inf s) ∨ n.isFinite = true ∧ ∃ z : Int, n.units = z * 2 ^ 1074) :
    (F64.min (F64.max n cNeg2048) cN2047).isFinite = true ∧
      ∃ k : Int, -2048 ≤ k ∧ k ≤ 2047 ∧ (F64.min (F64.max n cNeg2048) cN2047).units = k * 2 ^ 1074 := by
  obtain ⟨-, ⟨hlofin, hlo⟩, hhifin, hhi⟩ := quantizer_constants
  have hlohi : cNeg2048.le cN2047 = true := (le_iff_of_integral hlofin hhifin hlo hhi).mpr (by decide)
  have at_low : ∃ k : Int, -2048 ≤ k ∧ k ≤ 2047 ∧ cNeg2048.units = k * 2 ^ 1074 := ⟨-2048, by decide, by decide, hlo⟩
  have at_high : ∃ k : Int, -2048 ≤ k ∧ k ≤ 2047 ∧ cN2047.units = k * 2 ^ 1074 := ⟨2047, by decide, by decide, hhi⟩
  obtain ⟨s | s, rfl⟩ | ⟨hfin, z, hz⟩ := hn
  · have hclamp : F64.min (F64.max (.inf false) cNeg2048) cN2047 = cN2047 := by decide +kernel
    rw [hclamp]
    exact ⟨hhifin, at_high⟩
  · have hclamp : F64.min (F64.max (.inf true) cNeg2048) cN2047 = cNeg2048 := by decide +kernel
    rw [hclamp]
    exact ⟨hlofin, at_low⟩
  · have hge := le_iff_of_integral hlofin hfin hlo hz
    have hle := le_iff_of_integral hfin hhifin hz hhi
    rw [F64.max, F64.ge]
    split
    · next h1 =>
      rw [F64.min]
      split
      · next h2 => exact ⟨hfin, z, hge.mp h1, hle.mp h2, hz⟩
      · exact ⟨hhifin, at_high⟩
    · rw [F64.min, if_pos hlohi]
      exact ⟨hlofin, at_low⟩

/-- The nearest integer of a value that is no NaN is an integer or an infinity (R13). -/
theorem F64.roundHalfAway_integral {x : F64} (h : x.isNaN = false) :
    (∃ s, x.roundHalfAway = .inf s) ∨
      x.roundHalfAway.isFinite = true ∧ ∃ z : Int, x.roundHalfAway.units = z * 2 ^ 1074 := by
  cases x with
  | nan s p => cases h
  | inf s => exact .inl ⟨s, by unfold F64.roundHalfAway; rfl⟩
  | fin s e f =>
    obtain ⟨hfin, -, hmag⟩ := roundHalfAway_spec (.fin s e f) rfl _ rfl
    refine .inr ⟨hfin, ?_⟩
    rw [F64.units, hmag, Nat.cast_mul, unitsOne_cast]
    generalize (((2 * (F64.fin s e f).mag + unitsOne) / (2 * unitsOne) : Nat) : Int) = z
    split
    · exact ⟨-z, by ring⟩
    · exact ⟨z, rfl⟩

/-- No value but a NaN times 2048.0 is a NaN (R12). -/
theorem F64.isNaN_mul_2048 {x : F64} (h : x.isNaN = false) : (x.mul cN2048).isNaN = false := by
  cases x with
  | nan s p => cases h
  | inf s => cases s <;> decide +kernel
  | fin s e f =>
    obtain ⟨⟨hfin, -⟩, -⟩ := quantizer_constants
    rw [mul_of_finite rfl hfin]
    obtain ⟨-, _, _, he, -⟩ | ⟨-, he⟩ :=
      roundRat_spec ((F64.fin s e f).sign ^^ cN2048.sign) ((F64.fin s e f).mag * cN2048.mag) unitsOne_pos
    · rw [he]; rfl
    · rw [he]; rfl

end Sys2Proof

namespace Sys2Proof.Machine

/-- Every output of the quantizer is k / 2048 with k in −2048..2047 (R88). -/
theorem quantize12_onGrid (x : F64) : onGrid (quantize12 x) := by
  unfold quantize12
  split
  · exact ⟨rfl, 0, by decide, by decide, by decide +kernel⟩
  · next hnan =>
    have hnan' : x.isNaN = false := Bool.eq_false_of_not_eq_true hnan
    obtain ⟨hfin, k, hlo, hhi, hk⟩ := clamp_integral (roundHalfAway_integral (isNaN_mul_2048 hnan'))
    obtain ⟨⟨hfin', h2048⟩, -⟩ := quantizer_constants
    obtain ⟨hr, hlim⟩ := representable_code hlo hhi (e := 1063) (by decide)
    have heq : k * 2 ^ 1074 * (unitsOne : Int) = k * 2 ^ 1063 * 2 ^ 1085 := by rw [unitsOne_cast]; ring
    obtain ⟨hdiv, hunits⟩ := div_units_exact hfin hfin' (by rw [h2048]; positivity) hr hlim (by rw [hk, h2048, heq])
    exact ⟨hdiv, k, hlo, hhi, hunits⟩

/-- A value k / 2048 times 2048.0 has the integer part k (R77). -/
theorem trunc_mul_2048 {q : F64} {k : Int} (hfin : q.isFinite = true) (hlo : -2048 ≤ k) (hhi : k ≤ 2047)
    (hq : q.units = k * 2 ^ 1063) : (q.mul cN2048).trunc = k := by
  obtain ⟨⟨hfin', h2048⟩, -⟩ := quantizer_constants
  obtain ⟨hr, hlim⟩ := representable_code hlo hhi (e := 1074) (by decide)
  have heq : k * 2 ^ 1063 * 2 ^ 1085 = k * 2 ^ 1074 * (unitsOne : Int) := by rw [unitsOne_cast]; ring
  obtain ⟨hmul, hunits⟩ := mul_units_exact hfin hfin' hr hlim (by rw [hq, h2048, heq])
  rw [trunc_of_finite hmul, hunits, unitsOne_cast]
  exact Int.mul_tdiv_cancel k (by positivity)

/-- The code BUFAPQ stores is the k of the quantized, clamped sample k / 2048 (R77). -/
theorem quantCode_spec (x : F64) : -2048 ≤ quantCode x ∧ quantCode x ≤ 2047 ∧
    (quantize12 (if x.isNaN then cZero else F64.min (F64.max x cNegOne) cOne)).units = quantCode x * 2 ^ 1063 := by
  unfold quantCode
  generalize (if x.isNaN then cZero else F64.min (F64.max x cNegOne) cOne) = y
  obtain ⟨hfin, k, hlo, hhi, hk⟩ := quantize12_onGrid y
  rw [trunc_mul_2048 hfin hlo hhi hk]
  exact ⟨hlo, hhi, hk⟩

end Sys2Proof.Machine

end

/-! The sample buffer commands (42_buffer.md): codes and words, the length bound, what a word write leaves, and the
results of the six commands. -/

section

open Sys2Proof Sys2Proof.Machine F64

set_option exponentiation.threshold 3000

namespace Sys2Proof.Machine

/-! ## Codes and words (R26, R58) -/

/-- A stored code is the word code × 16. -/
theorem toInt_codeWord (code : BitVec 12) : (codeWord code).toInt = code.toInt * 16 := by
  rw [codeWord, BitVec.toInt_append_zero, Int.mul_comm]
  rfl

/-- A word whose low four bits are 0 is the word of its code. -/
theorem codeWord_wordCode {w : SampleWord} (h : w.extractLsb' 0 4 = 0#4) : codeWord (wordCode w) = w := by
  rw [codeWord, wordCode, ← h]
  exact (BitVec.extractLsb'_append_extractLsb'_eq_extractLsb' (by decide)).trans BitVec.extractLsb'_eq_self

/-- BUFRD's code is the word's value over 16 (R78). -/
theorem toInt_signExtend_wordCode {w : SampleWord} (h : w.extractLsb' 0 4 = 0#4) :
    ((wordCode w).signExtend 64).toInt * 16 = w.toInt := by
  rw [BitVec.toInt_signExtend_of_le (by decide), ← toInt_codeWord, codeWord_wordCode h]

/-- An integer below 2^64 reads back from its zero-extended word (R55). -/
theorem toNat_zext64 {n : Nat} (h : n < 2 ^ 64) : (zext64 n).toNat = n := by
  rw [zext64, BitVec.toNat_ofNat, Nat.mod_eq_of_lt h]

/-! ## The length bound (R25) -/

/-- The bound is below 2^32, so LEN's 32 bits hold it (R10, R25). -/
theorem State.Inv.maxLen_lt {s : State} (h : s.Inv) : s.maxLen < 2 ^ 32 := by
  obtain ⟨-, hcap, -⟩ := h.cfgValid
  exact (Nat.min_le_left _ _).trans_lt hcap

/-- LEN never passes the bound (R25). -/
theorem State.Inv.lenOf_le {s : State} (h : s.Inv) (c : Channel) : s.lenOf c ≤ s.maxLen := (h.bufs c).1

/-- LEN is a 32-bit integer (R25). -/
theorem State.lenOf_lt (s : State) (c : Channel) : s.lenOf c < 2 ^ 32 := (s.buf c).len.isLt

/-- A valid SR_MAX is below 2^31: twice it is below 2^32 (R10). -/
theorem units_srMax_lt {p : Params} (h : paramsValid p) : p.srMax.units < 2 ^ 31 * unitsOne := by
  obtain ⟨-, -, hfin, -, hlt⟩ := h
  obtain ⟨htwo, htwosign, htwomag⟩ : cTwo.isFinite = true ∧ cTwo.sign = false ∧ cTwo.mag = 2 * unitsOne := by
    decide +kernel
  obtain ⟨hbound, hboundsign, hboundmag, -⟩ := ofInt_exact (n := 4294967296) (by decide)
  have hU := unitsOne_pos
  by_contra hge
  obtain ⟨hsign, hmag⟩ := sign_of_units_pos (x := p.srMax) (by omega)
  have hreach : (F64.ofInt 4294967296).mag * unitsOne ≤ p.srMax.mag * cTwo.mag := by
    have habs : (4294967296 : Int).natAbs = 2 ^ 32 := rfl
    rw [hboundmag, habs, htwomag, ← Nat.mul_assoc]
    exact Nat.mul_le_mul_right _ (by omega)
  have hle := le_roundRat hbound hboundsign unitsOne_pos hreach
  rw [mul_of_finite hfin htwo, hsign, htwosign, F64.lt, Bool.false_xor, hle] at hlt
  simp at hlt

/-- An accepted rate is a positive value below 2^31 (R10, R22). -/
theorem rate_range {p : Params} (hp : paramsValid p) {r : F64} (h : rateOk p r = true) :
    r.isFinite = true ∧ r.sign = false ∧ r.mag < 2 ^ 31 * unitsOne := by
  obtain ⟨honefin, honepos⟩ : cOne.isFinite = true ∧ 0 < cOne.units := by decide +kernel
  have hmax := units_srMax_lt hp
  obtain ⟨-, -, hmaxfin, -, -⟩ := hp
  simp only [rateOk, Bool.and_eq_true, Bool.not_eq_true', F64.gt] at h
  obtain ⟨⟨hfin, hlo⟩, hhi⟩ := h
  rw [lt_of_finite hfin honefin, decide_eq_false_iff_not] at hlo
  rw [lt_of_finite hmaxfin hfin, decide_eq_false_iff_not] at hhi
  obtain ⟨hsign, hmag⟩ := sign_of_units_pos (x := r) (by omega)
  exact ⟨hfin, hsign, by omega⟩

/-- Ten seconds of samples at an accepted rate are a number of samples from 0 on (R25). -/
theorem trunc_rate_mul_ten_nonneg {p : Params} (hp : paramsValid p) {r : F64} (h : rateOk p r = true) :
    0 ≤ (r.mul cTen).trunc := by
  obtain ⟨hrate, hratesign, hmag⟩ := rate_range hp h
  obtain ⟨htenfin, htensign, htenmag⟩ : cTen.isFinite = true ∧ cTen.sign = false ∧ cTen.mag = 10 * unitsOne := by
    decide +kernel
  obtain ⟨-, -, hmagbound, -⟩ := ofInt_exact (n := 10 * 2 ^ 31) (by decide)
  have habs : (10 * 2 ^ 31 : Int).natAbs = 10 * 2 ^ 31 := rfl
  have hprod : r.mag * cTen.mag ≤ (F64.ofInt (10 * 2 ^ 31)).mag * unitsOne := by
    rw [htenmag, hmagbound, habs, ← Nat.mul_assoc]
    exact Nat.mul_le_mul_right _ (by omega)
  obtain ⟨hfin, hsign, -⟩ := mul_bounds (lo := cZero) hrate htenfin (Nat.zero_le _) hprod
  rw [hratesign, htensign] at hsign
  rw [trunc_of_finite hfin, units_of_sign hsign]
  exact Int.tdiv_nonneg (Int.natCast_nonneg _) (Int.natCast_nonneg _)

/-- The bound as R79 gives it: min(BUF_CAP, trunc(RATE × 10.0)). -/
theorem State.Inv.maxLen_eq {s : State} (h : s.Inv) :
    (s.maxLen : Int) = min (s.cfg.bufCap : Int) (s.rate.mul (F64.ofInt 10)).trunc := by
  have hten : F64.ofInt 10 = cTen := by decide +kernel
  have hnonneg := trunc_rate_mul_ten_nonneg h.cfgValid h.rateValid
  rw [hten, ← Int.toNat_of_nonneg hnonneg]
  exact Nat.cast_min _ _

/-! ## Word writes -/

/-- What MemWrite of the word w at index a of buffer c leaves (R38): the word, LEN one more in an append, every other
readable word, every byte but the word's two, and all else but the response as it was. -/
structure WordWritten (s t : State) (c : Channel) (a : Nat) (w : SampleWord) : Prop where
  len : t.lenOf c = if a = s.lenOf c then s.lenOf c + 1 else s.lenOf c
  word : (t.buf c).memRead a = some w
  otherWords : ∀ x < s.lenOf c, x ≠ a → (t.buf c).memRead x = (s.buf c).memRead x
  otherBytes : ∀ d x, d ≠ c ∨ x / 2 ≠ a → t.byteAt d x = s.byteAt d x
  otherBufs : ∀ d, d ≠ c → t.buf d = s.buf d
  frame : t = { s with bufs := t.bufs, response := t.response }

/-- MemWrite at an index up to LEN, below the bound for an append, writes its word. -/
theorem State.Inv.wordWritten {s : State} (h : s.Inv) {c : Channel} {a : Nat} (w : SampleWord)
    (ha : a < s.lenOf c ∨ a = s.lenOf c ∧ s.lenOf c < s.maxLen) (r0 r1 : Word) :
    WordWritten s ((s.memWrite c a w).respond .ok r0 r1) c a w := by
  have hle : a ≤ (s.buf c).len.toNat := by unfold State.lenOf at ha; omega
  have hroom : a = (s.buf c).len.toNat → (s.buf c).len.toNat < 2 ^ 32 - 1 := by
    have := h.maxLen_lt
    unfold State.lenOf at ha
    omega
  refine ⟨?_, ?_, fun x hx hne => ?_, fun d x => s.byteAt_memWrite c d a x w,
    fun d hd => s.buf_memWrite_ne a w (Ne.symm hd), rfl⟩
  · unfold State.lenOf
    rw [State.buf_respond, State.buf_memWrite_self, Buffer.memWrite_len]
    split
    · next heq =>
      have := hroom heq
      have hone : (1 : BitVec 32).toNat = 1 := rfl
      rw [BitVec.toNat_add_of_lt (by omega), hone]
    · rfl
  · rw [State.buf_respond, State.buf_memWrite_self]
    exact Buffer.memRead_memWrite_self _ w hle hroom
  · rw [State.buf_respond, State.buf_memWrite_self]
    exact Buffer.memRead_memWrite_ne _ w hx hne hroom

/-- Where BUFWR may write (R75). -/
theorem State.mayWrite_iff {s : State} {c : Channel} {a : Nat} :
    s.mayWrite c a = true ↔ a < s.lenOf c ∨ a = s.lenOf c ∧ s.lenOf c < s.maxLen := by
  simp [State.mayWrite]

/-! ## An empty buffer (R74) -/

/-- A new length writes no byte of any buffer. -/
theorem State.byteAt_setBuf_len (s : State) (c d : Channel) (n : BitVec 32) (a : Nat) :
    (s.setBuf c { s.buf c with len := n }).byteAt d a = s.byteAt d a := by
  unfold State.byteAt
  by_cases h : c = d
  · rw [← h, State.buf_setBuf_self]
  · rw [State.buf_setBuf_ne s _ h]

/-- A voice at a position of 0.0 or more has passed the end of an empty buffer (R84). -/
theorem Voice.engineFinished_empty {v : Voice} {b : Buffer} (hlen : b.len = 0) (hpos : cZero.le v.pos = true)
    (e : F64) : v.engineFinished b e = true := by
  have hzero : b.lenF64 = cZero := by
    rw [Buffer.lenF64, hlen]
    decide +kernel
  rw [Voice.engineFinished, hzero, F64.ge, F64.ge, hpos, Bool.or_true]

/-- Every buffer is empty at reset (R150). -/
theorem State.lenOf_reset (c : Channel) : State.reset.lenOf c = 0 := by
  simp [State.lenOf, State.buf, State.reset, Buffer.reset]

/-- The bound at reset (R79). -/
theorem State.maxLen_reset : State.reset.maxLen = 441000 := by decide +kernel

end Sys2Proof.Machine

/-- Settles O22: BUFCLR replaces one buffer by itself with LEN 0. -/
theorem bufclrResult : Obligations.BufclrResult := by
  unfold Obligations.BufclrResult
  intro s ch
  obtain ⟨t, ht⟩ : ∃ t, t = (s.setBuf (chan ch) { s.buf (chan ch) with len := 0 }).respond .ok 0 0 := ⟨_, rfl⟩
  have hlen : (t.buf (chan ch)).len = 0 := by rw [ht, State.buf_respond, State.buf_setBuf_self]
  have hempty : t.lenOf (chan ch) = 0 := congrArg BitVec.toNat hlen
  refine ⟨t, by rw [ht, exec_bufclr], by rw [ht]; rfl, hempty, fun c a => ?_, fun c hc => ?_, by rw [ht]; rfl,
    fun d0 => exec_bufrd_refused (by omega), fun hpos => Voice.engineFinished_empty hlen (by rw [ht]; exact hpos) _⟩
  · rw [ht]
    exact s.byteAt_setBuf_len (chan ch) c 0 a
  · rw [ht, State.buf_respond, State.buf_setBuf_ne s _ hc.symm]

/-- Settles O23: BUFWR writes the word of its code exactly where `State.mayWrite` lets it. -/
theorem bufwrResult : Obligations.BufwrResult := by
  unfold Obligations.BufwrResult
  intro s ch code d0 hinv
  rw [exec_bufwr]
  refine ⟨fun hmay => ⟨_, codeWord code, if_pos (State.mayWrite_iff.mpr hmay), rfl, ?_⟩,
    fun hnot => if_neg (mt State.mayWrite_iff.mp (by omega))⟩
  obtain ⟨hlen, hword, hwords, hbytes, hbufs, hframe⟩ := hinv.wordWritten (codeWord code) hmay 0 0
  exact ⟨hlen, hword, toInt_codeWord code, hwords, hbytes, hbufs, hframe⟩

/-- Settles O24: below the bound BUFAPP writes the word of its code at LEN. -/
theorem bufappResult : Obligations.BufappResult := by
  unfold Obligations.BufappResult
  intro s ch code hinv
  rw [exec_bufapp]
  refine ⟨fun hroom => ⟨_, codeWord code, if_neg (Nat.not_le.mpr hroom), rfl, ?_⟩, fun hfull => if_pos hfull.ge⟩
  obtain ⟨hlen, hword, hwords, hbytes, hbufs, hframe⟩ :=
    hinv.wordWritten (codeWord code) (.inr ⟨rfl, hroom⟩) (zext64 (s.lenOf (chan ch))) 0
  have hlt := s.lenOf_lt (chan ch)
  exact ⟨toNat_zext64 (by omega), rfl, hlen.trans (if_pos rfl), hword, toInt_codeWord code,
    fun a ha => hwords a ha ha.ne, hbytes, hbufs, hframe⟩

/-- Settles O25: below the bound BUFAPQ writes sixteen times the code of its sample at LEN; that code fits 12 bits. -/
theorem bufapqResult : Obligations.BufapqResult := by
  unfold Obligations.BufapqResult
  intro s ch d0 hinv
  rw [exec_bufapq]
  refine ⟨fun hroom => ?_, fun hfull => if_pos hfull.ge⟩
  obtain ⟨hlo, hhi, hunits⟩ := quantCode_spec (f64 d0)
  generalize quantCode (f64 d0) = k at hlo hhi hunits ⊢
  obtain ⟨hlen, hword, hwords, hbytes, hbufs, hframe⟩ :=
    hinv.wordWritten (BitVec.ofInt 16 (k * 16)) (.inr ⟨rfl, hroom⟩) (zext64 (s.lenOf (chan ch))) (sext64 k)
  have hlt := s.lenOf_lt (chan ch)
  exact ⟨_, _, k, _, rfl, hunits, hlo, hhi, if_neg (Nat.not_le.mpr hroom), rfl, toNat_zext64 (by omega),
    BitVec.toInt_ofInt_eq_self (by decide) (by omega) (by omega), hlen.trans (if_pos rfl), hword,
    BitVec.toInt_ofInt_eq_self (by decide) (by omega) (by omega), fun a ha => hwords a ha ha.ne, hbytes, hbufs,
    hframe⟩

/-- Settles O26: below LEN a sound buffer holds a word that is 16 times its code; from LEN on BUFRD is refused. -/
theorem bufrdResult : Obligations.BufrdResult := by
  unfold Obligations.BufrdResult
  intro s ch d0 hinv
  refine ⟨fun hlt => ?_, exec_bufrd_refused⟩
  obtain ⟨-, -, -, hwords⟩ := hinv.bufs (chan ch)
  obtain ⟨w, hw, hlow⟩ := hwords d0.toNat hlt
  exact ⟨w, _, _, hw, exec_bufrd_of_word hw, toNat_zext64 (by omega), toInt_signExtend_wordCode hlow⟩

/-- Settles O27: BUFLEN answers LEN and the bound, which 32 bits hold. -/
theorem buflenResult : Obligations.BuflenResult := by
  unfold Obligations.BuflenResult
  refine ⟨fun s ch hinv => ?_, fun ch => ?_⟩
  · have hmax := hinv.maxLen_lt
    have hle := hinv.lenOf_le (chan ch)
    have h0 : (zext64 (s.lenOf (chan ch))).toNat = s.lenOf (chan ch) := toNat_zext64 (by omega)
    have h1 : (zext64 s.maxLen).toNat = s.maxLen := toNat_zext64 (by omega)
    exact ⟨_, _, exec_buflen ch s, h0, by rw [h1, hinv.maxLen_eq], by rw [h0, h1]; exact hle⟩
  · rw [exec_buflen, State.lenOf_reset, State.maxLen_reset]
    rfl

end

/-! Fractions (43_sample_engine.md): a product with a factor from 0.0 to 1.0 stays between zero and the other factor,
and sample values and their differences are exact. -/

section

open Sys2Proof Sys2Proof.Machine F64

set_option exponentiation.threshold 3000

namespace Sys2Proof

/-! ## Order (R13) -/

/-- 0.0 in units. -/
@[simp] theorem F64.units_cZero : cZero.units = 0 := by decide +kernel

/-- 1.0 in units. -/
@[simp] theorem F64.units_cOne : cOne.units = unitsOne := by decide +kernel

/-- +0.0 is the constant of the pseudocode. -/
theorem F64.zero_false : F64.zero false = cZero := by decide

/-- Finite values are in order as their exact values. -/
theorem F64.le_iff_of_finite {x y : F64} (hx : x.isFinite = true) (hy : y.isFinite = true) :
    x.le y = true ↔ x.units ≤ y.units := by
  rw [le_of_finite hx hy, decide_eq_true_eq]

/-- What an order of two values says of them: an infinity at its end, or two finite values in order. -/
theorem F64.le_cases {x y : F64} (h : x.le y = true) :
    x = .inf true ∨ y = .inf false ∨ x.isFinite = true ∧ y.isFinite = true ∧ x.units ≤ y.units := by
  match x, y, h with
  | .inf true, _, _ => exact .inl rfl
  | .inf false, .inf false, _ => exact .inr (.inl rfl)
  | .fin _ _ _, .inf false, _ => exact .inr (.inl rfl)
  | .fin _ _ _, .fin _ _ _, h => exact .inr (.inr ⟨rfl, rfl, of_decide_eq_true h⟩)

/-- A floor is that of a finite value, which it does not exceed and which lies less than 1.0 above it. -/
theorem F64.floor_eq_some {x : F64} {i : Int} (h : x.floor = some i) :
    x.isFinite = true ∧ i * unitsOne ≤ x.units ∧ x.units < i * unitsOne + unitsOne := by
  have hx : x.isFinite = true := by
    by_contra hc
    unfold F64.floor at h
    rw [if_neg hc] at h
    cases h
  have hpos : (0 : Int) < unitsOne := by exact_mod_cast unitsOne_pos
  have hlt := Int.lt_ediv_add_one_mul_self x.units hpos
  rw [Int.add_mul, Int.one_mul] at hlt
  rw [floor_of_finite hx, Option.some.injEq] at h
  rw [← h]
  exact ⟨hx, Int.ediv_mul_le _ hpos.ne', hlt⟩

/-! ## Products with a fraction (R12) -/

/-- A finite value from 0.0 to 1.0. -/
structure F64.Fraction (x : F64) : Prop where
  finite : x.isFinite = true
  nonneg : 0 ≤ x.units
  le_one : x.units ≤ unitsOne

/-- Products of finite values do not depend on the order of the factors. -/
theorem F64.mul_comm_of_finite {x y : F64} (hx : x.isFinite = true) (hy : y.isFinite = true) : x.mul y = y.mul x := by
  rw [mul_of_finite hx hy, mul_of_finite hy hx, Bool.xor_comm, Nat.mul_comm]

/-- A zero times a finite value is a zero. -/
theorem F64.mul_units_zero {x y : F64} (hx : x.isFinite = true) (hy : y.isFinite = true) (h : x.units = 0) :
    (x.mul y).isFinite = true ∧ (x.mul y).units = 0 :=
  mul_units_exact hx hy ⟨0, 0, by decide, rfl⟩ ((Nat.zero_le _).trans_lt (mag_lt x)) (by simp [h])

/-- A fraction of a finite value lies between zero and the value. -/
theorem F64.Fraction.mul {x y : F64} (hx : x.Fraction) (hy : y.isFinite = true) :
    (x.mul y).isFinite = true ∧ (0 ≤ y.units → 0 ≤ (x.mul y).units ∧ (x.mul y).units ≤ y.units) ∧
      (y.units ≤ 0 → y.units ≤ (x.mul y).units ∧ (x.mul y).units ≤ 0) := by
  obtain ⟨hfin, h0, h1⟩ := hx
  obtain h0 | h0 := h0.eq_or_lt
  · obtain ⟨hprod, hunits⟩ := mul_units_zero hfin hy h0.symm
    rw [hunits]
    exact ⟨hprod, fun h => ⟨le_rfl, h⟩, fun h => ⟨h, le_rfl⟩⟩
  · obtain ⟨hsign, hmag⟩ := sign_of_units_pos h0
    have hle : x.mag * y.mag ≤ y.mag * unitsOne := by
      rw [Nat.mul_comm]
      exact Nat.mul_le_mul_left _ (by omega)
    obtain ⟨hprod, hs, -, hhi⟩ := mul_bounds (lo := F64.zero false) hfin hy (by simp [F64.zero]) hle
    rw [hsign, Bool.false_xor] at hs
    rw [units_of_sign hs, units_of_sign (x := y) rfl]
    refine ⟨hprod, ?_⟩
    cases y.sign
    · simp only [Bool.false_eq_true, if_false]; omega
    · simp only [if_true]; omega

/-- The magnitude of a product grows with its first factor. -/
theorem F64.mag_mul_mono {x y z : F64} (hx : x.isFinite = true) (hy : y.isFinite = true) (hz : z.isFinite = true)
    (hxz : (x.mul z).isFinite = true) (hyz : (y.mul z).isFinite = true) (h : x.mag ≤ y.mag) :
    (x.mul z).mag ≤ (y.mul z).mag := by
  have hmag : ∀ {s : Bool} {n : Nat}, (roundRat s n unitsOne).isFinite = true →
      (roundRat s n unitsOne).mag = roundMag n unitsOne := by
    intro s n hfin
    obtain ⟨-, -, -, -, hm⟩ | ⟨-, he⟩ := roundRat_spec s n unitsOne_pos
    · exact hm
    · rw [he] at hfin; cases hfin
  rw [mul_of_finite hx hz] at hxz ⊢
  rw [mul_of_finite hy hz] at hyz ⊢
  rw [hmag hxz, hmag hyz]
  exact roundMag_mono unitsOne_pos unitsOne_pos (Nat.mul_le_mul_right _ (Nat.mul_le_mul_right _ h))

/-- `norm(n)` is a fraction (R16). -/
theorem normParam_fraction (n : Param) : (normParam n).Fraction := by
  have hn : n.toNat ≤ 127 := by omega
  obtain ⟨hfin, hsign, -, hhi⟩ := roundRat_bounds false (num := n.toNat * unitsOne) (den := 127) (lo := 0)
    (hi := unitsOne) (by decide) ⟨0, 0, by decide, rfl⟩ ⟨1, 1074, by decide, (Nat.one_mul _).symm⟩ (Nat.zero_le _)
    (by rw [Nat.mul_comm]; exact Nat.mul_le_mul_left _ hn) (pow_lt_limit (n := 1074) (by decide))
  rw [← normParam_eq_roundRat] at hfin hsign hhi
  have hunits := units_of_sign hsign
  rw [if_neg Bool.false_ne_true] at hunits
  exact ⟨hfin, by omega, by omega⟩

/-- Fractions in order are in order as numbers of units. -/
theorem F64.fraction_of_le {e f : F64} (h0 : cZero.le e = true) (hef : e.le f = true) (h1 : f.le cOne = true) :
    e.Fraction ∧ f.Fraction ∧ e.units ≤ f.units := by
  have hzero := units_cZero
  have hone := units_cOne
  obtain rfl | rfl | ⟨he, hf, hef⟩ := le_cases hef
  · cases h0
  · cases h1
  · obtain h | rfl | ⟨-, -, h0⟩ := le_cases h0
    · cases h
    · cases he
    obtain rfl | h | ⟨-, -, h1⟩ := le_cases h1
    · cases hf
    · cases h
    exact ⟨⟨he, by omega, by omega⟩, ⟨hf, by omega, by omega⟩, hef⟩

end Sys2Proof

namespace Sys2Proof.Machine

/-! ## Sample values and the length (R80, R82) -/

/-- 32768.0 in units. -/
theorem cN32768_spec : cN32768.isFinite = true ∧ cN32768.units = 2 ^ 15 * 2 ^ 1074 := by decide +kernel

/-- An integer below 2^53 over 32768 is exact. -/
theorem ofInt_div_32768 {n : Int} (h : n.natAbs < 2 ^ 53) :
    ((F64.ofInt n).div cN32768).isFinite = true ∧ ((F64.ofInt n).div cN32768).units = n * 2 ^ 1059 := by
  obtain ⟨hfin, -, -, hunits⟩ := ofInt_exact h
  obtain ⟨hfin', hunits'⟩ := cN32768_spec
  have habs : (n * 2 ^ 1059).natAbs = n.natAbs * 2 ^ 1059 := by rw [Int.natAbs_mul, Int.natAbs_pow]; rfl
  refine div_units_exact hfin hfin' (by rw [hunits']; positivity) ?_ ?_ ?_
  · rw [habs]
    exact ⟨_, 1059, h, rfl⟩
  · rw [habs]
    calc n.natAbs * 2 ^ 1059 < 2 ^ 53 * 2 ^ 1059 := Nat.mul_lt_mul_of_pos_right h (by positivity)
      _ = 2 ^ (53 + 1059) := (pow_add _ _ _).symm
      _ ≤ unitsLimit := pow_le_limit (by decide)
  · rw [hunits, hunits', unitsOne_cast]
    ring

/-- The sample value of a word is the word over 32768, exactly (R82). -/
theorem sampleValue_spec (w : SampleWord) :
    (sampleValue w).isFinite = true ∧ (sampleValue w).units = w.toInt * 2 ^ 1059 := by
  have hlo := BitVec.le_toInt w
  have hhi := BitVec.toInt_lt (x := w)
  exact ofInt_div_32768 (n := w.toInt) (by omega)

/-- The difference of two sample values is exact. -/
theorem sampleValue_sub_spec (w1 w2 : SampleWord) :
    ((sampleValue w2).sub (sampleValue w1)).isFinite = true ∧
      ((sampleValue w2).sub (sampleValue w1)).units = w2.toInt * 2 ^ 1059 - w1.toInt * 2 ^ 1059 := by
  have hlo1 := BitVec.le_toInt w1
  have hhi1 := BitVec.toInt_lt (x := w1)
  have hlo2 := BitVec.le_toInt w2
  have hhi2 := BitVec.toInt_lt (x := w2)
  obtain ⟨hfin1, hunits1⟩ := sampleValue_spec w1
  obtain ⟨hfin2, hunits2⟩ := sampleValue_spec w2
  obtain ⟨-, hunits⟩ := ofInt_div_32768 (n := w2.toInt - w1.toInt) (by omega)
  have heq : ((F64.ofInt (w2.toInt - w1.toInt)).div cN32768).units =
      (sampleValue w2).units - (sampleValue w1).units := by
    rw [hunits, hunits1, hunits2, sub_mul]
  obtain ⟨hfin, hle, hge⟩ := sub_bounds hfin2 hfin1 heq.le heq.ge
  exact ⟨hfin, by rw [← hunits1, ← hunits2, ← heq]; exact le_antisymm hge hle⟩

/-- L is LEN, exactly (R80). -/
theorem Buffer.lenF64_spec (b : Buffer) :
    b.lenF64.isFinite = true ∧ b.lenF64.sign = false ∧ b.lenF64.units = b.len.toNat * 2 ^ 1074 := by
  obtain ⟨hfin, hsign, -, hunits⟩ := ofInt_exact (n := b.len.toNat) (by omega)
  exact ⟨hfin, hsign.trans (decide_eq_false (by omega)), hunits⟩

end Sys2Proof.Machine

end

/-! The read of the sample engine (43_sample_engine.md): a position exceeds its floor by a fraction, so the interpolated
value lies between its two sample values (R82), and the fractions of L that the trigger and the end of a region compare
are in the order of their fractions (R81, R84). -/

section

open Sys2Proof Sys2Proof.Machine

set_option exponentiation.threshold 3000

namespace Sys2Proof.Machine

/-! ## The interpolated value (R82) -/

/-- What a position exceeds its floor by is a fraction, and a zero at a whole position. -/
theorem position_fraction {x : F64} {i : Nat} (hi : x.floor = some (i : Int)) (h : i < 2 ^ 53) :
    (x.sub (F64.ofInt i)).Fraction ∧ (x.units = (i : Int) * 2 ^ 1074 → (x.sub (F64.ofInt i)).units = 0) := by
  obtain ⟨hx, hlo, hhi⟩ := F64.floor_eq_some hi
  obtain ⟨hfin, -, -, hunits⟩ := F64.ofInt_exact (n := i) (by omega)
  rw [← F64.unitsOne_cast] at hunits ⊢
  have hzero := F64.units_cZero
  have hone := F64.units_cOne
  obtain ⟨hfin', h0, h1⟩ := F64.sub_bounds (lo := F64.cZero) (hi := F64.cOne) hx hfin (by omega) (by omega)
  refine ⟨⟨hfin', by omega, by omega⟩, fun he => ?_⟩
  obtain ⟨-, h0, h1⟩ := F64.sub_bounds (lo := F64.cZero) (hi := F64.cZero) hx hfin (by omega) (by omega)
  omega

/-- The interpolated value lies between its two sample values, and is the first where the fraction is a zero (R82). -/
theorem interpolate_between (w1 w2 : SampleWord) {frac : F64} (hfrac : frac.Fraction) :
    (interpolate w1 w2 frac).isFinite = true ∧
      min (w1.toInt * 2 ^ 1059) (w2.toInt * 2 ^ 1059) ≤ (interpolate w1 w2 frac).units ∧
      (interpolate w1 w2 frac).units ≤ max (w1.toInt * 2 ^ 1059) (w2.toInt * 2 ^ 1059) ∧
      (frac.units = 0 → (interpolate w1 w2 frac).units = w1.toInt * 2 ^ 1059) := by
  obtain ⟨hs1, hunits1⟩ := sampleValue_spec w1
  obtain ⟨-, hunits2⟩ := sampleValue_spec w2
  obtain ⟨hdiff, hd⟩ := sampleValue_sub_spec w1 w2
  obtain ⟨hprod, hup, hdown⟩ := hfrac.mul hdiff
  rw [interpolate, F64.mul_comm_of_finite hdiff hfrac.finite]
  rw [← hunits1, ← hunits2] at hd ⊢
  have hwhole (h : frac.units = 0) :
      ((sampleValue w1).add (frac.mul ((sampleValue w2).sub (sampleValue w1)))).units = (sampleValue w1).units := by
    obtain ⟨-, hzero⟩ := F64.mul_units_zero hfrac.finite hdiff h
    obtain ⟨-, hlo, hhi⟩ :=
      F64.add_bounds (lo := sampleValue w1) (hi := sampleValue w1) hs1 hprod (by omega) (by omega)
    exact le_antisymm hhi hlo
  obtain h | h := le_total (sampleValue w1).units (sampleValue w2).units
  · rw [min_eq_left h, max_eq_right h]
    obtain ⟨hp0, hp1⟩ := hup (by omega)
    obtain ⟨hfin, hlo, hhi⟩ :=
      F64.add_bounds (lo := sampleValue w1) (hi := sampleValue w2) hs1 hprod (by omega) (by omega)
    exact ⟨hfin, hlo, hhi, hwhole⟩
  · rw [min_eq_right h, max_eq_left h]
    obtain ⟨hp0, hp1⟩ := hdown (by omega)
    obtain ⟨hfin, hlo, hhi⟩ :=
      F64.add_bounds (lo := sampleValue w2) (hi := sampleValue w1) hs1 hprod (by omega) (by omega)
    exact ⟨hfin, hlo, hhi, hwhole⟩

/-! ## The outcomes of a read (R82) -/

/-- The read of an empty buffer (R82). -/
theorem Voice.readInterpolated_of_empty (v : Voice) {b : Buffer} (c : Channel) (r : F64) (h : b.len.toNat = 0) :
    v.readInterpolated b c r = .ok (F64.cZero, v) := by
  rw [Voice.readInterpolated, if_pos h]

/-- The read at or past the last sample (R82). -/
theorem Voice.readInterpolated_of_last (v : Voice) {b : Buffer} (c : Channel) (r : F64) {i : Int}
    (hi : v.pos.floor = some i) (h : (b.len.toNat : Int) - 1 ≤ i) :
    v.readInterpolated b c r = .ok (F64.cZero, v) := by
  unfold Voice.readInterpolated
  rw [hi]
  split
  · rfl
  · exact if_pos h

/-- The read before the last sample (R82). -/
theorem Voice.readInterpolated_of_bracket (v : Voice) {b : Buffer} (c : Channel) (r : F64) {i : Nat}
    {w1 w2 : SampleWord} (hi : v.pos.floor = some (i : Int)) (h : i + 1 < b.len.toNat) (h1 : b.memRead i = some w1)
    (h2 : b.memRead (i + 1) = some w2) :
    v.readInterpolated b c r = .ok (interpolate w1 w2 (v.pos.sub (F64.ofInt i)), { v with pos := v.pos.add r }) := by
  unfold Voice.readInterpolated
  rw [if_neg (by omega), hi]
  dsimp only
  rw [if_neg (by omega), if_neg (by omega), Int.toNat_natCast, Buffer.bracket, h1, h2]

/-! ## Positions (R81, R84) -/

/-- A fraction of L lies from 0.0 to L. -/
theorem fraction_mul_lenF64 {f : F64} (b : Buffer) (hf : f.Fraction) :
    (f.mul b.lenF64).isFinite = true ∧ 0 ≤ (f.mul b.lenF64).units ∧ (f.mul b.lenF64).units ≤ b.lenF64.units := by
  obtain ⟨hL, -, hlen⟩ := b.lenF64_spec
  obtain ⟨hfin, hrange, -⟩ := hf.mul hL
  exact ⟨hfin, hrange (by rw [hlen]; positivity)⟩

/-- The start position of a fraction of L is that fraction: the clamp to 0.0..L changes nothing (R81). -/
theorem clamp_fraction {f : F64} (b : Buffer) (hf : f.Fraction) :
    F64.min (F64.max (f.mul b.lenF64) F64.cZero) b.lenF64 = f.mul b.lenF64 := by
  obtain ⟨hL, -, -⟩ := b.lenF64_spec
  obtain ⟨hfin, hlo, hhi⟩ := fraction_mul_lenF64 b hf
  have hmax : F64.cZero.le (f.mul b.lenF64) = true := by rwa [F64.le_iff_of_finite rfl hfin, F64.units_cZero]
  have hmin : (f.mul b.lenF64).le b.lenF64 = true := (F64.le_iff_of_finite hfin hL).mpr hhi
  rw [F64.max, F64.ge, if_pos hmax, F64.min, if_pos hmin]

/-- A fraction of L grows with the fraction (R81, R84). -/
theorem mul_lenF64_mono {e f : F64} (b : Buffer) (he : e.Fraction) (hf : f.Fraction) (hef : e.units ≤ f.units) :
    (e.mul b.lenF64).le (f.mul b.lenF64) = true := by
  obtain ⟨hL, -, -⟩ := b.lenF64_spec
  obtain ⟨hefin, he0, -⟩ := fraction_mul_lenF64 b he
  obtain ⟨hffin, hf0, -⟩ := fraction_mul_lenF64 b hf
  have hmag : e.mag ≤ f.mag := by
    rw [← F64.natAbs_units e, ← F64.natAbs_units f]
    have := he.nonneg
    omega
  have hmono := F64.mag_mul_mono he.finite hf.finite hL hefin hffin hmag
  rw [← F64.natAbs_units, ← F64.natAbs_units (f.mul _)] at hmono
  rw [F64.le_iff_of_finite hefin hffin]
  omega

/-- 0.0 x L is +0.0 (R84). -/
theorem cZero_mul_lenF64 (b : Buffer) : F64.cZero.mul b.lenF64 = F64.cZero := by
  obtain ⟨hL, hsign, -⟩ := b.lenF64_spec
  have hmag : F64.cZero.mag = 0 := by decide +kernel
  obtain ⟨hfin, hs, -, hle⟩ := F64.mul_bounds (x := F64.cZero) (lo := F64.cZero) (hi := F64.cZero) rfl hL
    (by simp [hmag]) (by simp [hmag])
  rw [hsign, Bool.xor_false] at hs
  exact F64.ext_finite hfin rfl hs (by omega)

/-- When a region is finished (R84). -/
theorem Voice.engineFinished_iff (v : Voice) (b : Buffer) (e : F64) :
    v.engineFinished b e = true ↔ (e.mul b.lenF64).le v.pos = true ∨ b.lenF64.le v.pos = true := by
  simp [Voice.engineFinished, F64.ge]

end Sys2Proof.Machine

end

/-! One step of a voice forward, by its cases (43_sample_engine.md R83, 46_voice.md R121), what it leaves of POS (R85),
and which commands run one. -/

section

open Sys2Proof Sys2Proof.Machine

set_option exponentiation.threshold 3000

namespace Sys2Proof.Machine

/-! ## One step of a voice, forward (R83, R121) -/

/-- An inactive voice is silent and kept (R121). -/
theorem Voice.stepPlay_of_inactive {v : Voice} (b : Buffer) (c : Channel) (h : v.active = false) :
    v.stepPlay b c = .ok (F64.cZero, v) := by
  rw [Voice.stepPlay, if_pos h]

/-- A finished voice loses ACTIVE (R125). -/
theorem Voice.stepPlay_of_finished {v : Voice} {b : Buffer} (c : Channel) (h : v.active = true)
    (hf : v.engineFinished b v.endFrac = true) : v.stepPlay b c = .ok (F64.cZero, { v with active := false }) := by
  rw [Voice.stepPlay, if_neg (by simp [h]), if_pos hf]

/-- The reducer with amount 0 passes its input on and writes nothing (R91). -/
theorem Voice.srr_of_zero (v : Voice) (x : F64) {s : Param} (h : s = 0) : v.srr x s = (x, v) := by
  rw [Voice.srr, if_pos h]

/-- A playing voice: the read, the quantizer, the reducer, the level and volume, and last the envelope (R83, R121). -/
theorem Voice.stepPlay_of_playing {v v' w : Voice} {b : Buffer} {c : Channel} {z x : F64} (h : v.active = true)
    (hf : v.engineFinished b v.endFrac = false) (hr : v.readInterpolated b c v.ratio = .ok (z, v'))
    (hs : v'.srr (quantize12 z) v.srrAmt = (x, w)) :
    v.stepPlay b c = .ok ((x.mul v.env).mul v.volume, w.stepEnvelope) := by
  have hread : v.readWithLoFi b c v.ratio v.srrAmt = .ok (x, w) := by rw [Voice.readWithLoFi, hr, ← hs]
  have hframe := Voice.readWithLoFi_frame hread
  have henv : w.env = v.env := by rw [hframe]
  have hvol : w.volume = v.volume := by rw [hframe]; rfl
  rw [Voice.stepPlay, if_neg (by simp [h]), if_neg (by simp [hf]), hread]
  simp only [henv, hvol]

/-- A voice that can read can step. -/
theorem Voice.stepPlay_exists {v v' : Voice} {b : Buffer} {c : Channel} {z : F64}
    (hr : v.readInterpolated b c v.ratio = .ok (z, v')) : ∃ y w, v.stepPlay b c = .ok (y, w) := by
  cases ha : v.active with
  | false => exact ⟨_, _, Voice.stepPlay_of_inactive b c ha⟩
  | true =>
    cases hf : v.engineFinished b v.endFrac with
    | true => exact ⟨_, _, Voice.stepPlay_of_finished c ha hf⟩
    | false => exact ⟨_, _, Voice.stepPlay_of_playing ha hf hr Prod.mk.eta.symm⟩

/-- A sound position is a finite number of units from 0 up (R27). -/
theorem voiceOk_pos {p : Params} {v : Voice} (h : voiceOk p v) : v.pos.isFinite = true ∧ 0 ≤ v.pos.units := by
  obtain ⟨⟨⟨hfin, hle⟩, -⟩, -⟩ := h
  rw [F64.le_iff_of_finite rfl hfin, F64.units_cZero] at hle
  exact ⟨hfin, hle⟩

/-- The restart sets POS to the start fraction of L (R81, R119). -/
theorem Voice.internalTrigger_pos (v : Voice) (rate : F64) (b : Buffer) :
    (v.internalTrigger rate b).pos = v.startFrac.mul b.lenF64 := by
  rw [Voice.internalTrigger_eq]
  exact clamp_fraction b (normParam_fraction _)

/-- The retrigger stage keeps POS finite and not negative (R122). -/
theorem Voice.stepRetrigger_pos {v : Voice} (rate : F64) (b : Buffer) (hfin : v.pos.isFinite = true)
    (h0 : 0 ≤ v.pos.units) :
    (v.stepRetrigger rate b).pos.isFinite = true ∧ 0 ≤ (v.stepRetrigger rate b).pos.units := by
  obtain ⟨-, e⟩ | ⟨-, -, e⟩ | ⟨-, -, e⟩ := v.stepRetrigger_cases rate b
  · rw [e]
    exact ⟨hfin, h0⟩
  · rw [e]
    exact ⟨hfin, h0⟩
  · obtain ⟨hpos, hlo, -⟩ := fraction_mul_lenF64 b (normParam_fraction (v.snapAt 0))
    rw [e, Voice.internalTrigger_pos]
    exact ⟨hpos, hlo⟩

/-- Every voice of a sound state can read after its retrigger stage (R156). -/
theorem State.Inv.read_exists {s : State} (h : s.Inv) (c : Channel) (r : F64) :
    ∃ z v, ((s.voice c).stepRetrigger s.rate (s.buf c)).readInterpolated (s.buf c) c r = .ok (z, v) := by
  obtain ⟨hfin, h0⟩ := voiceOk_pos (h.voices c)
  obtain ⟨hfin', h0'⟩ := Voice.stepRetrigger_pos s.rate (s.buf c) hfin h0
  obtain ⟨-, -, -, hwords⟩ := h.bufs c
  exact Voice.readInterpolated_exists _ _ c r (F64.floor_of_finite hfin')
    (Int.ediv_nonneg h0' (Int.natCast_nonneg _)) fun a ha => (hwords a ha).imp fun _ hw => hw.1

/-! ## The position after a step (R85) -/

/-- The reducer keeps POS (R91). -/
@[simp] theorem Voice.srr_pos (v : Voice) (x : F64) (s : Param) : (v.srr x s).2.pos = v.pos := by
  rw [Voice.srr_frame]

/-- The envelope stage keeps POS (R123). -/
@[simp] theorem Voice.stepEnvelope_pos (v : Voice) : v.stepEnvelope.pos = v.pos := by
  rw [Voice.stepEnvelope_frame]

/-- The envelope stage keeps RTRGREM (R123). -/
@[simp] theorem Voice.stepEnvelope_rtrgRem (v : Voice) : v.stepEnvelope.rtrgRem = v.rtrgRem := by
  rw [Voice.stepEnvelope_frame]

/-- A step after its retrigger stage keeps RTRGREM, and keeps POS or adds the ratio below the last sample (R85). -/
theorem Voice.stepPlay_pos {v v' : Voice} {b : Buffer} {c : Channel} {y : F64} (h : v.stepPlay b c = .ok (y, v')) :
    v'.rtrgRem = v.rtrgRem ∧ (v'.pos = v.pos ∨
      v'.pos = v.pos.add v.ratio ∧ ∃ i : Nat, v.pos.floor = some (i : Int) ∧ i + 1 < b.len.toNat) := by
  obtain ⟨-, -, rfl⟩ | ⟨-, -, -, rfl⟩ | ⟨-, -, x, u, hr, -, rfl⟩ := Voice.stepPlay_ok h
  · exact ⟨rfl, .inl rfl⟩
  · exact ⟨rfl, .inl rfl⟩
  · have hrem : u.rtrgRem = v.rtrgRem := by rw [Voice.readWithLoFi_frame hr]
    obtain ⟨z, w, hread, -, hu⟩ := Voice.readWithLoFi_ok hr
    have hpos : u.pos = w.pos := by rw [hu, Voice.srr_pos]
    rw [Voice.stepEnvelope_pos, Voice.stepEnvelope_rtrgRem]
    refine ⟨hrem, ?_⟩
    obtain ⟨-, rfl, -⟩ | ⟨i, w1, w2, hi, hlen, -, -, -, rfl⟩ := Voice.readInterpolated_ok hread
    · exact .inl hpos
    · exact .inr ⟨hpos, i, hi, hlen⟩

/-- The entries of PITCH_RATIO are positive and at most 64.0 (R115). -/
theorem pitchRatio_range : ∀ p : Param,
    (pitchRatio p).isFinite = true ∧ 0 < (pitchRatio p).units ∧ (pitchRatio p).units ≤ 64 * 2 ^ 1074 := by
  decide +kernel

/-- An advance below the last sample does not lower POS (R85). -/
theorem Voice.le_advance {v : Voice} {i n : Nat} (hi : v.pos.floor = some (i : Int)) (hlt : i + 1 < n)
    (hn : n < 2 ^ 32) : v.pos.le (v.pos.add v.ratio) = true := by
  obtain ⟨hpos, -, hhi⟩ := F64.floor_eq_some hi
  obtain ⟨hratio, h0, h64⟩ := pitchRatio_range (v.snapAt 2)
  obtain ⟨-, -, -, hbound⟩ := F64.ofInt_exact (n := 2 ^ 33) (by decide)
  rw [F64.unitsOne_cast] at hhi
  obtain ⟨hfin, hle, -⟩ := F64.add_bounds (lo := v.pos) (hi := F64.ofInt (2 ^ 33)) hpos hratio (by omega) (by
    rw [hbound]
    have : (i : Int) * 2 ^ 1074 ≤ 2 ^ 32 * 2 ^ 1074 := Int.mul_le_mul_of_nonneg_right (by omega) (by positivity)
    omega)
  exact (F64.le_iff_of_finite hpos hfin).mpr hle

/-- One step of a voice keeps POS or adds the ratio, and does not lower it, or a retrigger takes one from RTRGREM
(R85). -/
theorem Voice.process_pos {v v' : Voice} {rate : F64} {b : Buffer} {c : Channel} {y : F64}
    (hfin : v.pos.isFinite = true) (h : v.process rate b c = .ok (y, v')) :
    ((v'.pos = v.pos ∨ v'.pos = v.pos.add v.ratio) ∧ v.pos.le v'.pos = true) ∨
      v'.rtrgRem.toNat + 1 = v.rtrgRem.toNat := by
  obtain ⟨hrem, hpos⟩ := Voice.stepPlay_pos h
  have advance (hp : (v.stepRetrigger rate b).pos = v.pos) (hs : (v.stepRetrigger rate b).ratio = v.ratio) :
      (v'.pos = v.pos ∨ v'.pos = v.pos.add v.ratio) ∧ v.pos.le v'.pos = true := by
    rw [hp, hs] at hpos
    obtain hpos | ⟨hpos, i, hi, hlen⟩ := hpos
    · rw [hpos]
      exact ⟨.inl rfl, (F64.le_iff_of_finite hfin hfin).mpr le_rfl⟩
    · rw [hpos]
      exact ⟨.inr rfl, Voice.le_advance hi hlen b.len.isLt⟩
  obtain ⟨-, e⟩ | ⟨-, -, e⟩ | ⟨h0, -, e⟩ := v.stepRetrigger_cases rate b
  · exact .inl (advance (by rw [e]) (by rw [e]))
  · exact .inl (advance (by rw [e]) (by rw [e]; rfl))
  · right
    rw [hrem, e, Voice.internalTrigger_rtrgRem]
    have hone : (1 : BitVec 7).toNat = 1 := rfl
    rw [BitVec.toNat_sub_of_le (BitVec.le_def.mpr (by omega))]
    omega

/-! ## The commands that write a voice (R158) -/

/-- The commands that write a voice record (R158). -/
def writesVoice : Instr → Bool
  | .setrate _ | .trig _ | .stop _ | .vstep _ | .frame => true
  | _ => false

/-- A completed command leaves the voices of the state it completes with. -/
theorem complete_voices {s s' t : State} {a b : Word} (h : complete s' a b = .next t) (hs : s'.voices = s.voices) :
    t.voices = s.voices := by
  rw [← (complete_next s' t a b).mp h]
  exact hs

/-- A raised status leaves the voices. -/
theorem raise_voices {s t : State} {st : Status} (h : raise s st = .next t) : t.voices = s.voices := by
  rw [← (raise_next s t st).mp h]
  rfl

/-- A command that answers in either of two ways leaves the voices where both do. -/
theorem ite_voices {p : Prop} [Decidable p] {s a b t : State}
    (h : (if p then .next a else .next b : Host.Outcome State Fault Refusal) = .next t) (ha : a.voices = s.voices)
    (hb : b.voices = s.voices) : t.voices = s.voices := by
  split at h
  · cases h; exact ha
  · cases h; exact hb

/-- WRPARAM leaves the voices (R70). -/
theorem execWrparam_voices {idx : BitVec 8} {val : Param} {s t : State} (h : execWrparam idx val s = .next t) :
    t.voices = s.voices := by
  unfold execWrparam at h
  split at h
  · exact raise_voices h
  · next i _ =>
    obtain ⟨k, b, he⟩ := (s.setParam i val).applyParam_frame i val
    exact complete_voices h (by rw [he]; rfl)

/-- RDPARAM leaves the voices (R71). -/
theorem execRdparam_voices {idx : BitVec 8} {s t : State} (h : execRdparam idx s = .next t) :
    t.voices = s.voices := by
  unfold execRdparam at h
  split at h
  · exact raise_voices h
  · exact complete_voices h rfl

/-- BUFRD leaves the voices (R78). -/
theorem execBufrd_voices {ch : BitVec 8} {d0 : Word} {s t : State} (h : execBufrd ch d0 s = .next t) :
    t.voices = s.voices := by
  unfold execBufrd at h
  split at h
  · exact raise_voices h
  · split at h
    · exact complete_voices h rfl
    · cases h

/-- VRD leaves the voices (R130). -/
theorem execVrd_voices {ch sel : BitVec 8} {s t : State} (h : execVrd ch sel s = .next t) :
    t.voices = s.voices := by
  unfold execVrd at h
  split at h
  · exact complete_voices h rfl
  · exact raise_voices h

/-- FRD leaves the voices (R110). -/
theorem execFrd_voices {sel : BitVec 8} {s t : State} (h : execFrd sel s = .next t) : t.voices = s.voices := by
  unfold execFrd at h
  split at h
  · exact complete_voices h rfl
  · exact raise_voices h

/-- A command that writes no voice record leaves the voices (R158). -/
theorem exec_voices {i : Instr} {s t : State} (hw : writesVoice i = false) (h : exec i s = .next t) :
    t.voices = s.voices := by
  cases i with
  | setrate | trig | stop | vstep | frame => cases hw
  | wrparam => exact execWrparam_voices h
  | rdparam => exact execRdparam_voices h
  | bufwr => exact ite_voices h rfl rfl
  | bufapp => exact ite_voices h rfl rfl
  | bufapq => exact ite_voices h rfl rfl
  | bufrd => exact execBufrd_voices h
  | vrd => exact execVrd_voices h
  | frd => exact execFrd_voices h
  | _ => exact complete_voices h rfl

/-- One step of every voice of a FRAME (R133). -/
theorem exec_frame_voice {s t : State} (h : exec .frame s = .next t) (c : Channel) :
    ∃ y, (s.voice c).process s.rate (s.buf c) c = .ok (y, t.voice c) := by
  obtain ⟨m, s', hmix, hstep⟩ := exec_frame.mp h
  obtain ⟨-, -, y, -, hall⟩ := State.mixFrom_ok nodup_channels hmix
  have hv : t.voice c = s'.voice c := by
    unfold filterStep at hstep
    rw [← (complete_next _ _ _ _).mp hstep]
    rfl
  exact ⟨y c, by rw [hv]; exact hall c (mem_channels c)⟩

/-- A command other than SETRATE and a TRIG of channel c keeps POS of voice c or runs a step of it (R85). -/
theorem exec_pos {i : Instr} {s t : State} {c : Channel} (h : exec i s = .next t) (hset : ∀ d0, i ≠ .setrate d0)
    (htrig : ∀ ch, i = .trig ch → chan ch ≠ c) :
    (t.voice c).pos = (s.voice c).pos ∨
      ∃ y, (s.voice c).process s.rate (s.buf c) c = .ok (y, t.voice c) := by
  cases i with
  | setrate d0 => exact absurd rfl (hset d0)
  | trig ch =>
    rw [exec_trig] at h
    cases h
    rw [State.voice_respond, State.voice_setVoice_ne s _ (htrig ch rfl)]
    exact .inl rfl
  | stop ch =>
    rw [exec_stop] at h
    cases h
    rw [State.voice_respond]
    by_cases hc : chan ch = c
    · rw [hc, State.voice_setVoice_self]
      exact .inl rfl
    · rw [State.voice_setVoice_ne s _ hc]
      exact .inl rfl
  | vstep ch =>
    obtain ⟨y, v, hproc, rfl⟩ := exec_vstep.mp h
    rw [State.voice_respond]
    by_cases hc : chan ch = c
    · rw [hc] at hproc ⊢
      rw [State.voice_setVoice_self]
      exact .inr ⟨y, hproc⟩
    · rw [State.voice_setVoice_ne s _ hc]
      exact .inl rfl
  | frame => exact .inr (exec_frame_voice h c)
  | _ => exact .inl (by rw [State.voice, exec_voices rfl h]; rfl)

/-- A position between LEN - 1 and L has a floor at or past the last sample (R86). -/
theorem floor_at_last {x : F64} {b : Buffer} (h : (F64.ofInt ((b.len.toNat : Int) - 1)).le x = true)
    (hlt : x.lt b.lenF64 = true) : ∃ i, x.floor = some i ∧ (b.len.toNat : Int) - 1 ≤ i := by
  obtain ⟨hL, -, -⟩ := b.lenF64_spec
  obtain ⟨hfin, -, -, hunits⟩ := F64.ofInt_exact (n := (b.len.toNat : Int) - 1) (by omega)
  obtain hinf | rfl | ⟨-, hx, hle⟩ := F64.le_cases h
  · rw [hinf] at hfin
    cases hfin
  · obtain ⟨s, e, f, he⟩ := (F64.isFinite_iff _).mp hL
    rw [he] at hlt
    cases hlt
  · refine ⟨_, F64.floor_of_finite hx, (Int.le_ediv_iff_mul_le ?_).mpr ?_⟩
    · exact_mod_cast F64.unitsOne_pos
    · rwa [F64.unitsOne_cast, ← hunits]

end Sys2Proof.Machine

/-- Settles O48: a sound voice can read, so it steps, and the three cases are the forward laws of `Voice.stepPlay`. -/
theorem vstepResult : Obligations.VstepResult := by
  unfold Obligations.VstepResult
  rintro s ch b u hinv rfl hu
  obtain ⟨z, v, hr⟩ := hinv.read_exists (chan ch) u.ratio
  rw [← hu] at hr
  obtain ⟨y, w, hplay⟩ := Voice.stepPlay_exists hr
  have hproc : (s.voice (chan ch)).process s.rate (s.buf (chan ch)) (chan ch) = .ok (y, w) := by
    rw [Voice.process, ← hu, hplay]
  have hself : ((s.setVoice (chan ch) w).respond .ok y.toBits 0).voice (chan ch) = w := by
    rw [State.voice_respond, State.voice_setVoice_self]
  refine ⟨(s.setVoice (chan ch) w).respond .ok y.toBits 0, y, ?_⟩
  rw [hself, F64.zero_false]
  refine ⟨hproc, exec_vstep.mpr ⟨y, w, hproc, rfl⟩, rfl, fun c hc => ?_, rfl, fun ha => ?_, fun ha hf => ?_,
    fun ha hf => ?_⟩
  · rw [State.voice_respond, State.voice_setVoice_ne s w hc.symm]
  · cases hplay.symm.trans (Voice.stepPlay_of_inactive _ _ ha)
    exact ⟨rfl, rfl⟩
  · cases hplay.symm.trans (Voice.stepPlay_of_finished _ ha hf)
    exact ⟨rfl, rfl⟩
  · obtain ⟨x, v', hs⟩ : ∃ x v', v.srr (quantize12 z) u.srrAmt = (x, v') := ⟨_, _, rfl⟩
    cases hplay.symm.trans (Voice.stepPlay_of_playing ha hf hr hs)
    exact ⟨z, x, v, v', hr, hs, fun h0 => Prod.mk.inj (hs.symm.trans (Voice.srr_of_zero v _ h0)), rfl, rfl⟩

/-- Settles O49: the products with L are monotone in the fraction, and 0.0 x L is +0.0. -/
theorem finishedVoiceEnds : Obligations.FinishedVoiceEnds := by
  unfold Obligations.FinishedVoiceEnds
  refine ⟨Voice.engineFinished_iff, fun v b e hpos => ?_, fun v b f e h0 hef h1 => ?_, ?_⟩
  · rintro (hlen | rfl)
    · exact Voice.engineFinished_empty hlen hpos e
    · exact (v.engineFinished_iff b _).mpr (.inl (by rwa [cZero_mul_lenF64]))
  · obtain ⟨he, hf, hef⟩ := F64.fraction_of_le h0 hef h1
    have hpos : (v.engineTrigger b f).pos = f.mul b.lenF64 := clamp_fraction b hf
    rw [Voice.engineFinished_iff, hpos]
    exact .inl (mul_lenF64_mono b he hf hef)
  · rintro rate b c v u rfl ha hf
    exact Voice.stepPlay_of_finished c ha hf

/-- Settles O50: a command that may move POS runs a step of the voice, which keeps POS, advances it or retriggers. -/
theorem positionLaw : Obligations.PositionLaw := by
  unfold Obligations.PositionLaw
  intro i s t c hinv hexec hset htrig
  obtain ⟨hfin, -⟩ := voiceOk_pos (hinv.voices c)
  obtain hpos | ⟨y, hproc⟩ := exec_pos hexec hset htrig
  · rw [hpos]
    exact .inl ⟨.inl rfl, (F64.le_iff_of_finite hfin hfin).mpr le_rfl⟩
  · exact Voice.process_pos hfin hproc

/-- Settles O51: the floor of the position is the last index, so the read gives +0.0, and products with a zero are
zeros. -/
theorem lastSampleStall : Obligations.LastSampleStall := by
  unfold Obligations.LastSampleStall
  intro rate b c v ha hrem _ hge hend hlt
  rw [F64.zero_false]
  have hrun : v.engineFinished b v.endFrac = false := by
    rw [← Bool.not_eq_true, Voice.engineFinished_iff, not_or]
    exact ⟨fun h => by simp [F64.lt_eq_false_of_le h] at hend, fun h => by simp [F64.lt_eq_false_of_le h] at hlt⟩
  obtain ⟨i, hi, hlast⟩ := floor_at_last hge hlt
  have hread := v.readInterpolated_of_last c v.ratio hi hlast
  have hquant : quantize12 F64.cZero = F64.cZero := by decide +kernel
  have hplay := Voice.stepPlay_of_playing ha hrun hread Prod.mk.eta.symm
  rw [hquant] at hplay
  have hidle : v.stepRetrigger rate b = v := by rw [Voice.stepRetrigger, if_neg (by rw [hrem]; decide)]
  refine ⟨hrun, hread, _, _, by rw [Voice.process, hidle, hplay], ?_, rfl, fun h0 henv => ?_⟩
  · rw [Voice.stepEnvelope_pos, Voice.srr_pos]
  · obtain ⟨hfin, hunits⟩ := F64.mul_units_zero (x := F64.cZero) rfl henv F64.units_cZero
    rw [Voice.srr_of_zero v F64.cZero h0]
    exact F64.mul_units_zero hfin (normParam_fraction (v.snapAt 8)).finite hunits

/-- Settles O52: the difference of the samples is exact, the fraction lies from 0.0 to 1.0, and each rounding keeps the
bounds. -/
theorem interpolationStaysBetween : Obligations.InterpolationStaysBetween := by
  unfold Obligations.InterpolationStaysBetween
  rw [F64.zero_false]
  refine ⟨fun v b c r h => v.readInterpolated_of_empty c r (congrArg BitVec.toNat h),
    fun v b c r i => v.readInterpolated_of_last c r, fun v b c r i w1 w2 hi hlen h1 h2 => ?_⟩
  obtain ⟨hfrac, hwhole⟩ := position_fraction hi (by omega)
  obtain ⟨hy, hlo, hhi, hfirst⟩ := interpolate_between w1 w2 hfrac
  exact ⟨_, v.readInterpolated_of_bracket c r hi hlen h1 h2, hy, hlo, hhi, fun he => hfirst (hwhole he), rfl⟩

end

/-! The quantizer's value (44_lofi.md R88): its scaling by 2048 is exact or overflows, its clamp keeps the sign, and its
last division is exact. A value k/2048 is therefore a fixed point, and the value of every stored word is one (R89). -/

section

open Sys2Proof Sys2Proof.Machine F64

set_option exponentiation.threshold 3000

namespace Sys2Proof

/-! ## Signs -/

/-- Rounding keeps the sign given, an overflow included (R12). -/
@[simp] theorem F64.sign_roundRat (s : Bool) (num den : Nat) : (roundRat s num den).sign = s := by
  unfold F64.roundRat F64.pack
  dsimp only
  generalize nearestEven num (den * 2 ^ lastPlace num den) = m
  generalize (if m < 2 ^ 52 then 0 else _) = e
  split <;> rfl

/-- A negative number of units has the sign bit 1. -/
theorem F64.sign_of_units_neg {x : F64} (h : x.units < 0) : x.sign = true := by
  by_contra hs
  rw [units_of_sign (Bool.eq_false_of_not_eq_true hs), if_neg Bool.false_ne_true] at h
  omega

end Sys2Proof

namespace Sys2Proof.Machine

/-! ## The nearest step (R88) -/

/-- The step as the quantizer clamps it: within −2048..2047. -/
def clampStep (z : Int) : Int := max (-2048) (min 2047 z)

/-- A clamped step is in the range of the clamp. -/
theorem clampStep_range (z : Int) : -2048 ≤ clampStep z ∧ clampStep z ≤ 2047 := by
  unfold clampStep
  omega

/-- A step in the range is kept. -/
theorem clampStep_of_mem {z : Int} (hlo : -2048 ≤ z) (hhi : z ≤ 2047) : clampStep z = z := by
  unfold clampStep
  omega

/-- A step from 2047 on is clamped to 2047. -/
theorem clampStep_of_ge {z : Int} (h : 2047 ≤ z) : clampStep z = 2047 := by
  unfold clampStep
  omega

/-- A step up to −2048 is clamped to −2048. -/
theorem clampStep_of_le {z : Int} (h : z ≤ -2048) : clampStep z = -2048 := by
  unfold clampStep
  omega

/-- The nearest step of x is within half a step of it. -/
theorem quantStep_near (x : F64) : 2 * |quantStep x * 2 ^ 1063 - x.units| ≤ 2 ^ 1063 := by
  have hU : unitsOne = 2048 * 2 ^ 1063 := by rw [unitsOne]; rfl
  have hpos : (0 : Nat) < 2 ^ 1063 := by positivity
  have hcast : ((2 ^ 1063 : Nat) : Int) = 2 ^ 1063 := Nat.cast_pow 2 1063
  unfold quantStep F64.units
  rw [hU, ← hcast]
  generalize (2 ^ 1063 : Nat) = A at hpos
  generalize x.mag = m
  have hlo := Nat.div_mul_le_self (4096 * m + 2048 * A) (2 * (2048 * A))
  have hhi := Nat.lt_div_mul_add (a := 4096 * m + 2048 * A) (b := 2 * (2048 * A)) (by omega)
  generalize (4096 * m + 2048 * A) / (2 * (2048 * A)) = N at hlo hhi ⊢
  have hN : N * (2 * (2048 * A)) = 4096 * (N * A) := by ring
  rw [hN] at hlo hhi
  have hz : ((N * A : Nat) : Int) = N * A := Nat.cast_mul N A
  rw [Int.abs_eq_natAbs]
  cases x.sign
  · simp only [Bool.false_eq_true, if_false]
    rw [← hz]
    omega
  · simp only [if_true]
    rw [Int.neg_mul, ← hz]
    omega

/-- The nearest step of a value of at most k steps is at most k. -/
theorem quantStep_le {x : F64} {k : Int} (h : x.units ≤ k * 2 ^ 1063) : quantStep x ≤ k := by
  have hnear := quantStep_near x
  by_contra hlt
  have hstep : (k + 1) * (2 : Int) ^ 1063 ≤ quantStep x * 2 ^ 1063 :=
    Int.mul_le_mul_of_nonneg_right (by omega) (by positivity)
  rw [Int.abs_eq_natAbs] at hnear
  omega

/-- The nearest step of a value of at least k steps is at least k. -/
theorem le_quantStep {x : F64} {k : Int} (h : k * 2 ^ 1063 ≤ x.units) : k ≤ quantStep x := by
  have hnear := quantStep_near x
  by_contra hlt
  have hstep : (quantStep x + 1) * (2 : Int) ^ 1063 ≤ k * 2 ^ 1063 :=
    Int.mul_le_mul_of_nonneg_right (by omega) (by positivity)
  rw [Int.abs_eq_natAbs] at hnear
  omega

/-- The nearest integer of x × 2048.0 is the nearest step of x, with the sign of x, or the product overflows and the
step is clamped to the end of its sign (R88). -/
theorem roundHalfAway_mul_2048 {x : F64} (hx : x.isFinite = true) :
    ((x.mul cN2048).roundHalfAway.isFinite = true ∧ (x.mul cN2048).roundHalfAway.sign = x.sign ∧
      (x.mul cN2048).roundHalfAway.units = quantStep x * 2 ^ 1074) ∨
    ((x.mul cN2048).roundHalfAway = .inf x.sign ∧
      clampStep (quantStep x) = if x.sign = true then -2048 else 2047) := by
  have hconst : cN2048.isFinite = true ∧ cN2048.sign = false ∧ cN2048.mag = 2048 * unitsOne := by decide +kernel
  obtain ⟨hfin, hsign, hmag⟩ := hconst
  have hrep : Representable (x.mag * 2048) := representable_mul_pow (representable_mag x) 11
  have hmul : x.mul cN2048 = roundRat x.sign (x.mag * 2048 * unitsOne) unitsOne := by
    rw [mul_of_finite hx hfin, hsign, hmag, Bool.xor_false, Nat.mul_assoc]
  obtain ⟨-, hpfin, hpsign, hpmag⟩ | ⟨hover, hinf⟩ := roundRat_representable x.sign unitsOne_pos hrep rfl
  · left
    rw [← hmul] at hpfin hpsign hpmag
    obtain ⟨hrfin, hrsign, hrmag⟩ := roundHalfAway_spec _ hpfin _ rfl
    refine ⟨hrfin, hrsign.trans hpsign, ?_⟩
    have hnum : 2 * (x.mag * 2048) = 4096 * x.mag := by omega
    rw [units_of_sign (hrsign.trans hpsign), hrmag, hpmag, hnum, Nat.cast_mul, unitsOne_cast, quantStep,
      ite_mul, Int.neg_mul]
  · right
    rw [← hmul] at hinf
    refine ⟨by rw [hinf]; unfold F64.roundHalfAway; rfl, ?_⟩
    have hlim : 2048 * unitsOne ≤ unitsLimit := by decide +kernel
    have hstep : 2048 ≤ (4096 * x.mag + unitsOne) / (2 * unitsOne) := by
      rw [Nat.le_div_iff_mul_le (Nat.mul_pos (by decide) unitsOne_pos)]
      omega
    unfold quantStep
    cases x.sign
    · exact clampStep_of_ge (by simp only [Bool.false_eq_true, if_false]; omega)
    · exact clampStep_of_le (by simp only [if_true]; omega)

/-! ## The clamp and the last division (R88) -/

/-- The clamp of the quantizer brings an integer into −2048..2047 and keeps its sign (R88). -/
theorem clamp_of_integral {n : F64} {z : Int} (hn : n.isFinite = true) (hz : n.units = z * 2 ^ 1074) :
    (F64.min (F64.max n cNeg2048) cN2047).isFinite = true ∧
      (F64.min (F64.max n cNeg2048) cN2047).sign = n.sign ∧
      (F64.min (F64.max n cNeg2048) cN2047).units = clampStep z * 2 ^ 1074 := by
  obtain ⟨-, ⟨hlofin, hlo⟩, hhifin, hhi⟩ := quantizer_constants
  have hge := le_iff_of_integral hlofin hn hlo hz
  have hle := le_iff_of_integral hn hhifin hz hhi
  have hlohi : cNeg2048.le cN2047 = true := (le_iff_of_integral hlofin hhifin hlo hhi).mpr (by decide)
  rw [F64.max, F64.ge]
  by_cases h1 : -2048 ≤ z
  · rw [if_pos (hge.mpr h1), F64.min]
    by_cases h2 : z ≤ 2047
    · rw [if_pos (hle.mpr h2)]
      exact ⟨hn, rfl, by rw [clampStep_of_mem h1 h2, hz]⟩
    · rw [if_neg (mt hle.mp h2)]
      have hpos : 0 < n.units := by rw [hz]; exact mul_pos (by omega) (by positivity)
      exact ⟨hhifin, (sign_of_units_pos hpos).1.symm, by rw [clampStep_of_ge (by omega), hhi]⟩
  · rw [if_neg (mt hge.mp h1), F64.min, if_pos hlohi]
    have hneg : n.units < 0 := by rw [hz]; exact mul_neg_of_neg_of_pos (by omega) (by positivity)
    exact ⟨hlofin, (sign_of_units_neg hneg).symm, by rw [clampStep_of_le (by omega), hlo]⟩

/-- The clamp of the quantizer brings an infinity to the end of its sign (R88). -/
theorem clamp_of_inf (s : Bool) :
    F64.min (F64.max (.inf s) cNeg2048) cN2047 = if s = true then cNeg2048 else cN2047 := by
  cases s <;> decide +kernel

/-- An integer from −2048 to 2047 over 2048.0 is exact and keeps its sign (R88). -/
theorem div_2048_of_integral {n : F64} {k : Int} (hn : n.isFinite = true) (hk : n.units = k * 2 ^ 1074)
    (hlo : -2048 ≤ k) (hhi : k ≤ 2047) :
    (n.div cN2048).isFinite = true ∧ (n.div cN2048).sign = n.sign ∧ (n.div cN2048).units = k * 2 ^ 1063 := by
  obtain ⟨⟨hfin, h2048⟩, -⟩ := quantizer_constants
  have hpos : 0 < cN2048.units := by rw [h2048]; positivity
  obtain ⟨hsign, hmag⟩ := sign_of_units_pos hpos
  obtain ⟨hr, hlim⟩ := representable_code hlo hhi (e := 1063) (by decide)
  have heq : k * 2 ^ 1074 * (unitsOne : Int) = k * 2 ^ 1063 * 2 ^ 1085 := by rw [unitsOne_cast]; ring
  obtain ⟨hdiv, hunits⟩ := div_units_exact hn hfin hpos hr hlim (by rw [hk, h2048, heq])
  refine ⟨hdiv, ?_, hunits⟩
  rw [div_of_finite hn hfin (by omega), sign_roundRat, hsign, Bool.xor_false]

/-! ## The value of the quantizer -/

/-- What the quantizer divides by 2048.0 in the end: the nearest step, clamped, with the sign of the value (R88). -/
theorem clamped_step_of_finite {x : F64} (hx : x.isFinite = true) :
    ∃ n, F64.min (F64.max (x.mul cN2048).roundHalfAway cNeg2048) cN2047 = n ∧ n.isFinite = true ∧
      n.sign = x.sign ∧ n.units = clampStep (quantStep x) * 2 ^ 1074 := by
  obtain ⟨-, ⟨hlofin, hlo⟩, hhifin, hhi⟩ := quantizer_constants
  obtain ⟨hfin, hsign, hunits⟩ | ⟨hinf, hend⟩ := roundHalfAway_mul_2048 hx
  · rw [← hsign]
    exact ⟨_, rfl, clamp_of_integral hfin hunits⟩
  · rw [hinf, hend, clamp_of_inf]
    cases x.sign
    · exact ⟨cN2047, rfl, hhifin, rfl, hhi⟩
    · exact ⟨cNeg2048, rfl, hlofin, rfl, hlo⟩

/-- The quantizer of a finite value: the nearest step, clamped, over 2048, with the sign of the value (R88). -/
theorem quantize12_of_finite {x : F64} (hx : x.isFinite = true) :
    (quantize12 x).isFinite = true ∧ (quantize12 x).sign = x.sign ∧
      (quantize12 x).units = clampStep (quantStep x) * 2 ^ 1063 := by
  obtain ⟨n, hn, hfin, hsign, hunits⟩ := clamped_step_of_finite hx
  obtain ⟨hlo, hhi⟩ := clampStep_range (quantStep x)
  rw [quantize12, if_neg (by simp [isNaN_of_isFinite hx])]
  simp only [hn, ← hsign]
  exact div_2048_of_integral hfin hunits hlo hhi

/-- A quantizer output is a fixed point of the quantizer (R89). -/
theorem quantize12_of_onGrid {x : F64} (h : onGrid x) : quantize12 x = x := by
  obtain ⟨hx, k, hlo, hhi, hk⟩ := h
  obtain ⟨hfin, hsign, hunits⟩ := quantize12_of_finite hx
  have hstep : quantStep x = k := le_antisymm (quantStep_le hk.le) (le_quantStep hk.ge)
  refine ext_finite hfin hx hsign ?_
  rw [← natAbs_units, hunits, hstep, clampStep_of_mem hlo hhi, ← hk, natAbs_units]

/-- A stored word's value is a quantizer output (R26, R89). -/
theorem sampleValue_onGrid {w : SampleWord} (h : w.extractLsb' 0 4 = 0#4) : onGrid (sampleValue w) := by
  obtain ⟨hfin, hunits⟩ := sampleValue_spec w
  have hlo := BitVec.le_toInt (wordCode w)
  have hhi := BitVec.toInt_lt (x := wordCode w)
  refine ⟨hfin, (wordCode w).toInt, by omega, by omega, ?_⟩
  have hcode := toInt_codeWord (wordCode w)
  rw [codeWord_wordCode h] at hcode
  rw [hunits, hcode, Int.mul_assoc]
  rfl

/-- Up to 2047/2048 the clamp does nothing, and the error is that of the nearest step (R89). -/
theorem quantize12_error_half {x : F64} (hx : x.isFinite = true) (hlo : -(2 ^ 1074) ≤ x.units)
    (hhi : x.units ≤ 2047 * 2 ^ 1063) : |(quantize12 x).units - x.units| ≤ 2 ^ 1062 := by
  obtain ⟨-, -, hunits⟩ := quantize12_of_finite hx
  have hlo' : -2048 ≤ quantStep x := le_quantStep (by omega)
  have hnear := quantStep_near x
  rw [hunits, clampStep_of_mem hlo' (quantStep_le hhi)]
  omega

/-- Up to 1.0 the error is at most a step: from 2047/2048 on the quantizer gives 2047/2048 (R89). -/
theorem quantize12_error {x : F64} (hx : x.isFinite = true) (hlo : -(2 ^ 1074) ≤ x.units)
    (hhi : x.units ≤ 2 ^ 1074) : |(quantize12 x).units - x.units| ≤ 2 ^ 1063 := by
  obtain hle | hgt := le_or_gt x.units (2047 * 2 ^ 1063)
  · exact (quantize12_error_half hx hlo hle).trans (pow_le_pow_right₀ (by decide) (by decide))
  · obtain ⟨-, -, hunits⟩ := quantize12_of_finite hx
    rw [hunits, clampStep_of_ge (le_quantStep hgt.le), Int.abs_eq_natAbs]
    omega

end Sys2Proof.Machine

/-- Settles O28: the quantizer's value on finite values is `quantize12_of_finite`; a NaN and the infinities evaluate. -/
theorem quantizerValue : Obligations.QuantizerValue := by
  unfold Obligations.QuantizerValue
  exact ⟨fun s d0 => exec_quant d0 s, fun x hx => quantize12_of_finite hx,
    fun x hx => by rw [quantize12, if_pos hx, zero_false], by decide +kernel, by decide +kernel⟩

/-- Settles O29: quantizer outputs and the values of words are fixed points, and the error is that of the nearest
step. -/
theorem quantizerLaws : Obligations.QuantizerLaws := by
  unfold Obligations.QuantizerLaws
  exact ⟨fun x => quantize12_of_onGrid (quantize12_onGrid x), fun _ => quantize12_error,
    fun _ => quantize12_error_half, fun _ h => quantize12_of_onGrid (sampleValue_onGrid h)⟩

end

/-! The sample-rate reducer (44_lofi.md R90 to R92): after j inputs SRRCNT is j mod p, and inside a hold cycle SRRHOLD is
the input that began it, which is what the next call returns. The answers of SRRP and FMODE. -/

section

open Sys2Proof Sys2Proof.Machine

namespace Sys2Proof.Machine

/-! ## The hold period (R90) -/

/-- A hold period is from 1 to 64, so SRRCNT's six bits hold every count below it. -/
theorem srrPeriod_range (a : Param) : 1 ≤ srrPeriod a ∧ srrPeriod a ≤ 64 := by
  unfold srrPeriod
  omega

/-- Each period p in 2..63 is that of the amounts 2p − 1 and 2p. -/
theorem srrPeriod_ofNat {p n : Nat} (hlo : 2 ≤ p) (hhi : p ≤ 63) (hn : n = 2 * p - 1 ∨ n = 2 * p) :
    srrPeriod (BitVec.ofNat 7 n) = p := by
  rw [srrPeriod, BitVec.toNat_ofNat, Nat.mod_eq_of_lt (by omega)]
  omega

/-! ## The state of the reducer between two calls (R91, R92) -/

/-- The reducer of v after the first j inputs of xs: SRRCNT is the place in the hold cycle and, inside one, SRRHOLD is
the input the cycle began with. -/
structure Voice.ReducedTo (v : Voice) (a : Param) (xs : List F64) (j : Nat) : Prop where
  count : v.srrCnt.toNat = j % srrPeriod a
  hold : j % srrPeriod a ≠ 0 → xs[j - j % srrPeriod a]? = some v.srrHold

/-- One call of the reducer, at an amount other than 0 (R91). -/
theorem Voice.srr_of_ne_zero (v : Voice) (x : F64) {a : Param} (h : a ≠ 0) :
    v.srr x a = (if v.srrCnt = 0 then x else v.srrHold,
      { v with
        srrHold := if v.srrCnt = 0 then x else v.srrHold
        srrCnt := if srrPeriod a ≤ v.srrCnt.toNat + 1 then 0 else BitVec.ofNat 6 (v.srrCnt.toNat + 1) }) := by
  rw [Voice.srr, if_neg h]

/-- The next call gives the input its hold cycle began with (R92). -/
theorem Voice.ReducedTo.output {v : Voice} {a : Param} {xs : List F64} {j : Nat} {x : F64} (h : v.ReducedTo a xs j)
    (ha : a ≠ 0) (hx : xs[j]? = some x) : xs[j - j % srrPeriod a]? = some (v.srr x a).1 := by
  obtain ⟨hcount, hhold⟩ := h
  rw [Voice.srr_of_ne_zero v x ha]
  by_cases h0 : v.srrCnt = 0
  · have hj : j % srrPeriod a = 0 := by rw [← hcount, h0]; rfl
    rw [hj, Nat.sub_zero, if_pos h0, hx]
  · have hj : j % srrPeriod a ≠ 0 := fun he => h0 (BitVec.eq_of_toNat_eq (hcount.trans he))
    rw [hhold hj, if_neg h0]

/-- After the next call the reducer has taken one more input (R91). -/
theorem Voice.ReducedTo.step {v : Voice} {a : Param} {xs : List F64} {j : Nat} {x : F64} (h : v.ReducedTo a xs j)
    (ha : a ≠ 0) (hx : xs[j]? = some x) : (v.srr x a).2.ReducedTo a xs (j + 1) := by
  have hout := h.output ha hx
  obtain ⟨hpos, h64⟩ := srrPeriod_range a
  have hmod := Nat.mod_lt j hpos
  have hnext : (j + 1) % srrPeriod a = (j % srrPeriod a + 1) % srrPeriod a := (Nat.mod_add_mod j _ 1).symm
  rw [Voice.srr_of_ne_zero v x ha] at hout ⊢
  rw [h.count]
  by_cases hwrap : srrPeriod a ≤ j % srrPeriod a + 1
  · have hend : j % srrPeriod a + 1 = srrPeriod a := by omega
    have hzero : (j + 1) % srrPeriod a = 0 := by rw [hnext, hend, Nat.mod_self]
    exact ⟨by rw [hzero, if_pos hwrap]; rfl, fun hne => absurd hzero hne⟩
  · have hin : (j + 1) % srrPeriod a = j % srrPeriod a + 1 := hnext.trans (Nat.mod_eq_of_lt (by omega))
    refine ⟨?_, fun _ => ?_⟩
    · rw [hin, if_neg hwrap, BitVec.toNat_ofNat, Nat.mod_eq_of_lt (by omega)]
    · rw [hin, Nat.add_sub_add_right, hout]

/-- The outputs for the inputs that follow the first j (R92). -/
theorem Voice.ReducedTo.getElem?_reduce {v : Voice} {a : Param} {xs : List F64} {i j : Nat} (h : v.ReducedTo a xs j)
    (ha : a ≠ 0) (hlt : j + i < xs.length) :
    (v.reduce a (xs.drop j))[i]? = xs[j + i - (j + i) % srrPeriod a]? := by
  have hj : j < xs.length := by omega
  rw [List.drop_eq_getElem_cons hj, Voice.reduce]
  induction i generalizing v j with
  | zero =>
    rw [List.getElem?_cons_zero]
    exact (h.output ha (List.getElem?_eq_getElem hj)).symm
  | succ i ih =>
    have hj' : j + 1 < xs.length := by omega
    have hji : j + (i + 1) = j + 1 + i := by omega
    rw [List.getElem?_cons_succ, List.drop_eq_getElem_cons hj', Voice.reduce, hji]
    exact ih (h.step ha (List.getElem?_eq_getElem hj)) (by omega) hj'

/-! ## The answers of SRRP and FMODE -/

/-- SRRP answers on every operand (R94). -/
theorem exec_srrp (val : Param) (s : State) :
    exec (.srrp val) s = .next (s.respond .ok (if val = 0 then 0 else zext64 (srrPeriod val)) 0) := rfl

/-- The mode code of a parameter value (R96). -/
theorem zext64_code_modeFromParam (val : Param) :
    zext64 (modeFromParam val).code = if val.toNat ≤ 42 then 0 else if val.toNat ≤ 84 then 1 else 2 := by
  unfold modeFromParam
  split
  · rfl
  · split <;> rfl

end Sys2Proof.Machine

/-- Settles O30: with SRRCNT = 0 no input is behind the reducer, and `Voice.ReducedTo` is kept by every call. -/
theorem reducerHoldsInputs : Obligations.ReducerHoldsInputs := by
  unfold Obligations.ReducerHoldsInputs
  refine ⟨fun v x => v.srr_of_zero x rfl, fun v a xs i ha h0 hi => ?_, by decide⟩
  have hstart : v.ReducedTo a xs 0 := ⟨by rw [h0, Nat.zero_mod]; rfl, fun hne => absurd (Nat.zero_mod _) hne⟩
  have hout := hstart.getElem?_reduce ha (i := i) (by omega)
  rwa [List.drop_zero, Nat.zero_add] at hout

/-- Settles O31: both commands answer with the value of their function, which the closed forms give. -/
theorem srrpAndFmodeResults : Obligations.SrrpAndFmodeResults := by
  unfold Obligations.SrrpAndFmodeResults
  exact ⟨fun s val => exec_srrp val s, by decide, by decide, by decide,
    fun p hlo hhi => ⟨srrPeriod_ofNat hlo hhi (.inl rfl), srrPeriod_ofNat hlo hhi (.inr rfl)⟩,
    fun s val => by rw [exec_fmode, zext64_code_modeFromParam]⟩

end

/-! The resonant filter (45_filter.md) and the readback tables of VRD and FRD: the clamp of the cutoff in use, what
filterRecompute installs, the entries of CUTOFF_HZ, one filter step, and the value each selector reads. -/

section

open Sys2Proof Sys2Proof.Machine

namespace Sys2Proof

/-! ## The order of values that are no NaN, and min and max (R13) -/

/-- Values in order are no NaN. -/
theorem F64.isNaN_of_le {x y : F64} (h : x.le y = true) : x.isNaN = false ∧ y.isNaN = false := by
  match x, y, h with
  | .inf _, .inf _, _ | .inf _, .fin _ _ _, _ | .fin _ _ _, .inf _, _ | .fin _ _ _, .fin _ _ _, _ => exact ⟨rfl, rfl⟩

/-- −∞ is at most every value that is no NaN. -/
theorem F64.negInf_le {x : F64} (h : x.isNaN = false) : (F64.inf true).le x = true := by
  cases x with
  | nan s p => cases h
  | inf s => rfl
  | fin s e f => rfl

/-- Every value that is no NaN is at most +∞. -/
theorem F64.le_posInf {x : F64} (h : x.isNaN = false) : x.le (F64.inf false) = true := by
  cases x with
  | nan s p => cases h
  | inf s => cases s <;> rfl
  | fin s e f => rfl

/-- Of two values that are no NaN one is at most the other. -/
theorem F64.le_total {x y : F64} (hx : x.isNaN = false) (hy : y.isNaN = false) : x.le y = true ∨ y.le x = true := by
  match x, y with
  | .inf true, _ => exact .inl (F64.negInf_le hy)
  | .inf false, _ => exact .inr (F64.le_posInf hy)
  | .fin _ _ _, .inf true => exact .inr rfl
  | .fin _ _ _, .inf false => exact .inl rfl
  | .fin _ _ _, .fin _ _ _ =>
    rw [F64.le_iff_of_finite rfl rfl, F64.le_iff_of_finite rfl rfl]
    exact Int.le_total _ _

/-- The order is transitive. -/
theorem F64.le_trans {x y z : F64} (hxy : x.le y = true) (hyz : y.le z = true) : x.le z = true := by
  obtain ⟨hx, -⟩ := F64.isNaN_of_le hxy
  obtain ⟨-, hz⟩ := F64.isNaN_of_le hyz
  obtain rfl | rfl | ⟨hxfin, hyfin, hle⟩ := F64.le_cases hxy
  · exact F64.negInf_le hz
  · obtain h | rfl | ⟨h, -⟩ := F64.le_cases hyz
    · cases h
    · exact F64.le_posInf hx
    · cases h
  · obtain rfl | rfl | ⟨-, hzfin, hle'⟩ := F64.le_cases hyz
    · cases hyfin
    · exact F64.le_posInf hx
    · exact (F64.le_iff_of_finite hxfin hzfin).mpr (hle.trans hle')

/-- A value below another is at most it, and the other is not at most the value. -/
theorem F64.le_of_lt {x y : F64} (h : x.lt y = true) : x.le y = true ∧ y.le x = false := by
  simp only [F64.lt, Bool.and_eq_true, Bool.not_eq_true'] at h
  obtain ⟨⟨hx, hy⟩, hle⟩ := h
  exact ⟨(F64.le_total hx hy).resolve_right (by simp [hle]), hle⟩

/-- What is at least a value above x is not at most x. -/
theorem F64.not_le_of_lt_of_le {x y z : F64} (hxy : x.lt y = true) (hyz : y.le z = true) : z.le x = false :=
  Bool.eq_false_of_not_eq_true fun hzx => by simpa [F64.le_of_lt hxy] using F64.le_trans hyz hzx

theorem F64.max_of_le {a b : F64} (h : b.le a = true) : F64.max a b = a := if_pos h
theorem F64.max_of_not_le {a b : F64} (h : b.le a = false) : F64.max a b = b := if_neg (by simp [F64.ge, h])
theorem F64.min_of_le {a b : F64} (h : a.le b = true) : F64.min a b = a := if_pos h
theorem F64.min_of_not_le {a b : F64} (h : a.le b = false) : F64.min a b = b := if_neg (by simp [h])

/-! ## A table entry within half its last place -/

/-- x is a finite value with sign bit 0 that is within half its last place of the n-th root of t: the n-th powers of x
less and plus half its last place enclose t, all scaled so that the half place is 1. -/
def F64.withinHalfPlace (n t : Nat) : F64 → Bool
  | .fin false e f =>
    decide (e.val ≤ 1076 ∧ (2 * (2 ^ 52 + f.val) - 1) ^ n < t * (2 ^ (1076 - e.val)) ^ n ∧
      t * (2 ^ (1076 - e.val)) ^ n < (2 * (2 ^ 52 + f.val) + 1) ^ n)
  | _ => false

/-- The fields of such a value. -/
theorem F64.exists_of_withinHalfPlace {n t : Nat} {x : F64} (h : x.withinHalfPlace n t = true) :
    ∃ (e : Fin 2047) (f : Fin 4503599627370496) (m : Nat), x = .fin false e f ∧ m = 2 * (2 ^ 52 + f.val) ∧
      e.val ≤ 1076 ∧ (m - 1) ^ n < t * (2 ^ (1076 - e.val)) ^ n ∧ t * (2 ^ (1076 - e.val)) ^ n < (m + 1) ^ n := by
  match x, h with
  | .fin false e f, h => exact ⟨e, f, _, rfl, rfl, of_decide_eq_true h⟩

/-- Every entry of CUTOFF_HZ is within half its last place of 20 × 1000^(p/127) (R97). -/
theorem cutoffHz_withinHalfPlace : ∀ p : Param,
    (cutoffHz p).withinHalfPlace 127 (20 ^ 127 * 1000 ^ p.toNat) = true := by
  decide +kernel

end Sys2Proof

namespace Sys2Proof.Machine

/-! ## The cutoff in use (R99) -/

/-- A NaN request is passed on (R99). -/
theorem clampCutoff_of_nan (rate : F64) {req : F64} (h : req.isNaN = true) : clampCutoff rate req = req := if_pos h

/-- Any other request is clamped, max first (R99). -/
theorem clampCutoff_of_not_nan (rate : F64) {req : F64} (h : req.isNaN = false) :
    clampCutoff rate req = F64.min (F64.max req F64.cTwenty) (F64.cFcMaxFrac.mul rate) :=
  if_neg (by simp [h])

/-! ## What filterRecompute installs (R101, R102, R103) -/

/-- The failure tests made before the derivation, one by one (R101). -/
theorem deriveFails_iff {fs fc q : F64} : deriveFails fs fc q = true ↔
    fs.isFinite = false ∨ fs.le F64.cZero = true ∨ fc.isFinite = false ∨ fc.le F64.cZero = true ∨
      fs.lt (F64.cTwo.mul fc) = true ∨ q.isFinite = false ∨ q.le F64.cZero = true := by
  simp only [deriveFails, F64.gt, Bool.or_eq_true, Bool.not_eq_true', or_assoc]

/-- A set is finite when each of its five coefficients is. -/
theorem Coeffs.allFinite_iff {k : Coeffs} :
    k.allFinite = true ↔ ∀ x ∈ [k.b0, k.b1, k.b2, k.a1, k.a2], x.isFinite = true := by
  simp [Coeffs.allFinite, and_assoc]

/-- A set is not finite when one of its five coefficients is not. -/
theorem Coeffs.allFinite_eq_false_iff {k : Coeffs} :
    k.allFinite = false ↔ ∃ x ∈ [k.b0, k.b1, k.b2, k.a1, k.a2], x.isFinite = false := by
  rw [← Bool.not_eq_true, Coeffs.allFinite_iff]
  simp only [not_forall, Bool.not_eq_true, exists_prop]

/-- A failure test that holds, or a derived coefficient that is not finite, gives the fallback set (R101, R102). -/
theorem coeffsFor_of_failure {p : Params} {rate fcReq res : F64} {mode : FilterMode}
    (h : deriveFails rate (clampCutoff rate fcReq) (qOf res) = true ∨
      (derive p rate (clampCutoff rate fcReq) (qOf res) mode).allFinite = false) :
    coeffsFor p rate fcReq res mode = (Coeffs.fallbackSet, true) := by
  unfold coeffsFor
  obtain h | h := h <;> simp [h]

/-- Where every test passes, a finite derived set is the one in use (R101). -/
theorem coeffsFor_of_derived {p : Params} {rate fcReq res : F64} {mode : FilterMode}
    (h : deriveFails rate (clampCutoff rate fcReq) (qOf res) = false)
    (hfin : (derive p rate (clampCutoff rate fcReq) (qOf res) mode).allFinite = true) :
    coeffsFor p rate fcReq res mode = (derive p rate (clampCutoff rate fcReq) (qOf res) mode, false) := by
  simp [coeffsFor, h, hfin]

/-- filterRecompute writes the coefficients and FALLBACK of the state's filter inputs and nothing else (R103). -/
theorem State.filterRecompute_of_coeffsFor {s : State} {k : Coeffs} {b : Bool}
    (h : coeffsFor s.cfg s.rate s.filter.fcReq s.filter.res s.filter.mode = (k, b)) :
    s.filterRecompute = { s with filter := { s.filter with coeffs := k, fallback := b } } := by
  rw [State.filterRecompute, h, State.setFilter]

/-! ## The readback tables (R110, R130) -/

/-- VRD of a selector that names a value (R130). -/
theorem exec_vrd_of_readback {ch sel : BitVec 8} {s : State} {r : Word}
    (h : (s.voice (chan ch)).readback sel = some r) : exec (.vrd ch sel) s = .next (s.respond .ok r 0) := by
  simp only [exec, execVrd, h, complete]

/-- FRD of a selector that names a value (R110). -/
theorem exec_frd_of_readback {sel : BitVec 8} {s : State} {r : Word}
    (h : s.filter.readback sel = some r) : exec (.frd sel) s = .next (s.respond .ok r 0) := by
  simp only [exec, execFrd, h, complete]

/-- A field's zero extension as a result word. -/
theorem zext64_toNat {w : Nat} (x : BitVec w) : zext64 x.toNat = x.setWidth 64 := BitVec.ofNat_toNat 64 x

/-- A flag as a result word. -/
theorem bit64_eq (b : Bool) : bit64 b = if b = true then 1 else 0 := by cases b <;> rfl

end Sys2Proof.Machine

/-- Settles O34: 20 and 0.45 × RATE split the requests by the order of binary64 values, and `max` and `min` pick. -/
theorem cutoffClamp : Obligations.CutoffClamp := by
  unfold Obligations.CutoffClamp
  rintro rate req hi - hhi -
  have hclamp : req.isNaN = false → clampCutoff rate req = F64.min (F64.max req F64.cTwenty) hi :=
    fun h => hhi ▸ clampCutoff_of_not_nan rate h
  refine ⟨clampCutoff_of_nan rate, fun hreq hlow => ?_,
    fun h20 => ⟨fun hlow => ?_, fun hlow hhigh => ?_, fun hhigh => ?_⟩⟩
  · -- the upper limit is below 20, so below what `max` gives
    rw [hclamp hreq, F64.min_of_not_le]
    cases h : F64.cTwenty.le req with
    | true => rw [F64.max_of_le h, F64.not_le_of_lt_of_le hlow h]
    | false => rw [F64.max_of_not_le h, (F64.le_of_lt hlow).2]
  · obtain ⟨hle, hnot⟩ := F64.le_of_lt hlow
    rw [hclamp (F64.isNaN_of_le hle).1, F64.max_of_not_le hnot, F64.min_of_le h20]
  · rw [hclamp (F64.isNaN_of_le hhigh).1, F64.max_of_le hlow, F64.min_of_le hhigh]
  · obtain ⟨hle, hnot⟩ := F64.le_of_lt hhigh
    rw [hclamp (F64.isNaN_of_le hle).2, F64.max_of_le (F64.le_trans h20 hle), F64.min_of_not_le hnot]

/-- Settles O36: the failure tests and the finiteness of the derived set decide what `coeffsFor` gives, which is what
filterRecompute writes. -/
theorem filterRecompute : Obligations.FilterRecompute := by
  unfold Obligations.FilterRecompute
  rintro s q fc k fb hq rfl rfl rfl
  obtain rfl : q = qOf s.filter.res := hq
  refine ⟨fun h => State.filterRecompute_of_coeffsFor (coeffsFor_of_failure ?_),
    fun hrate hrate0 hfc hfc0 hnyquist hq hq0 hk => State.filterRecompute_of_coeffsFor
      (coeffsFor_of_derived ?_ (Coeffs.allFinite_iff.mpr hk))⟩
  · rw [deriveFails_iff, Coeffs.allFinite_eq_false_iff]
    simpa only [or_assoc] using h
  · rw [← Bool.not_eq_true, deriveFails_iff]
    simp only [hrate, hrate0, hfc, hfc0, hnyquist, hq, hq0, reduceCtorEq, or_self, not_false_eq_true]

/-- Settles O32: the entries are within half their last place by evaluation of the 127th powers. -/
theorem cutoffTable : Obligations.CutoffTable := by
  unfold Obligations.CutoffTable
  exact ⟨fun s val => exec_cuthz val s, by decide +kernel, by decide +kernel,
    fun val => F64.exists_of_withinHalfPlace (cutoffHz_withinHalfPlace val)⟩

/-- Settles O35: the model's derivation is the rule's, expression by expression. -/
theorem deriveFormulas : Obligations.DeriveFormulas := by
  unfold Obligations.DeriveFormulas
  rintro p fs fc q w sn cs alpha dv rfl rfl rfl rfl rfl
  exact ⟨rfl, rfl, rfl⟩

/-- Settles O39: FILT is `filterStep`, whose two lanes are read off; the reset example evaluates. -/
theorem filtResult : Obligations.FiltResult := by
  unfold Obligations.FiltResult
  exact ⟨fun s d0 d1 => ⟨_, _, _, rfl, rfl, exec_filt d0 d1 s, rfl, rfl, rfl⟩,
    _, exec_filt _ _ _, by decide +kernel⟩

/-- Settles O42: each row of the two tables is a case of `readback`, and the selectors without a row have no value. -/
theorem readbackTables : Obligations.ReadbackTables := by
  unfold Obligations.ReadbackTables
  refine ⟨fun s ch v hv p hp => exec_vrd_of_readback ?_, fun s ch _ h => exec_vrd_of_unnamed h ch s,
    fun s f hf p hp => exec_frd_of_readback ?_, fun s _ h => exec_frd_of_unnamed h s⟩
  · rw [← hv]
    revert p
    simp [Voice.readback, bits64, bit64_eq, zext64_toNat, Voice.snapAt, Voice.ratio]
  · rw [← hf]
    revert p
    cases hm : f.mode <;> simp [FilterState.readback, bits64, bit64_eq, hm, FilterMode.code, zext64]

end

/-! The voice's commands PITCH and STOP (46_voice.md R114, R115, R127, R131): the entries of PITCH_RATIO, and a voice
without ACTIVE and without retriggers. -/

section

open Sys2Proof Sys2Proof.Machine

set_option exponentiation.threshold 3000

namespace Sys2Proof

/-! ## The entries of PITCH_RATIO (R114, R115) -/

/-- x is a finite value with sign bit 0 that is within half its last place of the n-th root of s/t: the n-th powers of x
less and plus half its last place, times t, enclose s, all scaled so that the half place is 1. -/
def F64.withinHalfPlaceOfRatio (n s t : Nat) : F64 → Bool
  | .fin false e f =>
    decide (e.val ≤ 1076 ∧ t * (2 * (2 ^ 52 + f.val) - 1) ^ n < s * (2 ^ (1076 - e.val)) ^ n ∧
      s * (2 ^ (1076 - e.val)) ^ n < t * (2 * (2 ^ 52 + f.val) + 1) ^ n)
  | _ => false

/-- The fields of such a value. -/
theorem F64.exists_of_withinHalfPlaceOfRatio {n s t : Nat} {x : F64} (h : x.withinHalfPlaceOfRatio n s t = true) :
    ∃ (e : Fin 2047) (f : Fin 4503599627370496) (m : Nat), x = .fin false e f ∧ m = 2 * (2 ^ 52 + f.val) ∧
      e.val ≤ 1076 ∧ t * (m - 1) ^ n < s * (2 ^ (1076 - e.val)) ^ n ∧
      s * (2 ^ (1076 - e.val)) ^ n < t * (m + 1) ^ n := by
  match x, h with
  | .fin false e f, h => exact ⟨e, f, _, rfl, rfl, of_decide_eq_true h⟩

/-- Every entry of PITCH_RATIO is within half its last place of 2^((p - 64)/12) (R114). -/
theorem pitchRatio_withinHalfPlace : ∀ p : Param,
    (pitchRatio p).withinHalfPlaceOfRatio 12 (2 ^ p.toNat) (2 ^ 64) = true := by
  decide +kernel

/-- An entry twelve higher is exactly twice the entry (R115). -/
theorem pitchRatio_octave : ∀ p : Fin 116,
    pitchRatio (BitVec.ofNat 7 (p.val + 12)) = F64.cTwo.mul (pitchRatio (BitVec.ofNat 7 p.val)) := by
  decide +kernel

/-- Every entry lies from 0.0248 to 38.055 (R115). -/
theorem pitchRatio_bounds : ∀ p : Param,
    248 * 2 ^ 1074 ≤ 10000 * (pitchRatio p).units ∧ 1000 * (pitchRatio p).units ≤ 38055 * 2 ^ 1074 := by
  decide +kernel

end Sys2Proof

namespace Sys2Proof.Machine

/-! ## A voice that is not playing (R121, R127) -/

/-- Without retriggers left the first stage changes nothing (R122). -/
theorem Voice.stepRetrigger_of_spent {v : Voice} (rate : F64) (b : Buffer) (h : v.rtrgRem = 0) :
    v.stepRetrigger rate b = v := by
  rw [Voice.stepRetrigger, if_neg (by rw [h]; decide)]

/-- A step of a voice without retriggers is its stages 2 to 6 (R121). -/
theorem Voice.process_of_spent {v : Voice} (rate : F64) (b : Buffer) (c : Channel) (h : v.rtrgRem = 0) :
    v.process rate b c = v.stepPlay b c := by
  rw [Voice.process, Voice.stepRetrigger_of_spent rate b h]

/-- A voice without ACTIVE and without retriggers gives +0.0 and is kept (R121). -/
theorem Voice.process_of_idle {v : Voice} (rate : F64) (b : Buffer) (c : Channel) (ha : v.active = false)
    (hrem : v.rtrgRem = 0) : v.process rate b c = .ok (F64.cZero, v) := by
  rw [Voice.process_of_spent rate b c hrem, Voice.stepPlay_of_inactive b c ha]

/-- VSTEP of such a voice answers +0.0 and leaves the state (R127, R128). -/
theorem exec_vstep_of_idle {ch : BitVec 8} {s : State} (ha : (s.voice (chan ch)).active = false)
    (hrem : (s.voice (chan ch)).rtrgRem = 0) : exec (.vstep ch) s = .next (s.respond .ok 0 0) := by
  refine exec_vstep.mpr ⟨_, _, Voice.process_of_idle _ _ _ ha hrem, ?_⟩
  have hbits : F64.cZero.toBits = 0 := by decide
  rw [State.setVoice_voice_self, hbits]

end Sys2Proof.Machine

/-- Settles O47: STOP writes `Voice.stopped` into its voice, which is then idle. -/
theorem stopResult : Obligations.StopResult := by
  unfold Obligations.StopResult
  intro s ch
  obtain ⟨t, ht⟩ : ∃ t, t = (s.setVoice (chan ch) (s.voice (chan ch)).stopped).respond .ok 0 0 := ⟨_, rfl⟩
  have hself : t.voice (chan ch) = (s.voice (chan ch)).stopped := by
    rw [ht, State.voice_respond, State.voice_setVoice_self]
  refine ⟨t, by rw [ht, exec_stop], by rw [ht]; rfl, hself, fun c hc => ?_, by rw [ht]; rfl, by rw [hself]; rfl,
    exec_vstep_of_idle (by rw [hself]; rfl) (by rw [hself]; rfl)⟩
  rw [ht, State.voice_respond, State.voice_setVoice_ne s _ hc.symm]

/-- Settles O33: the laws of the table evaluate entry by entry. -/
theorem pitchTable : Obligations.PitchTable := by
  unfold Obligations.PitchTable
  exact ⟨fun s val => exec_pitch val s,
    fun val => F64.exists_of_withinHalfPlaceOfRatio (pitchRatio_withinHalfPlace val),
    by decide +kernel, by decide +kernel, by decide +kernel,
    fun p hp => pitchRatio_octave ⟨p, by omega⟩, pitchRatio_bounds⟩

end

/-! The time a voice keeps (46_voice.md R116 to R118, R120): products and quotients of values with sign bit 0 are
monotone, which bounds the hold, the decay rate and the retrigger interval, so that the counters hold them. -/

section

open Sys2Proof Sys2Proof.Machine F64

set_option exponentiation.threshold 3000

namespace Sys2Proof

/-! ## Monotone operations on finite values with sign bit 0 (R12) -/

/-- Rounding keeps the order of two quotients, an overflow included. -/
theorem F64.roundRat_le_roundRat {n1 d1 n2 d2 : Nat} (h1 : 0 < d1) (h2 : 0 < d2) (h : n1 * d2 ≤ n2 * d1) :
    (roundRat false n1 d1).le (roundRat false n2 d2) = true := by
  have hmono := roundMag_mono h1 h2 h
  obtain ⟨-, e, f, he, hm⟩ | ⟨hge, he⟩ := roundRat_spec false n1 h1
  · obtain ⟨-, e', f', he', hm'⟩ | ⟨-, he'⟩ := roundRat_spec false n2 h2
    · rw [← hm, ← hm', he, he'] at hmono
      rw [he, he', le_iff_of_finite rfl rfl, units_of_sign (sign_fin false e f), units_of_sign (sign_fin false e' f')]
      exact Int.ofNat_le.mpr hmono
    · rw [he, he']; rfl
  · obtain ⟨hlt, -⟩ | ⟨-, he'⟩ := roundRat_spec false n2 h2
    · omega
    · rw [he, he']; rfl

/-- A finite value with sign bit 0. -/
structure F64.Unsigned (x : F64) : Prop where
  finite : x.isFinite = true
  sign : x.sign = false

/-- The exact value of such a value is its magnitude. -/
theorem F64.Unsigned.units_eq {x : F64} (hx : x.Unsigned) : x.units = x.mag := by
  rw [units_of_sign hx.sign, if_neg Bool.false_ne_true]

/-- Such values are in order as their magnitudes. -/
theorem F64.Unsigned.le_iff {x y : F64} (hx : x.Unsigned) (hy : y.Unsigned) : x.le y = true ↔ x.mag ≤ y.mag := by
  rw [le_iff_of_finite hx.finite hy.finite, hx.units_eq, hy.units_eq, Nat.cast_le]

/-- What is at most a finite value and has sign bit 0 is finite. -/
theorem F64.Unsigned.of_le {x y : F64} (hsign : x.sign = false) (h : x.le y = true) (hy : y.isFinite = true) :
    x.Unsigned := by
  obtain rfl | rfl | ⟨hx, -⟩ := le_cases h
  · cases hsign
  · cases hy
  · exact ⟨hx, hsign⟩

/-- The product of two such values, rounded from the exact product. -/
theorem F64.Unsigned.mul_eq {x y : F64} (hx : x.Unsigned) (hy : y.Unsigned) :
    x.mul y = roundRat false (x.mag * y.mag) unitsOne := by
  rw [mul_of_finite hx.finite hy.finite, hx.sign, hy.sign, Bool.xor_false]

/-- The quotient of two such values, rounded from the exact quotient. -/
theorem F64.Unsigned.div_eq {x y : F64} (hx : x.Unsigned) (hy : y.Unsigned) (h0 : y.mag ≠ 0) :
    x.div y = roundRat false (x.mag * unitsOne) y.mag := by
  rw [div_of_finite hx.finite hy.finite h0, hx.sign, hy.sign, Bool.xor_false]

/-- Products grow with both factors. -/
theorem F64.Unsigned.mul_le_mul {x x' y y' : F64} (hx : x.Unsigned) (hx' : x'.Unsigned) (hy : y.Unsigned)
    (hy' : y'.Unsigned) (hxx : x.le x' = true) (hyy : y.le y' = true) : (x.mul y).le (x'.mul y') = true := by
  rw [hx.le_iff hx'] at hxx
  rw [hy.le_iff hy'] at hyy
  rw [hx.mul_eq hy, hx'.mul_eq hy']
  exact roundRat_le_roundRat unitsOne_pos unitsOne_pos (Nat.mul_le_mul_right _ (Nat.mul_le_mul hxx hyy))

/-- A product at most a finite value is finite with sign bit 0. -/
theorem F64.Unsigned.mul {x y z : F64} (hx : x.Unsigned) (hy : y.Unsigned) (hz : z.isFinite = true)
    (h : (x.mul y).le z = true) : (x.mul y).Unsigned :=
  .of_le (by rw [hx.mul_eq hy, sign_roundRat]) h hz

/-- Quotients fall as the divisor grows. -/
theorem F64.Unsigned.div_le_div {x y y' : F64} (hx : x.Unsigned) (hy : y.Unsigned) (hy' : y'.Unsigned)
    (h0 : y.mag ≠ 0) (hyy : y.le y' = true) : (x.div y').le (x.div y) = true := by
  rw [hy.le_iff hy'] at hyy
  rw [hx.div_eq hy h0, hx.div_eq hy' (by omega)]
  exact roundRat_le_roundRat (by omega) (by omega) (Nat.mul_le_mul_left _ hyy)

/-- The integer part of such a value. -/
theorem F64.Unsigned.trunc_eq {x : F64} (hx : x.Unsigned) : x.trunc = (x.mag / unitsOne : Nat) := by
  rw [trunc_of_finite hx.finite, hx.units_eq, Int.ofNat_tdiv]

/-- The integer part grows with the value. -/
theorem F64.Unsigned.trunc_le_trunc {x y : F64} (hx : x.Unsigned) (hy : y.Unsigned) (h : x.le y = true) :
    0 ≤ x.trunc ∧ x.trunc ≤ y.trunc := by
  rw [hx.le_iff hy] at h
  rw [hx.trunc_eq, hy.trunc_eq]
  exact ⟨Int.natCast_nonneg _, Int.ofNat_le.mpr (Nat.div_le_div_right h)⟩

/-- What is at least a value above 0.0 is above 0.0. -/
theorem F64.lt_of_lt_of_le {x y z : F64} (hxy : x.lt y = true) (hyz : y.le z = true) : x.lt z = true := by
  have hle := not_le_of_lt_of_le hxy hyz
  obtain ⟨hx, -⟩ := isNaN_of_le (le_of_lt hxy).1
  obtain ⟨-, hz⟩ := isNaN_of_le hyz
  simp [F64.lt, hx, hz, hle]

/-! ## norm (R16) -/

/-- `norm(n)` has the sign bit 0. -/
theorem normParam_unsigned (n : Param) : (normParam n).Unsigned :=
  ⟨(normParam_fraction n).finite, by rw [normParam_eq_roundRat, sign_roundRat]⟩

/-- `norm(n)` grows with n. -/
theorem normParam_mono {m n : Param} (h : m.toNat ≤ n.toNat) : (normParam m).le (normParam n) = true := by
  rw [normParam_eq_roundRat, normParam_eq_roundRat]
  exact F64.roundRat_le_roundRat (by decide) (by decide) (Nat.mul_le_mul_right _ (Nat.mul_le_mul_right _ h))

/-- `norm(n)` is at most norm(127) = 1.0. -/
theorem normParam_le_one (n : Param) : (normParam n).le cOne = true := by
  have h127 : normParam 127 = cOne := by decide +kernel
  rw [← h127]
  exact normParam_mono (by have : (127 : Param).toNat = 127 := rfl; omega)

end Sys2Proof

namespace Sys2Proof.Machine

/-! ## Times at an accepted rate (R116 to R118) -/

/-- An accepted rate is a finite value of sign bit 0 from 1.0 to 2^31 (R10, R22). -/
theorem rate_bounds {p : Params} (hp : paramsValid p) {rate : F64} (h : rateOk p rate = true) :
    rate.Unsigned ∧ cOne.le rate = true ∧ rate.le (F64.ofInt (2 ^ 31)) = true := by
  obtain ⟨hfin, hsign, hmag⟩ := rate_range hp h
  have hu : rate.Unsigned := ⟨hfin, hsign⟩
  obtain ⟨hbfin, hbsign, hbmag, -⟩ := ofInt_exact (n := 2 ^ 31) (by decide)
  have habs : (2 ^ 31 : Int).natAbs = 2 ^ 31 := rfl
  simp only [rateOk, Bool.and_eq_true, Bool.not_eq_true', lt_of_finite hfin (y := cOne) rfl,
    decide_eq_false_iff_not, not_lt] at h
  obtain ⟨⟨-, hlo⟩, -⟩ := h
  refine ⟨hu, (le_iff_of_finite rfl hfin).mpr hlo, (hu.le_iff ⟨hbfin, hbsign⟩).mpr ?_⟩
  rw [hbmag, habs]
  exact hmag.le

/-- The factors of the time rules: values of sign bit 0 up to 4.0 that 1.0 times leaves (R116 to R118). -/
structure TimeFactor (k : F64) : Prop where
  unsigned : k.Unsigned
  one_mul : cOne.mul k = k
  le_four : k.le cFour = true

theorem timeFactor_half : TimeFactor cHalf := ⟨⟨by decide, by decide⟩, by decide +kernel, by decide +kernel⟩
theorem timeFactor_two : TimeFactor cTwo := ⟨⟨by decide, by decide⟩, by decide +kernel, by decide +kernel⟩
theorem timeFactor_four : TimeFactor cFour := ⟨⟨by decide, by decide⟩, by decide +kernel, by decide +kernel⟩

/-- `norm(n)` times a factor lies from 0.0 to the factor. -/
theorem TimeFactor.norm_mul {k : F64} (hk : TimeFactor k) (n : Param) :
    ((normParam n).mul k).Unsigned ∧ ((normParam n).mul k).le k = true := by
  have hle := (normParam_unsigned n).mul_le_mul ⟨rfl, rfl⟩ hk.unsigned hk.unsigned (normParam_le_one n)
    ((hk.unsigned.le_iff hk.unsigned).mpr le_rfl)
  rw [hk.one_mul] at hle
  exact ⟨(normParam_unsigned n).mul hk.unsigned hk.unsigned.finite hle, hle⟩

/-- 2^33, which no time at an accepted rate passes. -/
def timeBound : F64 := F64.ofBits 0x4200000000000000

theorem timeBound_unsigned : timeBound.Unsigned := ⟨by decide, by decide⟩

/-- A factor times an accepted rate lies from 0.0 to 4.0 times 2^31. -/
theorem TimeFactor.mul_rate {k : F64} (hk : TimeFactor k) {p : Params} (hp : paramsValid p) {rate : F64}
    (h : rateOk p rate = true) : (k.mul rate).Unsigned ∧ (k.mul rate).le timeBound = true := by
  obtain ⟨hu, -, hle⟩ := rate_bounds hp h
  obtain ⟨hfin, hsign, hbound⟩ : (F64.ofInt (2 ^ 31)).isFinite = true ∧ (F64.ofInt (2 ^ 31)).sign = false ∧
      cFour.mul (F64.ofInt (2 ^ 31)) = timeBound := by decide +kernel
  have hmul := hk.unsigned.mul_le_mul timeFactor_four.unsigned hu ⟨hfin, hsign⟩ hk.le_four hle
  rw [hbound] at hmul
  exact ⟨hk.unsigned.mul hu timeBound_unsigned.finite hmul, hmul⟩

/-- `norm(n)` times a factor times an accepted rate lies from 0.0 to the factor times the rate. -/
theorem TimeFactor.norm_mul_rate {k : F64} (hk : TimeFactor k) (n : Param) {p : Params} (hp : paramsValid p)
    {rate : F64} (h : rateOk p rate = true) :
    (((normParam n).mul k).mul rate).Unsigned ∧ (((normParam n).mul k).mul rate).le (k.mul rate) = true := by
  obtain ⟨hu, -⟩ := rate_bounds hp h
  obtain ⟨hnorm, hle⟩ := hk.norm_mul n
  obtain ⟨hbound, -⟩ := hk.mul_rate hp h
  have hmul := hnorm.mul_le_mul hk.unsigned hu hu hle ((hu.le_iff hu).mpr le_rfl)
  exact ⟨hnorm.mul hu hbound.finite hmul, hmul⟩

/-- The hold is a number of samples from 0 to that of 2.0 seconds (R116). -/
theorem holdSamples_range {p : Params} (hp : paramsValid p) {rate : F64} (h : rateOk p rate = true) (n : Param) :
    0 ≤ holdSamples rate n ∧ holdSamples rate n ≤ (cTwo.mul rate).trunc := by
  obtain ⟨hu, hle⟩ := timeFactor_two.norm_mul_rate n hp h
  exact hu.trunc_le_trunc (timeFactor_two.mul_rate hp h).1 hle

/-- The retrigger interval is a number of samples from 0 to that of 0.5 seconds (R118). -/
theorem retrigInterval_range {p : Params} (hp : paramsValid p) {rate : F64} (h : rateOk p rate = true) (n : Param) :
    0 ≤ retrigInterval rate n ∧ retrigInterval rate n ≤ (cHalf.mul rate).trunc := by
  obtain ⟨hu, hle⟩ := timeFactor_half.norm_mul_rate n hp h
  exact hu.trunc_le_trunc (timeFactor_half.mul_rate hp h).1 hle

/-- The samples of 2.0 seconds fit 32 bits (R10, R34). -/
theorem trunc_two_mul_rate_lt {p : Params} (hp : paramsValid p) {rate : F64} (h : rateOk p rate = true) :
    (cTwo.mul rate).trunc < 2 ^ 32 := by
  obtain ⟨hfin, hsign, hmag⟩ := rate_range hp h
  have htwo : cTwo.mag = 2 * unitsOne := by decide +kernel
  have hlt : rate.mag * 2 ^ 1 / unitsOne < 2 ^ 32 := Nat.div_lt_of_lt_mul (by omega)
  have hlim : rate.mag * 2 ^ 1 < unitsLimit := by
    calc rate.mag * 2 ^ 1 < 2 ^ 31 * unitsOne * 2 ^ 1 := by omega
      _ = 2 ^ (32 + 1074) := by unfold F64.unitsOne; rw [pow_add]; ring
      _ < unitsLimit := pow_lt_limit (by decide)
  obtain ⟨-, -, hexact⟩ := roundRat_exact false unitsOne_pos (representable_mul_pow (representable_mag rate) 1)
    (num := cTwo.mag * rate.mag) (by rw [htwo]; ring) hlim
  rw [← timeFactor_two.unsigned.mul_eq ⟨hfin, hsign⟩] at hexact
  rw [(timeFactor_two.mul_rate hp h).1.trunc_eq, hexact]
  exact_mod_cast hlt

/-- The samples of 0.5 seconds are at most those of 2.0. -/
theorem trunc_half_mul_rate_le {p : Params} (hp : paramsValid p) {rate : F64} (h : rateOk p rate = true) :
    (cHalf.mul rate).trunc ≤ (cTwo.mul rate).trunc := by
  obtain ⟨hu, -⟩ := rate_bounds hp h
  have hle := timeFactor_half.unsigned.mul_le_mul timeFactor_two.unsigned hu hu (by decide +kernel)
    ((hu.le_iff hu).mpr le_rfl)
  exact ((timeFactor_half.mul_rate hp h).1.trunc_le_trunc (timeFactor_two.mul_rate hp h).1 hle).2

/-! ## The decay rate (R117) -/

/-- 4.0 × norm(1), the least time factor of a decay that is not 0. -/
def leastDecay : F64 := (normParam 1).mul cFour

/-- What the least factor gives, by evaluation: 1.0 / 4.0 norm(1) is 31.75, and 4.0 norm(1) × 31.75 is 1.0 (R117). -/
theorem leastDecay_values : leastDecay.mag ≠ 0 ∧ leastDecay.mul cOne = leastDecay ∧
    cOne.div leastDecay = F64.ofBits 0x403FC00000000000 ∧ leastDecay.mul (F64.ofBits 0x403FC00000000000) = cOne := by
  decide +kernel

/-- The decay time of an amount that is not 0 grows with the rate from the least factor times it (R117). -/
theorem leastDecay_mul_le {n : Param} (hn : n ≠ 0) {r rate : F64} (hr : r.Unsigned) (hrate : rate.Unsigned)
    (h : r.le rate = true) : (leastDecay.mul r).le (((normParam n).mul cFour).mul rate) = true := by
  have h1 : (1 : Param).toNat ≤ n.toNat := by
    have hone : (1 : Param).toNat = 1 := rfl
    have hne : n.toNat ≠ 0 := fun h => hn (BitVec.eq_of_toNat_eq h)
    omega
  have hfour := timeFactor_four.unsigned
  have hle := (normParam_unsigned 1).mul_le_mul (normParam_unsigned n) hfour hfour (normParam_mono h1)
    ((hfour.le_iff hfour).mpr le_rfl)
  exact (timeFactor_four.norm_mul 1).1.mul_le_mul (timeFactor_four.norm_mul n).1 hr hrate hle h

/-- The decay rate of an amount that is not 0: above 0.0, at most 31.75, and at most 1.0 at rates from 31.75 on
(R117). -/
theorem decayRateFor_bounds {p : Params} (hp : paramsValid p) {rate : F64} (h : rateOk p rate = true) {n : Param}
    (hn : n ≠ 0) : decayRateFor rate n = cOne.div (((normParam n).mul cFour).mul rate) ∧
      cZero.lt (decayRateFor rate n) = true ∧
      (decayRateFor rate n).le (F64.ofBits 0x403FC00000000000) = true ∧
      ((F64.ofBits 0x403FC00000000000).le rate = true → (decayRateFor rate n).le cOne = true) := by
  obtain ⟨hrate, hone, -⟩ := rate_bounds hp h
  obtain ⟨hne, hmul1, hdiv, hmul⟩ := leastDecay_values
  obtain ⟨hfour, hbound⟩ := timeFactor_four.mul_rate hp h
  obtain ⟨hu, hle⟩ := timeFactor_four.norm_mul_rate n hp h
  have hleast : leastDecay.Unsigned := (timeFactor_four.norm_mul 1).1
  have hgrow {r : F64} (hr : r.Unsigned) := leastDecay_mul_le hn hr hrate
  have hlow := hgrow ⟨rfl, rfl⟩ hone
  rw [hmul1] at hlow
  have hdecay : decayRateFor rate n = cOne.div (((normParam n).mul cFour).mul rate) := if_neg hn
  rw [hdecay]
  generalize ((normParam n).mul cFour).mul rate = y at *
  have hy0 : y.mag ≠ 0 := by
    rw [hleast.le_iff hu] at hlow
    omega
  refine ⟨rfl, ?_, ?_, fun hr => ?_⟩
  · have hpos : cZero.lt (cOne.div timeBound) = true := by decide +kernel
    exact F64.lt_of_lt_of_le hpos
      (F64.Unsigned.div_le_div ⟨rfl, rfl⟩ hu timeBound_unsigned hy0 (F64.le_trans hle hbound))
  · rw [← hdiv]
    exact F64.Unsigned.div_le_div ⟨rfl, rfl⟩ hleast hu hne hlow
  · have hone_div : cOne.div cOne = cOne := by decide +kernel
    have hge := hgrow ⟨rfl, rfl⟩ hr
    rw [hmul] at hge
    have hdiv_le := F64.Unsigned.div_le_div (x := cOne) ⟨rfl, rfl⟩ ⟨rfl, rfl⟩ hu (by decide) hge
    rwa [hone_div] at hdiv_le

/-! ## TRIG (R119, R120, R126) -/

/-- An integer in the range of a 32-bit field reads back from it (R34). -/
theorem toNat_ofInt_32 {z : Int} (h0 : 0 ≤ z) (h : z < 2 ^ 32) : ((BitVec.ofInt 32 z).toNat : Int) = z := by
  rw [BitVec.toNat_ofInt]
  omega

/-- The snapshot is the first nine parameters (R120). -/
theorem takeSnapshot_toList (p : Vector Param 12) : (takeSnapshot p).toList = p.toList.take 9 := by
  refine List.ext_getElem (by simp) fun i hi _ => ?_
  have hi : i < 9 := by simpa using hi
  interval_cases i <;> simp [takeSnapshot]

/-- Arming writes RTRGREM, RTRGINT and RTRGCNT only: the count, the interval or 0 without retriggers, and 0 (R120). -/
theorem Voice.armRetrigger_eq (v : Voice) (rate : F64) :
    v.armRetrigger rate =
      { v with
        rtrgRem := v.snapAt 5
        rtrgInt := if v.snapAt 5 = 0 then 0 else BitVec.ofInt 32 (retrigInterval rate (v.snapAt 6))
        rtrgCnt := 0 } := by
  unfold Voice.armRetrigger
  by_cases h : v.snapAt 5 = 0
  · rw [if_neg (by simp [h]), if_pos h, h]
  · rw [if_pos (by rw [Nat.pos_iff_ne_zero]; exact fun h0 => h (BitVec.eq_of_toNat_eq h0)), if_neg h]

/-- A triggered voice: the restart of R119 on the new snapshot, then the schedule of R120; every field is written. -/
theorem Voice.trigger_eq (v : Voice) (p : Vector Param 12) (rate : F64) (b : Buffer) :
    v.trigger p rate b =
      { pos := F64.min (F64.max ((normParam p[0]).mul b.lenF64) F64.cZero) b.lenF64
        env := F64.cOne
        active := true
        holdRem := BitVec.ofInt 32 (holdSamples rate p[3])
        decayRate := decayRateFor rate p[4]
        rtrgRem := p[5]
        rtrgInt := if p[5] = 0 then 0 else BitVec.ofInt 32 (retrigInterval rate p[6])
        rtrgCnt := 0
        srrCnt := 0
        srrHold := F64.cZero
        snap := takeSnapshot p } := by
  rw [Voice.trigger, Voice.armRetrigger_eq, Voice.internalTrigger_eq]
  rfl

/-- The interval TRIG arms fits its field (R34, R120). -/
theorem toNat_armed_interval {p : Params} (hp : paramsValid p) {rate : F64} (h : rateOk p rate = true) (k n : Param) :
    ((if k = 0 then (0 : BitVec 32) else BitVec.ofInt 32 (retrigInterval rate n)).toNat : Int) =
      if k = 0 then 0 else retrigInterval rate n := by
  obtain ⟨h0, hle⟩ := retrigInterval_range hp h n
  have hhalf := trunc_half_mul_rate_le hp h
  have htwo := trunc_two_mul_rate_lt hp h
  split
  · rfl
  · exact toNat_ofInt_32 h0 (by omega)

end Sys2Proof.Machine

/-- Settles O44: the time factors keep `norm(n)` and the rate in order, and the least decay evaluates. -/
theorem triggerTimeBounds : Obligations.TriggerTimeBounds := by
  unfold Obligations.TriggerTimeBounds
  intro p rate n hp h
  obtain ⟨hhold0, hhold⟩ := holdSamples_range hp h n
  obtain ⟨hint0, hint⟩ := retrigInterval_range hp h n
  exact ⟨rfl, hhold0, hhold, rfl, hint0, hint, if_pos rfl, decayRateFor_bounds hp h⟩

/-- Settles O43: TRIG writes `Voice.trigger_eq` into its voice, and at an accepted rate the two counters hold their
numbers of samples. -/
theorem trigResult : Obligations.TrigResult := by
  unfold Obligations.TrigResult
  intro s ch hinv
  obtain ⟨hhold0, hhold⟩ := holdSamples_range hinv.cfgValid hinv.rateValid s.params[3]
  have htwo := trunc_two_mul_rate_lt hinv.cfgValid hinv.rateValid
  obtain ⟨v, hv⟩ : ∃ v, v = (s.voice (chan ch)).trigger s.params s.rate (s.buf (chan ch)) := ⟨_, rfl⟩
  obtain ⟨t, ht⟩ : ∃ t, t = (s.setVoice (chan ch) v).respond .ok 0 0 := ⟨_, rfl⟩
  have hself : t.voice (chan ch) = v := by rw [ht, State.voice_respond, State.voice_setVoice_self]
  refine ⟨t, v, (s.buf (chan ch)).lenF64, by rw [ht, hv, exec_trig], by rw [ht]; rfl, hself.symm, rfl, ?_⟩
  rw [hv, Voice.trigger_eq]
  refine ⟨takeSnapshot_toList s.params, rfl, rfl, rfl, rfl, rfl, toNat_ofInt_32 hhold0 (by omega), rfl, rfl,
    toNat_armed_interval hinv.cfgValid hinv.rateValid _ _, rfl, fun c hc => ?_, by rw [ht]; rfl⟩
  rw [ht, State.voice_respond, State.voice_setVoice_ne s _ hc.symm]

end

/-! Runs of one voice (46_voice.md R121 to R124): a property that every step keeps holds after n steps. With it the
schedule of the retriggers, counted from a counter at 0, and the envelope of a voice without retriggers. -/

section

open Sys2Proof Sys2Proof.Machine

namespace Sys2Proof.Machine

/-! ## Runs -/

/-- A run of n + 1 steps is a step and a run of n. -/
theorem Voice.run_succ_ok {rate : F64} {b : Buffer} {c : Channel} {n : Nat} {v w : Voice} {ys : List F64}
    (h : Voice.run rate b c (n + 1) v = .ok (ys, w)) :
    ∃ y v' zs, v.process rate b c = .ok (y, v') ∧ Voice.run rate b c n v' = .ok (zs, w) := by
  unfold Voice.run at h
  split at h
  · cases h
  · next y v' hp =>
    split at h
    · cases h
    · next zs w' hr =>
      cases h
      exact ⟨y, v', zs, hp, hr⟩

/-- What holds of a voice after k steps and passes from each step to the next holds after n more. -/
theorem Voice.run_induction {rate : F64} {b : Buffer} {c : Channel} {P : Nat → Voice → Prop}
    (hstep : ∀ {k v y v'}, P k v → v.process rate b c = .ok (y, v') → P (k + 1) v') {n k : Nat} {v w : Voice}
    {ys : List F64} (h : P k v) (hrun : Voice.run rate b c n v = .ok (ys, w)) : P (k + n) w := by
  induction n generalizing k v ys with
  | zero =>
    cases hrun
    exact h
  | succ n ih =>
    obtain ⟨y, v', zs, hp, hr⟩ := Voice.run_succ_ok hrun
    rw [Nat.add_succ, ← Nat.succ_add]
    exact ih (hstep h hp) hr

/-! ## The schedule of the retriggers (R122) -/

/-- Stages 2 to 6 keep RTRGREM and RTRGCNT (R121). -/
theorem Voice.stepPlay_schedule {v v' : Voice} {b : Buffer} {c : Channel} {y : F64}
    (h : v.stepPlay b c = .ok (y, v')) : v'.rtrgRem = v.rtrgRem ∧ v'.rtrgCnt = v.rtrgCnt := by
  obtain ⟨-, -, rfl⟩ | ⟨-, -, -, rfl⟩ | ⟨-, -, x, u, hr, -, rfl⟩ := Voice.stepPlay_ok h
  · exact ⟨rfl, rfl⟩
  · exact ⟨rfl, rfl⟩
  · rw [Voice.stepEnvelope_frame, Voice.readWithLoFi_frame hr]
    exact ⟨rfl, rfl⟩

/-- The restart of the first stage: the internal trigger with the counter at 0 and one retrigger less (R122). -/
theorem Voice.stepRetrigger_of_due {v : Voice} (rate : F64) (b : Buffer) (hrem : 0 < v.rtrgRem.toNat)
    (hdue : v.rtrgInt.toNat ≤ v.rtrgCnt.toNat + 1) :
    v.stepRetrigger rate b = { v.internalTrigger rate b with rtrgCnt := 0, rtrgRem := v.rtrgRem - 1 } := by
  rw [Voice.stepRetrigger, if_pos hrem, if_pos hdue, Voice.internalTrigger_eq, Voice.internalTrigger_eq]
  rfl

/-- One step of the schedule: nothing without retriggers, one count below the interval, or a restart (R122). -/
theorem Voice.process_schedule {v v' : Voice} {rate : F64} {b : Buffer} {c : Channel} {y : F64}
    (h : v.process rate b c = .ok (y, v')) :
    (v.rtrgRem.toNat = 0 ∧ v'.rtrgRem.toNat = 0 ∧ v'.rtrgCnt.toNat = v.rtrgCnt.toNat) ∨
    (0 < v.rtrgRem.toNat ∧ v.rtrgCnt.toNat + 1 < v.rtrgInt.toNat ∧ v'.rtrgRem.toNat = v.rtrgRem.toNat ∧
      v'.rtrgCnt.toNat = v.rtrgCnt.toNat + 1) ∨
    (0 < v.rtrgRem.toNat ∧ v.rtrgInt.toNat ≤ v.rtrgCnt.toNat + 1 ∧ v'.rtrgRem.toNat = v.rtrgRem.toNat - 1 ∧
      v'.rtrgCnt.toNat = 0) := by
  obtain ⟨hrem, hcnt⟩ := Voice.stepPlay_schedule h
  obtain ⟨h0, e⟩ | ⟨h0, h1, e⟩ | ⟨h0, h1, -⟩ := v.stepRetrigger_cases rate b
  · rw [e] at hrem hcnt
    exact .inl ⟨h0, by rw [hrem, h0], by rw [hcnt]⟩
  · rw [e] at hrem hcnt
    refine .inr (.inl ⟨h0, h1, by rw [hrem], ?_⟩)
    have := v.rtrgInt.isLt
    rw [hcnt, BitVec.toNat_add_of_lt (by simp; omega)]
    rfl
  · rw [Voice.stepRetrigger_of_due rate b h0 h1] at hrem hcnt
    refine .inr (.inr ⟨h0, h1, ?_, by rw [hcnt]; rfl⟩)
    rw [hrem, BitVec.toNat_sub_of_le (by rw [BitVec.le_def]; exact h0)]
    rfl

/-- The steps from one restart of an armed voice to the next: RTRGINT, but at least 1 (R122). -/
def Voice.retriggerPeriod (v : Voice) : Nat := Nat.max 1 v.rtrgInt.toNat

/-- The period is the interval or 1. -/
theorem Voice.retriggerPeriod_spec (v : Voice) :
    1 ≤ v.retriggerPeriod ∧ v.rtrgInt.toNat ≤ v.retriggerPeriod ∧
      (v.retriggerPeriod = 1 ∨ v.retriggerPeriod = v.rtrgInt.toNat) :=
  ⟨Nat.le_max_left _ _, Nat.le_max_right _ _, max_choice _ _⟩

/-- The schedule n steps after v, whose counter is 0: one retrigger is spent in each period, and the counter is n modulo
the period until the last is spent (R122). -/
structure Voice.ScheduleAfter (v : Voice) (n : Nat) (w : Voice) : Prop where
  rem : w.rtrgRem.toNat = v.rtrgRem.toNat - n / v.retriggerPeriod
  cnt : w.rtrgCnt.toNat = if n / v.retriggerPeriod < v.rtrgRem.toNat then n % v.retriggerPeriod else 0
  int : w.rtrgInt = v.rtrgInt
  snap : w.snap = v.snap

/-- Quotient and remainder of the next number: the remainder grows, or wraps and the quotient grows. -/
theorem div_mod_succ (n : Nat) {N : Nat} (hN : 0 < N) :
    (n % N + 1 < N ∧ (n + 1) / N = n / N ∧ (n + 1) % N = n % N + 1) ∨
      (n % N + 1 = N ∧ (n + 1) / N = n / N + 1 ∧ (n + 1) % N = 0) := by
  have hdiv := Nat.mod_add_div n N
  obtain h | h := Nat.lt_or_eq_of_le (Nat.succ_le_of_lt (Nat.mod_lt n hN))
  · exact .inl ⟨h, (Nat.div_mod_unique hN).mpr ⟨by omega, h⟩⟩
  · exact .inr ⟨h, (Nat.div_mod_unique hN).mpr ⟨by rw [Nat.mul_add]; omega, hN⟩⟩

/-- A step passes the schedule on. -/
theorem Voice.ScheduleAfter.step {v w w' : Voice} {n : Nat} {rate : F64} {b : Buffer} {c : Channel} {y : F64}
    (h : v.ScheduleAfter n w) (hp : w.process rate b c = .ok (y, w')) : v.ScheduleAfter (n + 1) w' := by
  obtain ⟨hrem, hcnt, hint, hsnap⟩ := h
  obtain ⟨hsnap', hint'⟩ := Voice.process_keeps hp
  obtain ⟨hpos, hle, hor⟩ := v.retriggerPeriod_spec
  have hnext := div_mod_succ n hpos
  have hstep := Voice.process_schedule hp
  rw [hint] at hstep
  refine ⟨?_, ?_, hint'.trans hint, hsnap'.trans hsnap⟩
  · by_cases hq : n / v.retriggerPeriod < v.rtrgRem.toNat
    · rw [if_pos hq] at hcnt
      omega
    · rw [if_neg hq] at hcnt
      omega
  · by_cases hq : n / v.retriggerPeriod < v.rtrgRem.toNat
    · rw [if_pos hq] at hcnt
      split <;> omega
    · rw [if_neg hq] at hcnt
      rw [if_neg (by omega)]
      omega

/-! ## The envelope without retriggers (R123, R124) -/

/-- The envelope stage counts the hold down, decrements the level, or ends the voice (R123). -/
theorem Voice.stepEnvelope_cases (v : Voice) :
    (0 < v.holdRem.toNat ∧ v.stepEnvelope = { v with holdRem := v.holdRem - 1 }) ∨
    (v.holdRem.toNat = 0 ∧ (v.env.sub v.decayRate).le F64.cZero = true ∧
      v.stepEnvelope = { v with env := F64.cZero, active := false }) ∨
    (v.holdRem.toNat = 0 ∧ (v.env.sub v.decayRate).le F64.cZero = false ∧
      v.stepEnvelope = { v with env := v.env.sub v.decayRate }) := by
  unfold Voice.stepEnvelope
  split
  · next h => exact .inl ⟨h, rfl⟩
  · next h =>
    dsimp only
    split
    · next hle => exact .inr (.inl ⟨by omega, hle, rfl⟩)
    · next hle => exact .inr (.inr ⟨by omega, by simpa using hle, rfl⟩)

/-- The envelope of a voice that is active n steps after v, which has no retriggers: the hold has counted down, and each
step past it has taken one decrement, to a level above 0 (R124). -/
structure Voice.EnvelopeAfter (v : Voice) (n : Nat) (w : Voice) : Prop where
  decay : w.decayRate = v.decayRate
  level : w.env = envLevel v.env v.decayRate (n - v.holdRem.toNat)
  hold : w.holdRem.toNat = v.holdRem.toNat - n
  above : ∀ k < n - v.holdRem.toNat, (envLevel v.env v.decayRate (k + 1)).le F64.cZero = false

/-- The read passes the envelope on: it writes none of its fields (R83). -/
theorem Voice.EnvelopeAfter.read {v w u : Voice} {n : Nat} {b : Buffer} {c : Channel} {r x : F64} {a : Param}
    (h : v.EnvelopeAfter n w) (hr : w.readWithLoFi b c r a = .ok (x, u)) : v.EnvelopeAfter n u := by
  obtain ⟨hdecay, hlevel, hhold, habove⟩ := h
  rw [Voice.readWithLoFi_frame hr]
  exact ⟨hdecay, hlevel, hhold, habove⟩

/-- The envelope stage passes the envelope on, unless the hold is over and the next level is at most 0, which ends the
voice (R123, R124). -/
theorem Voice.EnvelopeAfter.stepEnvelope {v u : Voice} {n : Nat} (h : v.EnvelopeAfter n u) (ha : u.active = true) :
    u.stepEnvelope.active = !(decide (v.holdRem.toNat ≤ n) &&
        (envLevel v.env v.decayRate (n - v.holdRem.toNat + 1)).le F64.cZero) ∧
      (u.stepEnvelope.active = true → v.EnvelopeAfter (n + 1) u.stepEnvelope) := by
  obtain ⟨hdecay, hlevel, hhold, habove⟩ := h
  have hnext : u.env.sub u.decayRate = envLevel v.env v.decayRate (n - v.holdRem.toNat + 1) := by
    rw [hlevel, hdecay]; rfl
  obtain ⟨hrem, he⟩ | ⟨hrem, hle, he⟩ | ⟨hrem, hle, he⟩ := u.stepEnvelope_cases <;> rw [he]
  · have hlt : n < v.holdRem.toNat := by omega
    have hone : (1 : BitVec 32).toNat = 1 := rfl
    have hsub : (u.holdRem - 1).toNat = v.holdRem.toNat - (n + 1) := by
      rw [BitVec.toNat_sub_of_le (by rw [BitVec.le_def]; omega)]
      omega
    have h0 : n - v.holdRem.toNat = 0 := by omega
    have h0' : n + 1 - v.holdRem.toNat = 0 := by omega
    refine ⟨by simp [ha, hlt], fun _ => ⟨hdecay, ?_, hsub, ?_⟩⟩
    · rw [h0', hlevel, h0]
    · rw [h0']
      exact fun k hk => absurd hk (Nat.not_lt_zero k)
  · have hge : v.holdRem.toNat ≤ n := by omega
    rw [hnext] at hle
    exact ⟨by simp [hge, hle], fun hc => by cases hc⟩
  · have hsucc : n + 1 - v.holdRem.toNat = n - v.holdRem.toNat + 1 := by omega
    have hover : u.holdRem.toNat = v.holdRem.toNat - (n + 1) := by omega
    rw [hnext] at hle
    refine ⟨by simp [ha, hle], fun _ => ⟨hdecay, by rw [hsucc]; exact hnext, hover, fun k hk => ?_⟩⟩
    obtain hk | rfl : k < n - v.holdRem.toNat ∨ k = n - v.holdRem.toNat := by omega
    · exact habove k hk
    · exact hle

/-- A voice n steps after v, which has no retriggers: none comes back, and while active it has the envelope of R124. -/
def Voice.FadedFrom (v : Voice) (n : Nat) (w : Voice) : Prop :=
  w.rtrgRem = 0 ∧ (w.active = true → v.EnvelopeAfter n w)

/-- A step passes this on. -/
theorem Voice.FadedFrom.step {v w w' : Voice} {n : Nat} {rate : F64} {b : Buffer} {c : Channel} {y : F64}
    (h : v.FadedFrom n w) (hp : w.process rate b c = .ok (y, w')) : v.FadedFrom (n + 1) w' := by
  obtain ⟨hrem, henv⟩ := h
  rw [Voice.process_of_spent rate b c hrem] at hp
  obtain ⟨hkeep, -⟩ := Voice.stepPlay_schedule hp
  refine ⟨hkeep.trans hrem, ?_⟩
  obtain ⟨ha, -, rfl⟩ | ⟨-, -, -, rfl⟩ | ⟨ha, -, x, u, hr, -, rfl⟩ := Voice.stepPlay_ok hp
  · exact fun hc => by simp [ha] at hc
  · exact fun hc => by cases hc
  · have hu : u.active = true := by rw [Voice.readWithLoFi_frame hr, ha]
    obtain ⟨-, hnext⟩ := ((henv ha).read hr).stepEnvelope hu
    exact hnext

/-- From level 1.0 one decrement of 1.0 ends the voice: it is active in no step past the hold (R124). -/
theorem Voice.EnvelopeAfter.le_hold_of_one {v w : Voice} {n : Nat} (h : v.EnvelopeAfter n w) (he : v.env = F64.cOne)
    (hd : v.decayRate = F64.cOne) : n ≤ v.holdRem.toNat := by
  by_contra hlt
  have hfirst := h.above 0 (by omega)
  rw [he, hd] at hfirst
  revert hfirst
  decide +kernel

/-- An active voice before the end of its region plays: the read value through the quantizer and the reducer, scaled by
its level and volume, and then the envelope stage (R83, R121). -/
theorem Voice.stepPlay_ok_of_playing {v v' : Voice} {b : Buffer} {c : Channel} {y : F64} (ha : v.active = true)
    (hf : v.engineFinished b v.endFrac = false) (h : v.stepPlay b c = .ok (y, v')) :
    ∃ z r x u, v.readInterpolated b c v.ratio = .ok (z, r) ∧ v.readWithLoFi b c v.ratio v.srrAmt = .ok (x, u) ∧
      y = ((r.srr (quantize12 z) v.srrAmt).1.mul v.env).mul v.volume ∧ v' = u.stepEnvelope := by
  obtain ⟨hc, -⟩ | ⟨-, hc, -⟩ | ⟨-, -, x, u, hlofi, rfl, rfl⟩ := Voice.stepPlay_ok h
  · simp [ha] at hc
  · simp [hf] at hc
  · obtain ⟨z, r, hr, hx, -⟩ := Voice.readWithLoFi_ok hlofi
    have hframe := Voice.readWithLoFi_frame hlofi
    have henv : u.env = v.env := by rw [hframe]
    have hvol : u.volume = v.volume := by rw [hframe]; rfl
    exact ⟨z, r, x, u, hr, hlofi, by rw [henv, hvol, hx], rfl⟩

end Sys2Proof.Machine

/-- Settles O45: the schedule of a voice with its counter at 0 passes from step to step. -/
theorem retriggerEveryNthStep : Obligations.RetriggerEveryNthStep := by
  unfold Obligations.RetriggerEveryNthStep
  refine ⟨?_, ?_⟩
  · rintro rate b c n N v w ys rfl hcnt hrun
    have hstart : v.ScheduleAfter 0 v :=
      ⟨by rw [Nat.zero_div, Nat.sub_zero], by rw [hcnt, Nat.zero_mod, ite_self]; rfl, rfl, rfl⟩
    obtain ⟨hrem, hcnt, hint, hsnap⟩ := Voice.run_induction Voice.ScheduleAfter.step hstart hrun
    rw [Nat.zero_add] at hrem hcnt
    exact ⟨hrem, hcnt, hint, hsnap⟩
  · rintro rate b c v u hrem hdue rfl
    have hu := Voice.stepRetrigger_of_due rate b hrem hdue
    exact ⟨hu, by rw [Voice.process, hu]⟩


/-- Settles O46: without retriggers the envelope of R124 passes from step to step while the voice is active. -/
theorem envelopeTiming : Obligations.EnvelopeTiming := by
  unfold Obligations.EnvelopeTiming
  rintro rate b c n H v w ys ha hrem rfl hrun hw
  have hstart : v.FadedFrom 0 v := ⟨hrem, fun _ => ⟨rfl, by rw [Nat.zero_sub]; rfl, rfl, fun k hk => by omega⟩⟩
  obtain ⟨hrem', henv⟩ := Voice.run_induction Voice.FadedFrom.step hstart hrun
  rw [Nat.zero_add] at henv
  have henv := henv hw
  refine ⟨henv.level, henv.hold, henv.le_hold_of_one, fun y u hf hp => ?_⟩
  rw [Voice.process_of_spent rate b c hrem'] at hp
  obtain ⟨z, r, x, u', hr, hlofi, hy, rfl⟩ := Voice.stepPlay_ok_of_playing hw hf hp
  have hu : u'.active = true := by rw [Voice.readWithLoFi_frame hlofi, hw]
  obtain ⟨hactive, -⟩ := (henv.read hlofi).stepEnvelope hu
  exact ⟨⟨z, r, hr, hy⟩, hactive⟩

end

/-! The output frame (47_frame.md): the quantizer and the reducer give values on the grid, the level and the volume are
fractions, so a voice output is finite and at most 1.0 in magnitude, and a sum of eight of them at most 8.0 (R134). -/

section

open Sys2Proof Sys2Proof.Machine F64

namespace Sys2Proof

/-! ## Finite values up to an integer magnitude (R12) -/

/-- A finite value of magnitude at most n. -/
structure F64.Within (n : Nat) (x : F64) : Prop where
  finite : x.isFinite = true
  bound : |x.units| ≤ n * 2 ^ 1074

/-- +0.0 has magnitude 0. -/
theorem F64.within_cZero (n : Nat) : cZero.Within n := ⟨rfl, by rw [units_cZero, abs_zero]; positivity⟩

/-- The magnitude of a product with a fraction is at most that of the other factor. -/
theorem F64.Within.mul_fraction {n : Nat} {x y : F64} (hx : x.Within n) (hy : y.Fraction) : (x.mul y).Within n := by
  rw [mul_comm_of_finite hx.finite hy.finite]
  obtain ⟨hfin, hup, hdown⟩ := hy.mul hx.finite
  refine ⟨hfin, hx.bound.trans' ?_⟩
  obtain h | h := Int.le_total 0 x.units
  · obtain ⟨h0, hle⟩ := hup h
    exact abs_le_abs_of_nonneg h0 hle
  · obtain ⟨hle, h0⟩ := hdown h
    exact abs_le_abs_of_nonpos h0 hle

/-- Magnitudes add up in a sum: their bound is an integer of binary64, which rounding does not pass. -/
theorem F64.Within.add {m n : Nat} {x y : F64} (hx : x.Within m) (hy : y.Within n) (h : m + n < 2 ^ 53) :
    (x.add y).Within (m + n) := by
  obtain ⟨-, -, -, hhi⟩ := ofInt_exact (n := m + n) (by omega)
  obtain ⟨-, -, -, hlo⟩ := ofInt_exact (n := -(m + n)) (by omega)
  obtain ⟨hxlo, hxhi⟩ := abs_le.mp hx.bound
  obtain ⟨hylo, hyhi⟩ := abs_le.mp hy.bound
  rw [add_mul] at hhi
  rw [neg_mul, add_mul] at hlo
  obtain ⟨hfin, hge, hle⟩ := add_bounds hx.finite hy.finite (lo := F64.ofInt (-(m + n))) (hi := F64.ofInt (m + n))
    (by omega) (by omega)
  refine ⟨hfin, abs_le.mpr ?_⟩
  rw [Nat.cast_add, add_mul]
  omega

/-- Each term of magnitude at most 1.0 raises the bound of a sum by 1. -/
theorem F64.Within.foldl_add {ys : List F64} (hys : ∀ y ∈ ys, y.Within 1) {m n : Nat} {x : F64} (hx : x.Within m)
    (hn : m + ys.length = n) (hlt : n < 2 ^ 53) : (ys.foldl F64.add x).Within n := by
  induction ys generalizing m x with
  | nil => exact hn ▸ hx
  | cons y ys ih =>
    rw [List.length_cons] at hn
    exact ih (fun z hz => hys z (List.mem_cons_of_mem _ hz)) (hx.add (hys y List.mem_cons_self) (by omega)) (by omega)

end Sys2Proof

namespace Sys2Proof.Machine

/-! ## The bound of a voice output (R134) -/

/-- A value on the quantizer's grid has magnitude at most 1.0 (R88). -/
theorem within_one_of_onGrid {x : F64} (h : onGrid x) : x.Within 1 := by
  obtain ⟨hfin, k, hlo, hhi, hk⟩ := h
  exact ⟨hfin, by rw [hk, abs_le]; omega⟩

/-- The reducer gives its input or the held value (R91). -/
theorem Voice.srr_onGrid {v : Voice} {x : F64} (hv : onGrid v.srrHold) (hx : onGrid x) (a : Param) :
    onGrid (v.srr x a).1 := by
  unfold Voice.srr
  split
  · exact hx
  · dsimp only
    split
    · exact hx
    · exact hv

/-- What bounds the output of a voice: the held value is on the grid, and the level is a fraction (R27, R31). -/
structure Voice.OutputBounded (v : Voice) : Prop where
  hold : onGrid v.srrHold
  level : v.env.Fraction

/-- A sound voice record bounds its output (R27, R31). -/
theorem voiceOk_outputBounded {p : Params} {v : Voice} (h : voiceOk p v) : v.OutputBounded := by
  obtain ⟨⟨-, ⟨h0, h1⟩, -, hhold⟩, -⟩ := h
  obtain ⟨-, hlevel, -⟩ := F64.fraction_of_le (e := F64.cZero) rfl h0 h1
  exact ⟨hhold, hlevel⟩

/-- The retrigger stage keeps the bound: a restart holds +0.0 and sets the level to 1.0 (R119, R122). -/
theorem Voice.OutputBounded.stepRetrigger {v : Voice} (h : v.OutputBounded) (rate : F64) (b : Buffer) :
    (v.stepRetrigger rate b).OutputBounded := by
  obtain ⟨hhold, hlevel⟩ := h
  obtain ⟨-, e⟩ | ⟨-, -, e⟩ | ⟨-, -, e⟩ := v.stepRetrigger_cases rate b
  · rw [e]
    exact ⟨hhold, hlevel⟩
  · rw [e]
    exact ⟨hhold, hlevel⟩
  · rw [e, Voice.internalTrigger_eq]
    exact ⟨⟨rfl, 0, by decide, by decide, by rw [units_cZero, zero_mul]⟩,
      rfl, by rw [units_cOne]; exact Int.natCast_nonneg _, units_cOne.le⟩

/-- The output of a bounded voice has magnitude at most 1.0: it is +0.0, or a value on the grid scaled by the level and
the volume (R83, R121, R134). -/
theorem Voice.OutputBounded.stepPlay {v v' : Voice} {b : Buffer} {c : Channel} {y : F64} (h : v.OutputBounded)
    (hp : v.stepPlay b c = .ok (y, v')) : y.Within 1 := by
  obtain ⟨-, rfl, -⟩ | ⟨-, -, rfl, -⟩ | ⟨ha, hf, -⟩ := Voice.stepPlay_ok hp
  · exact within_cZero 1
  · exact within_cZero 1
  · obtain ⟨z, r, -, -, hr, -, rfl, -⟩ := Voice.stepPlay_ok_of_playing ha hf hp
    have hhold : r.srrHold = v.srrHold := by
      obtain ⟨-, rfl, -⟩ | ⟨-, -, -, -, -, -, -, -, rfl⟩ := Voice.readInterpolated_ok hr <;> rfl
    have hgrid := Voice.srr_onGrid (hhold ▸ h.hold) (quantize12_onGrid z) v.srrAmt
    exact ((within_one_of_onGrid hgrid).mul_fraction h.level).mul_fraction (normParam_fraction _)

/-- Every voice output of a sound state has magnitude at most 1.0 (R134). -/
theorem State.Inv.process_within {s : State} (h : s.Inv) {c : Channel} {y : F64} {v : Voice}
    (hp : (s.voice c).process s.rate (s.buf c) c = .ok (y, v)) : y.Within 1 :=
  ((voiceOk_outputBounded (h.voices c)).stepRetrigger s.rate (s.buf c)).stepPlay hp

/-! ## The frame of a sound state (R133) -/

/-- Every voice of a sound state steps (R156). -/
theorem State.Inv.process_exists {s : State} (h : s.Inv) (c : Channel) :
    ∃ y v, (s.voice c).process s.rate (s.buf c) c = .ok (y, v) := by
  obtain ⟨z, v, hr⟩ := h.read_exists c ((s.voice c).stepRetrigger s.rate (s.buf c)).ratio
  exact Voice.stepPlay_exists hr

/-- The mix of a sound state: one step of every voice, and a sum of magnitude at most 8.0 (R133, R134). -/
theorem State.Inv.mix {s : State} (h : s.Inv) :
    ∃ (m : F64) (s' : State) (y : Channel → F64), s.mixFrom F64.cZero channels = .ok (m, s') ∧
      s' = { s with voices := s'.voices } ∧
      (∀ c, (s.voice c).process s.rate (s.buf c) c = .ok (y c, s'.voice c)) ∧
      m = (channels.map y).foldl F64.add F64.cZero ∧ m.Within 8 := by
  obtain ⟨m, s', hmix⟩ := State.mixFrom_exists s F64.cZero nodup_channels fun c _ => h.process_exists c
  obtain ⟨hframe, -, y, hm, hall⟩ := State.mixFrom_ok nodup_channels hmix
  have hone : ∀ x ∈ channels.map y, x.Within 1 :=
    List.forall_mem_map.mpr fun c hc => h.process_within (hall c hc)
  have hsum : ((channels.map y).foldl F64.add F64.cZero).Within 8 :=
    Within.foldl_add hone (within_cZero 0) rfl (by decide)
  exact ⟨m, s', y, hmix, hframe, fun c => hall c (mem_channels c), hm, hm ▸ hsum⟩

/-- One filter step: the two lane outputs are answered, and the new filter record is written (R106, R133). -/
theorem filterStep_eq (s : State) (l r : F64) :
    filterStep s l r = .next ((s.setFilter (s.filter.processStereo l r).2.2).respond .ok
      (laneOut s.filter.coeffs s.filter.left l).toBits (laneOut s.filter.coeffs s.filter.right r).toBits) := rfl

end Sys2Proof.Machine

/-- Settles O55: every voice of a sound state steps, the mix is the fold of their outputs over the channels, and the
filter step on it writes the filter alone. -/
theorem frameResult : Obligations.FrameResult := by
  unfold Obligations.FrameResult
  intro s hinv
  obtain ⟨m, s', y, hmix, hframe, hvoice, hm, hfin, hbound⟩ := hinv.mix
  have hfilter : s'.filter = s.filter := by rw [hframe]
  have hexec := exec_frame.mpr ⟨m, s', hmix, filterStep_eq s' m m⟩
  refine ⟨_, y, m, _, _, ?_, hm, hfin, hbound, rfl, rfl, hexec, ?_⟩
  · exact hvoice
  · rw [hfilter, hframe]
    exact ⟨rfl, rfl, rfl⟩

end

/-! How a command ends (60_exceptions.md R135, R136; 30_encoding.md R56, R59): completed, ILLEGAL because it names
nothing the block has, or REFUSED for one of the causes of the table; the last two change the response and nothing
else. -/

section

open Sys2Proof Sys2Proof.Machine

namespace Sys2Proof

/-- The decoder errs on unassigned opcodes only (R59, R60). -/
theorem unassigned_of_decode_error {c : Command} {e : DecodeError} (h : decode c = .error e) :
    opcField c.cmd ∉ assignedOpcodes := by
  unfold decode at h
  split at h
  case h_27 =>
    simp only [imp_false] at *
    simp [assignedOpcodes, *]
  all_goals cases h

/-- The decoder reads assigned opcodes only (R59, R60). -/
theorem assigned_of_decode_ok {c : Command} {i : Instr} (h : decode c = .ok i) : opcField c.cmd ∈ assignedOpcodes := by
  by_contra hc
  rw [decode_of_unassigned hc] at h
  cases h

end Sys2Proof

namespace Sys2Proof.Machine

/-! ## The three ends of a command -/

/-- Every length is within the bound in force (R25). -/
def State.LengthsBounded (s : State) : Prop := ∀ c, s.lenOf c ≤ s.maxLen

/-- The three ways in which i, run on s, ends in t. The cause of a refusal is the table's (R135) where the lengths are
bounded: past the bound a buffer is as full as at it. -/
inductive Ends (i : Instr) (s t : State) : Prop where
  | completed (hst : t.response.status = .ok) (hwf : i.wellFormed = true) (hcause : ¬ refusalCause s i)
  | illegal (ht : t = s.respond .illegal 0 0) (hwf : i.wellFormed = false) (hcause : ¬ refusalCause s i)
  | refused (ht : t = s.respond .refused 0 0) (hwf : i.wellFormed = true)
      (hcause : s.LengthsBounded → refusalCause s i)

section

variable {i : Instr} {s s' t : State} {a b : Word}

theorem Ends.of_complete (h : complete s' a b = .next t) (hwf : i.wellFormed = true) (hcause : ¬ refusalCause s i) :
    Ends i s t :=
  .completed (by rw [← (complete_next s' t a b).mp h]; rfl) hwf hcause

theorem Ends.of_raise_illegal (h : raise s .illegal = .next t) (hwf : i.wellFormed = false)
    (hcause : ¬ refusalCause s i) : Ends i s t :=
  .illegal ((raise_next s t .illegal).mp h).symm hwf hcause

theorem Ends.of_raise_refused (h : raise s .refused = .next t) (hwf : i.wellFormed = true)
    (hcause : s.LengthsBounded → refusalCause s i) : Ends i s t :=
  .refused ((raise_next s t .refused).mp h).symm hwf hcause

/-- A command that ends ILLEGAL or REFUSED gives two zero results and changes nothing (R136). -/
theorem Ends.eq_respond (h : Ends i s t) (hst : t.response.status ≠ .ok) : t = s.respond t.response.status 0 0 := by
  cases h with
  | completed hok => exact absurd hok hst
  | illegal ht => subst ht; rfl
  | refused ht => subst ht; rfl

/-- ILLEGAL is the end of a command that names nothing, and of no other (R135). -/
theorem Ends.status_illegal_iff (h : Ends i s t) : t.response.status = .illegal ↔ i.wellFormed = false := by
  cases h with
  | completed hst hwf => simp [hst, hwf]
  | illegal ht hwf => simp [ht, hwf]
  | refused ht hwf => simp [ht, hwf]

/-- REFUSED is the end of a command with one of the table's causes, and of no other (R135). -/
theorem Ends.status_refused_iff (h : Ends i s t) (hlen : s.LengthsBounded) :
    t.response.status = .refused ↔ refusalCause s i := by
  cases h with
  | completed hst _ hcause => simp [hst, hcause]
  | illegal ht _ hcause => simp [ht, hcause]
  | refused ht _ hcause => simp [ht, hcause hlen]

end

/-! ## What the tests of the meanings decide -/

/-- The rates SETRATE does not accept are those of the table (R68, R135). -/
theorem rateOk_eq_false_iff {p : Params} {sr : F64} :
    rateOk p sr = false ↔ sr.isFinite = false ∨ sr.lt F64.cOne = true ∨ p.srMax.lt sr = true := by
  refine ⟨fun h => ?_, rateOk_eq_false⟩
  simpa only [rateOk, F64.gt, Bool.and_eq_false_iff, Bool.not_eq_false', or_assoc] using h

/-- VRD has a value for every selector the table names, and for no other (R130). -/
theorem Voice.readback_eq_none_iff (v : Voice) {sel : BitVec 8} : v.readback sel = none ↔ voiceSelOk sel = false := by
  constructor
  · intro h
    unfold Voice.readback at h
    split at h
    case h_21 =>
      simp only [imp_false] at *
      simp only [voiceSelOk, Bool.or_eq_false_iff, Bool.and_eq_false_iff, decide_eq_false_iff_not]
      omega
    all_goals cases h
  · intro h
    simp only [voiceSelOk, Bool.or_eq_false_iff, Bool.and_eq_false_iff, decide_eq_false_iff_not] at h
    exact v.readback_eq_none (by omega)

/-- FRD has a value for every selector the table names, and for no other (R110). -/
theorem FilterState.readback_eq_none_iff (f : FilterState) {sel : BitVec 8} :
    f.readback sel = none ↔ filterSelOk sel = false := by
  constructor
  · intro h
    unfold FilterState.readback at h
    split at h
    case h_18 =>
      simp only [imp_false] at *
      simp only [filterSelOk, decide_eq_false_iff_not]
      omega
    all_goals cases h
  · intro h
    simp only [filterSelOk, decide_eq_false_iff_not] at h
    exact f.readback_eq_none (by omega)

/-! ## The commands that can fail -/

variable {s t : State}

/-- SETRATE ends refused on the rates of the table (R68). -/
theorem ends_setrate {d0 : Word} (h : exec (.setrate d0) s = .next t) : Ends (.setrate d0) s t := by
  rw [exec_setrate] at h
  split at h
  · next hok => exact .of_complete h rfl fun hcause => by simp [rateOk_eq_false hcause] at hok
  · next hno => exact .of_raise_refused h rfl fun _ => rateOk_eq_false_iff.mp (Bool.eq_false_iff.mpr hno)

/-- WRPARAM ends illegal on the indices from 12 on (R70). -/
theorem ends_wrparam {idx : BitVec 8} {val : Param} (h : exec (.wrparam idx val) s = .next t) :
    Ends (.wrparam idx val) s t := by
  obtain hlt | hge := Nat.lt_or_ge idx.toNat 12
  · rw [exec_wrparam_of_lt hlt] at h
    exact .of_complete h (decide_eq_true hlt) id
  · rw [exec_wrparam_of_ge hge] at h
    exact .of_raise_illegal h (decide_eq_false (Nat.not_lt.mpr hge)) id

/-- RDPARAM ends illegal on the indices from 12 on (R71). -/
theorem ends_rdparam {idx : BitVec 8} (h : exec (.rdparam idx) s = .next t) : Ends (.rdparam idx) s t := by
  obtain hlt | hge := Nat.lt_or_ge idx.toNat 12
  · rw [exec_rdparam_of_lt hlt] at h
    exact .of_complete h (decide_eq_true hlt) id
  · rw [exec_rdparam_of_ge hge] at h
    exact .of_raise_illegal h (decide_eq_false (Nat.not_lt.mpr hge)) id

/-- BUFWR ends refused past LEN, and at LEN in a full buffer (R75). -/
theorem ends_bufwr {ch : BitVec 8} {code : BitVec 12} {d0 : Word} (h : exec (.bufwr ch code d0) s = .next t) :
    Ends (.bufwr ch code d0) s t := by
  rw [exec_bufwr] at h
  split at h
  · next hmay =>
    rw [State.mayWrite_iff] at hmay
    refine .of_complete h rfl fun hcause => ?_
    simp only [refusalCause, u64] at hcause
    omega
  · next hnot =>
    rw [State.mayWrite_iff] at hnot
    refine .of_raise_refused h rfl fun hlen => ?_
    have := hlen (chan ch)
    simp only [refusalCause, u64]
    omega

/-- BUFAPP ends refused in a full buffer (R76). -/
theorem ends_bufapp {ch : BitVec 8} {code : BitVec 12} (h : exec (.bufapp ch code) s = .next t) :
    Ends (.bufapp ch code) s t := by
  rw [exec_bufapp] at h
  split at h
  · next hfull => exact .of_raise_refused h rfl fun hlen => (hlen (chan ch)).antisymm hfull
  · next hroom => exact .of_complete h rfl fun hcause => hroom (Eq.ge hcause)

/-- BUFAPQ ends refused in a full buffer (R77). -/
theorem ends_bufapq {ch : BitVec 8} {d0 : Word} (h : exec (.bufapq ch d0) s = .next t) :
    Ends (.bufapq ch d0) s t := by
  rw [exec_bufapq] at h
  split at h
  · next hfull => exact .of_raise_refused h rfl fun hlen => (hlen (chan ch)).antisymm hfull
  · next hroom => exact .of_complete h rfl fun hcause => hroom (Eq.ge hcause)

/-- BUFRD ends refused from LEN on (R78). -/
theorem ends_bufrd {ch : BitVec 8} {d0 : Word} (h : exec (.bufrd ch d0) s = .next t) : Ends (.bufrd ch d0) s t := by
  change execBufrd ch d0 s = .next t at h
  unfold execBufrd at h
  split at h
  · next hge => exact .of_raise_refused h rfl fun _ => hge
  · next hlt =>
    split at h
    · exact .of_complete h rfl hlt
    · cases h

/-- VRD ends illegal on the selectors that name nothing (R130). -/
theorem ends_vrd {ch sel : BitVec 8} (h : exec (.vrd ch sel) s = .next t) : Ends (.vrd ch sel) s t := by
  change execVrd ch sel s = .next t at h
  unfold execVrd at h
  split at h
  · next hr =>
    refine .of_complete h (Bool.of_not_eq_false fun hsel => ?_) id
    rw [(Voice.readback_eq_none_iff _).mpr hsel] at hr
    cases hr
  · next hr => exact .of_raise_illegal h ((Voice.readback_eq_none_iff _).mp hr) id

/-- FRD ends illegal on the selectors that name nothing (R110). -/
theorem ends_frd {sel : BitVec 8} (h : exec (.frd sel) s = .next t) : Ends (.frd sel) s t := by
  change execFrd sel s = .next t at h
  unfold execFrd at h
  split at h
  · next hr =>
    refine .of_complete h (Bool.of_not_eq_false fun hsel => ?_) id
    rw [(FilterState.readback_eq_none_iff _).mpr hsel] at hr
    cases hr
  · next hr => exact .of_raise_illegal h ((FilterState.readback_eq_none_iff _).mp hr) id

/-! ## Every command -/

/-- Every command that answers ends in one of the three ways (R135, R136). -/
theorem ends_of_exec {i : Instr} (h : exec i s = .next t) : Ends i s t := by
  cases i with
  | setrate => exact ends_setrate h
  | wrparam => exact ends_wrparam h
  | rdparam => exact ends_rdparam h
  | bufwr => exact ends_bufwr h
  | bufapp => exact ends_bufapp h
  | bufapq => exact ends_bufapq h
  | bufrd => exact ends_bufrd h
  | vrd => exact ends_vrd h
  | frd => exact ends_frd h
  | vstep =>
    obtain ⟨y, v, -, ht⟩ := exec_vstep.mp h
    exact .completed (by rw [ht]; rfl) rfl id
  | frame =>
    obtain ⟨m, s', -, hstep⟩ := exec_frame.mp h
    exact .of_complete hstep rfl id
  | _ => exact .of_complete h rfl id

/-- A step on a presented command: an unassigned opcode is ILLEGAL, and a decoded instruction ends in one of its three
ways (R59). -/
theorem step_cases {c : Command} {rest : List Command} (hs : s.commands = c :: rest) (h : step s = .next t) :
    (opcField c.cmd ∉ assignedOpcodes ∧ t = ({ s with commands := rest } : State).respond .illegal 0 0) ∨
      ∃ i, decode c = .ok i ∧ Ends i { s with commands := rest } t := by
  cases hd : decode c with
  | error e =>
    have hopc := unassigned_of_decode_error hd
    rw [step_of_unassigned hs hopc] at h
    cases h
    exact .inl ⟨hopc, rfl⟩
  | ok i =>
    simp only [step, hs, hd] at h
    exact .inr ⟨i, rfl, ends_of_exec h⟩

/-- The causes of a refusal do not depend on the commands presented. -/
theorem refusalCause_commands (s : State) (rest : List Command) (i : Instr) :
    refusalCause { s with commands := rest } i ↔ refusalCause s i := by
  cases i <;> exact Iff.rfl

end Sys2Proof.Machine

/-- Settles O12: an unassigned opcode and both failing ends of a decoded command leave the response alone changed. -/
theorem failedCommandChangesNothing : Obligations.FailedCommandChangesNothing := by
  unfold Obligations.FailedCommandChangesNothing
  intro s t c rest hs h hst
  obtain ⟨-, rfl⟩ | ⟨i, -, hends⟩ := step_cases hs h
  · rfl
  · exact hends.eq_respond hst

/-- Settles O13: an unassigned opcode is ILLEGAL; a decoded command ends with the status of its cause, a sound state
having no length past the bound; and the three codes are 0, 1 and 2. -/
theorem statusCauses : Obligations.StatusCauses := by
  unfold Obligations.StatusCauses
  refine ⟨fun s t c rest hinv hs h => ?_, fun st => by cases st <;> decide⟩
  obtain ⟨hopc, rfl⟩ | ⟨i, hd, hends⟩ := step_cases hs h
  · simp [hopc, decode_of_unassigned hopc]
  · have hrefused := hends.status_refused_iff fun c => hinv.lenOf_le c
    simp only [hends.status_illegal_iff, hrefused, refusalCause_commands, assigned_of_decode_ok hd, hd,
      not_true_eq_false, false_or, Except.ok.injEq, exists_eq_left', and_self]

end

/-! Decoding what the encoder wrote (30_encoding.md R54, R59, R60), and the step that runs it. -/

section

open Sys2Proof Sys2Proof.Machine

namespace Sys2Proof

/-- The IDX that the encoder writes beside a VAL reads back (R54). -/
theorem idxField_cmdWord_val (opc ch idx : BitVec 8) (val : Param) :
    idxField (cmdWord opc ch (idx ++ (0#1 ++ val))) = idx :=
  idxField_cmdWord opc ch idx (0#1 ++ val)

/-- Decoding an encoded instruction gives it back: its opcode picks its row, and each field of the row reads back as it
was written (R54, R60). -/
theorem decode_encode (i : Instr) : decode (encode i) = .ok i := by
  unfold decode
  cases i <;>
    simp only [encode, plainCommand, opcField_cmdWord, chField_cmdWord, idxField_cmdWord, idxField_cmdWord_val,
      codeField_cmdWord, selField_cmdWord, valField_cmdWord, valField_cmdWord_idx] <;> rfl

end Sys2Proof

namespace Sys2Proof.Machine

/-- A step with a presented command that decodes to i performs i without that command on the list (R53, R59). -/
theorem step_of_decoded {s : State} {c : Command} {rest : List Command} {i : Instr} (hs : s.commands = c :: rest)
    (hd : decode c = .ok i) : step s = exec i { s with commands := rest } := by
  simp only [step, hs, hd]

/-- A step with no command presented holds all state (R148). -/
theorem step_of_idle {s : State} (hs : s.commands = []) : step s = .next s := by
  simp only [step, hs]

end Sys2Proof.Machine

/-- Settles O1: an encoded instruction has its row's opcode, and every field the row reads reads back. -/
theorem decodeOfEncode : Obligations.DecodeOfEncode := by
  unfold Obligations.DecodeOfEncode
  exact decode_encode

/-- Settles O2: the decoder's last row, the only error, is that of the opcodes outside the map. -/
theorem assignedOpcodesDecode : Obligations.AssignedOpcodesDecode := by
  unfold Obligations.AssignedOpcodesDecode
  refine fun c => ⟨fun ⟨_, hd⟩ => assigned_of_decode_ok hd, fun hopc => ?_⟩
  cases hd : decode c with
  | ok i => exact ⟨i, rfl⟩
  | error e => exact absurd hopc (unassigned_of_decode_error hd)

/-- Settles O5: a step with a command presented performs what it decodes to, and the block is idle with none. -/
theorem stepRunsDecodedCommand : Obligations.StepRunsDecodedCommand := by
  unfold Obligations.StepRunsDecodedCommand
  exact ⟨fun s c rest i hs hd => step_of_decoded hs hd, fun s hs => step_of_idle hs⟩

end

/-! Binary64 values and their bits (00_scope.md R14), and the four operations as one correct rounding each of the exact
result (R12). -/

section

open Sys2Proof Sys2Proof.Machine F64

set_option exponentiation.threshold 3000

namespace Sys2Proof

/-- The sign bit of a pattern is its value divided by 2^63. -/
theorem toNat_msb (u : Word) : u.msb.toNat = u.toNat / 2 ^ 63 := by
  rw [BitVec.msb_eq_decide]
  by_cases h : 2 ^ (64 - 1) ≤ u.toNat
  · rw [decide_eq_true h]; simp; omega
  · rw [decide_eq_false h]; simp; omega

/-- The bits of a value of a pattern are the pattern (R14). -/
theorem F64.toBits_ofBits (u : Word) : (F64.ofBits u).toBits = u := by
  have hjoin (e f : Nat) (he : u.toNat / 2 ^ 52 % 2048 = e) (hf : u.toNat % 2 ^ 52 = f) :
      joinFields u.msb e f = u := by
    apply BitVec.eq_of_toNat_eq
    rw [joinFields, toNat_msb, BitVec.toNat_ofNat]
    omega
  unfold F64.ofBits
  dsimp only
  split
  · exact hjoin _ _ rfl rfl
  · next he =>
    split
    · next hf => exact hjoin _ _ (by omega) hf
    · next hf => exact hjoin _ _ (by omega) (Nat.sub_add_cancel (Nat.pos_of_ne_zero hf)).symm

/-- The fields of a pattern put together read back. -/
theorem F64.fields_joinFields (s : Bool) {e f : Nat} (he : e < 2048) (hf : f < 2 ^ 52) :
    (joinFields s e f).msb = s ∧ (joinFields s e f).toNat / 2 ^ 52 % 2048 = e ∧
      (joinFields s e f).toNat % 2 ^ 52 = f := by
  have hs := s.toNat_lt
  have hnat : (joinFields s e f).toNat = s.toNat * 2 ^ 63 + e * 2 ^ 52 + f := by
    rw [joinFields, BitVec.toNat_ofNat]
    omega
  refine ⟨?_, by omega, by omega⟩
  have hmsb := toNat_msb (joinFields s e f)
  rw [hnat] at hmsb
  have heq : (joinFields s e f).msb.toNat = s.toNat := by omega
  rw [← Bool.ofNat_toNat (joinFields s e f).msb, heq, Bool.ofNat_toNat]

/-- The value of a datum's bits is the datum, the payload of a NaN included (R14). -/
theorem F64.ofBits_toBits (x : F64) : F64.ofBits x.toBits = x := by
  unfold F64.ofBits
  cases x with
  | nan s p =>
    have hp := p.isLt
    obtain ⟨hs, he, hf⟩ := fields_joinFields s (e := 2047) (f := p.val + 1) (by decide) (by omega)
    simp only [F64.toBits, hs, he, hf]
    rfl
  | inf s =>
    obtain ⟨hs, he, hf⟩ := fields_joinFields s (e := 2047) (f := 0) (by decide) (by decide)
    simp only [F64.toBits, hs, he, hf]
    rfl
  | fin s e f =>
    have hlt := e.isLt
    obtain ⟨hs, he, hf⟩ := fields_joinFields s (e := e.val) (f := f.val) (by omega) f.isLt
    simp only [F64.toBits, hs, he, hf, hlt, dite_true]

/-- A zero is the zero quotient rounded. -/
theorem F64.zero_eq_roundRat (s : Bool) : F64.zero s = roundRat s 0 1 := by
  cases s <;> decide +kernel

/-- The sum of two finite values is the exact sum rounded once; an exact zero is negative only for two negative
zeros (R12). -/
theorem F64.add_eq_roundRat {x y : F64} (hx : x.isFinite = true) (hy : y.isFinite = true) :
    x.add y = roundRat (if x.units + y.units = 0 then x.sign && y.sign else decide (x.units + y.units < 0))
      (x.units + y.units).natAbs 1 := by
  rw [add_of_finite hx hy]
  split
  · next h => rw [h, zero_eq_roundRat]; rfl
  · rfl

/-- A sum is rounded to nearest, ties to even (R12). -/
theorem F64.roundedFrom_add {x y : F64} (hx : x.isFinite = true) (hy : y.isFinite = true) :
    roundedFrom (x.add y) (x.units + y.units) 1 := by
  have hround := roundRat_roundedFrom
    (if x.units + y.units = 0 then x.sign && y.sign else decide (x.units + y.units < 0))
    (x.units + y.units).natAbs (den := 1) (by decide)
  rw [← add_eq_roundRat hx hy] at hround
  generalize x.units + y.units = z at hround ⊢
  convert hround using 1
  obtain rfl | hneg | hpos : z = 0 ∨ z < 0 ∨ 0 < z := by omega
  · simp
  · rw [if_neg hneg.ne, decide_eq_true hneg, if_pos rfl]; omega
  · rw [if_neg hpos.ne', decide_eq_false hpos.not_gt, if_neg Bool.false_ne_true]; omega

/-- A difference is rounded to nearest, ties to even (R12). -/
theorem F64.roundedFrom_sub {x y : F64} (hx : x.isFinite = true) (hy : y.isFinite = true) :
    roundedFrom (x.sub y) (x.units - y.units) 1 := by
  rw [sub_of_finite hx hy, Int.sub_eq_add_neg, ← units_neg]
  exact roundedFrom_add hx (by rwa [isFinite_neg])

/-- The sum has the sign of the exact sum; a zero sum is negative for two negative zeros only (R12). -/
theorem F64.sign_add {x y : F64} (hx : x.isFinite = true) (hy : y.isFinite = true) :
    (x.add y).sign = if x.units + y.units = 0 then x.sign && y.sign else decide (x.units + y.units < 0) := by
  rw [add_eq_roundRat hx hy, sign_roundRat]

/-- A product is rounded to nearest, ties to even, with the exclusive or of the signs (R12). -/
theorem F64.roundedFrom_mul {x y : F64} (hx : x.isFinite = true) (hy : y.isFinite = true) :
    roundedFrom (x.mul y) (x.units * y.units) unitsOne ∧ (x.mul y).sign = (x.sign ^^ y.sign) := by
  rw [mul_of_finite hx hy, units_mul_units, sign_roundRat]
  exact ⟨roundRat_roundedFrom _ _ unitsOne_pos, rfl⟩

/-- A quotient is rounded to nearest, ties to even, with the exclusive or of the signs (R12). -/
theorem F64.roundedFrom_div {x y : F64} (hx : x.isFinite = true) (hy : y.isFinite = true) (h0 : y.units ≠ 0) :
    roundedFrom (x.div y) (if y.sign then -(x.units * unitsOne) else x.units * unitsOne) y.mag ∧
      (x.div y).sign = (x.sign ^^ y.sign) := by
  have hmag : y.mag ≠ 0 := by rwa [← natAbs_units, Int.natAbs_ne_zero]
  have hnum : (if y.sign then -(x.units * unitsOne) else x.units * unitsOne) =
      if (x.sign ^^ y.sign) then -((x.mag * unitsOne : Nat) : Int) else (x.mag * unitsOne : Nat) := by
    unfold F64.units
    cases x.sign <;> cases y.sign <;> simp
  rw [div_of_finite hx hy hmag, hnum, sign_roundRat]
  exact ⟨roundRat_roundedFrom _ _ (Nat.pos_of_ne_zero hmag), rfl⟩

end Sys2Proof

/-- Settles O57: the three fields of a pattern determine it, and each datum's fields read back. -/
theorem bitsRoundTrip : Obligations.BitsRoundTrip := by
  unfold Obligations.BitsRoundTrip
  exact ⟨toBits_ofBits, ofBits_toBits⟩

/-- Settles O58: a sum is one `roundRat`, and a difference is the sum with the negated value. -/
theorem sumsAreRounded : Obligations.SumsAreRounded := by
  unfold Obligations.SumsAreRounded
  exact fun x y hx hy => ⟨roundedFrom_add hx hy, roundedFrom_sub hx hy, sign_add hx hy⟩

/-- Settles O59: a product and a quotient are one `roundRat` each. -/
theorem productsAreRounded : Obligations.ProductsAreRounded := by
  unfold Obligations.ProductsAreRounded
  intro x y hx hy
  obtain ⟨hmul, hsign⟩ := roundedFrom_mul hx hy
  exact ⟨hmul, hsign, roundedFrom_div hx hy⟩

end

/-! The state after reset (70_reset_and_hazards.md R149 to R152): the values of its table, the coefficients it has with
the default and with any other TRIG, and the invariant. -/

section

open Sys2Proof Sys2Proof.Machine

namespace Sys2Proof.Machine

/-- Every buffer at reset (R150). -/
theorem State.buf_reset (c : Channel) : State.reset.buf c = Buffer.reset := by
  simp [State.buf, State.reset]

/-- No byte of memory has a value at reset (R150). -/
theorem State.byteAt_reset (c : Channel) (a : Nat) : State.reset.byteAt c a = none := by
  rw [State.byteAt, State.buf_reset]
  rfl

/-- The cutoff in use at reset is the clamp's upper limit, 19845.0 (R151). -/
theorem clampCutoff_reset :
    clampCutoff State.reset.rate State.reset.filter.fcReq = F64.ofBits 0x40D3614000000000 := by
  decide +kernel

/-- Q at reset (R151). -/
theorem qOf_reset : qOf State.reset.filter.res = F64.ofBits 0x3FE0000000000000 := by decide +kernel

/-- The inputs at reset meet no failure test (R151). -/
theorem deriveFails_reset :
    deriveFails State.reset.rate (clampCutoff State.reset.rate State.reset.filter.fcReq)
      (qOf State.reset.filter.res) = false := by
  decide +kernel

/-- The derivation at reset with the TRIG of p (R151). -/
def resetDerived (p : Params) : Coeffs :=
  derive p (F64.ofBits 0x40E5888000000000) (F64.ofBits 0x40D3614000000000) (F64.ofBits 0x3FE0000000000000) .lowPass

/-- It is that of the reset inputs. -/
theorem derive_reset (p : Params) :
    derive p State.reset.rate (clampCutoff State.reset.rate State.reset.filter.fcReq) (qOf State.reset.filter.res)
      State.reset.filter.mode = resetDerived p := by
  rw [clampCutoff_reset, qOf_reset]
  rfl

/-- The coefficients and FALLBACK of the reset inputs with the TRIG of p (R151). -/
def coeffsAtReset (p : Params) : Coeffs × Bool :=
  coeffsFor p State.reset.rate State.reset.filter.fcReq State.reset.filter.res State.reset.filter.mode

/-- Reset with other parameters: the coefficients and FALLBACK of their TRIG, every other value as at reset (R151). -/
theorem State.resetWith_eq {p : Params} {k : Coeffs} {b : Bool}
    (h : coeffsAtReset p = (k, b)) :
    State.resetWith p =
      { State.reset with cfg := p, filter := { State.reset.filter with coeffs := k, fallback := b } } :=
  State.filterRecompute_of_coeffsFor (s := { State.reset with cfg := p }) h

/-- A finite derived set is the one in use after reset (R101, R151). -/
theorem coeffsAtReset_of_finite {p : Params} (h : (resetDerived p).allFinite = true) :
    coeffsAtReset p = (resetDerived p, false) := by
  rw [← derive_reset] at h ⊢
  exact coeffsFor_of_derived deriveFails_reset h

/-- A derived set that is not finite gives the fallback set after reset (R103, R151). -/
theorem coeffsAtReset_of_not_finite {p : Params} (h : (resetDerived p).allFinite = false) :
    coeffsAtReset p = (Coeffs.fallbackSet, true) := by
  rw [← derive_reset] at h
  exact coeffsFor_of_failure (.inr h)

/-- The default TRIG gives the coefficients of the reset table (R151). -/
theorem coeffsAtReset_default : coeffsAtReset Params.default = (Coeffs.reset, false) := by decide +kernel

/-- Reset is reset with the default parameters (R151). -/
theorem State.resetWith_default : State.resetWith Params.default = State.reset :=
  State.resetWith_eq coeffsAtReset_default

/-! ## The invariant -/

/-- Under valid parameters SR_MAX is itself an accepted rate (R10, R22). -/
theorem rateOk_srMax {p : Params} (hp : paramsValid p) : rateOk p p.srMax = true := by
  obtain ⟨-, -, hfin, hone, -⟩ := hp
  exact rateOk_of_range hfin hone ((F64.le_iff_of_finite hfin hfin).mpr le_rfl)

/-- The bounds of HOLDREM and RTRGINT are numbers of samples from 0 on (R27). -/
theorem timeBounds_nonneg {p : Params} (hp : paramsValid p) : 0 ≤ holdBound p ∧ 0 ≤ intervalBound p := by
  obtain ⟨hhold0, hhold⟩ := holdSamples_range hp (rateOk_srMax hp) 0
  obtain ⟨hint0, hint⟩ := retrigInterval_range hp (rateOk_srMax hp) 0
  exact ⟨hhold0.trans hhold, hint0.trans hint⟩

/-- +0.0 is on the quantizer's grid (R88). -/
theorem onGrid_cZero : onGrid F64.cZero :=
  ⟨rfl, 0, by decide, by decide, by rw [F64.units_cZero, zero_mul]⟩

/-- A voice at reset is sound (R27, R31). -/
theorem voiceOk_reset {p : Params} (hp : paramsValid p) : voiceOk p Voice.reset := by
  obtain ⟨hhold, hint⟩ := timeBounds_nonneg hp
  exact ⟨⟨⟨rfl, by decide +kernel⟩, ⟨by decide +kernel, by decide +kernel⟩, .inl rfl, onGrid_cZero⟩,
    hhold, hint, .inr rfl, fun h => absurd rfl h⟩

/-- An empty buffer is sound under every bound (R25). -/
theorem bufferOk_reset (p : Params) (bound : Nat) : bufferOk p bound Buffer.reset :=
  ⟨Nat.zero_le _, List.Pairwise.nil, fun _ h => absurd h List.not_mem_nil, fun a ha => absurd ha (Nat.not_lt_zero a)⟩

/-- The reset RATE is at least 1.0 (R150). -/
theorem one_le_rate_reset : F64.cOne.le State.reset.rate = true := by decide +kernel

/-- Reset with valid parameters whose SR_MAX accepts the reset RATE is sound. -/
theorem State.inv_resetWith {p : Params} (hp : paramsValid p)
    (hmax : (F64.ofBits 0x40E5888000000000).le p.srMax = true) : (State.resetWith p).Inv where
  cfgValid := hp
  rateValid := rateOk_of_range rfl one_le_rate_reset hmax
  bufs c := by
    rw [State.buf_resetWith, State.buf_reset]
    exact bufferOk_reset _ _
  voices c := by
    rw [State.voice_resetWith, State.voice_reset]
    exact voiceOk_reset hp
  coeffs := State.filterRecompute_current _

/-- The default parameters are valid (R9, R10). -/
theorem paramsValid_default : paramsValid Params.default :=
  ⟨by decide, by decide, by decide, by decide +kernel, by decide +kernel⟩

end Sys2Proof.Machine

/-- Settles O6: the table's values by evaluation, per channel the reset buffer and voice. -/
theorem resetState : Obligations.ResetState := by
  unfold Obligations.ResetState
  refine ⟨by decide, by decide, fun c => ⟨State.lenOf_reset c, State.byteAt_reset c⟩, fun c => ?_, by decide +kernel,
    by decide +kernel, by decide +kernel, by decide +kernel, by decide, by decide, by decide +kernel⟩
  rw [State.voice_reset]
  decide +kernel

/-- Settles O7: the reset inputs are in use with every TRIG, and the default TRIG gives the table's coefficients. -/
theorem resetCoefficients : Obligations.ResetCoefficients := by
  unfold Obligations.ResetCoefficients
  refine ⟨by rw [clampCutoff_reset, F64.toBits_ofBits], by rw [qOf_reset, F64.toBits_ofBits], by decide +kernel,
    by decide +kernel, by decide +kernel, by decide +kernel, by decide +kernel, rfl, State.resetWith_default,
    by decide +kernel, State.resetWith_default, ?_⟩
  rintro p t k rfl hk
  obtain rfl : k = resetDerived p := hk
  refine ⟨fun hfin => ?_, fun hnot => ?_, ?_⟩
  · rw [State.resetWith_eq (coeffsAtReset_of_finite hfin)]
    exact ⟨rfl, rfl⟩
  · rw [State.resetWith_eq (coeffsAtReset_of_not_finite hnot)]
    exact ⟨rfl, rfl⟩
  · exact State.resetWith_eq (p := p) (State.filterRecompute_current { State.reset with cfg := p })

/-- Settles O8: at reset every buffer is empty, every voice is at reset, and the coefficients are recomputed. -/
theorem resetMeetsInvariant : Obligations.ResetMeetsInvariant := by
  unfold Obligations.ResetMeetsInvariant
  refine ⟨?_, fun p hp hmax => State.inv_resetWith hp hmax⟩
  rw [← State.resetWith_default]
  exact State.inv_resetWith paramsValid_default (by decide +kernel)

end

/-! What a command that answers can do to the state (60_exceptions.md R147, R158): one case per kind of effect, and from
it the commands that can change each part of the state. -/

section

open Sys2Proof Sys2Proof.Machine

namespace Sys2Proof.Machine

/-- The rates SETRATE accepts (R68). -/
theorem rateOk_iff {p : Params} {sr : F64} :
    rateOk p sr = true ↔ sr.isFinite = true ∧ F64.cOne.le sr = true ∧ p.srMax.lt sr = false := by
  constructor
  · intro h
    simp only [rateOk, F64.gt, Bool.and_eq_true, Bool.not_eq_true'] at h
    obtain ⟨⟨hfin, hlo⟩, hhi⟩ := h
    refine ⟨hfin, ?_, hhi⟩
    rw [F64.lt_of_finite hfin rfl, decide_eq_false_iff_not, Int.not_lt] at hlo
    exact (F64.le_iff_of_finite rfl hfin).mpr hlo
  · rintro ⟨hfin, hlo, hhi⟩
    simp [rateOk, F64.gt, hfin, F64.lt_eq_false_of_le hlo, hhi]

/-! ## Fields a parameter write keeps (R70) -/

@[simp] theorem State.applyParam_cfg (s : State) (i : Fin 12) (v : Param) : (s.applyParam i v).cfg = s.cfg := by
  obtain ⟨k, b, he⟩ := s.applyParam_frame i v
  rw [he]

@[simp] theorem State.applyParam_rate (s : State) (i : Fin 12) (v : Param) : (s.applyParam i v).rate = s.rate := by
  obtain ⟨k, b, he⟩ := s.applyParam_frame i v
  rw [he]

@[simp] theorem State.voice_applyParam (s : State) (i : Fin 12) (v : Param) (c : Channel) :
    (s.applyParam i v).voice c = s.voice c := by
  obtain ⟨k, b, he⟩ := s.applyParam_frame i v
  rw [he]; rfl

@[simp] theorem State.buf_applyParam (s : State) (i : Fin 12) (v : Param) (c : Channel) :
    (s.applyParam i v).buf c = s.buf c := by
  obtain ⟨k, b, he⟩ := s.applyParam_frame i v
  rw [he]; rfl

/-- A parameter write keeps the delay state (R70, R104). -/
theorem State.applyParam_delay (s : State) (i : Fin 12) (v : Param) :
    (s.applyParam i v).filter.left = s.filter.left ∧ (s.applyParam i v).filter.right = s.filter.right := by
  obtain ⟨k, b, he⟩ := s.applyParam_frame i v
  rw [he]
  exact ⟨rfl, rfl⟩

/-! ## The length bound (R25) -/

@[simp] theorem State.maxLen_respond (s : State) (st : Status) (a b : Word) : (s.respond st a b).maxLen = s.maxLen :=
  rfl

@[simp] theorem State.maxLen_applyParam (s : State) (i : Fin 12) (v : Param) :
    (s.applyParam i v).maxLen = s.maxLen := by
  rw [State.maxLen, State.applyParam_cfg, State.applyParam_rate, State.maxLen]

/-- The bound of the new rate is in force after SETRATE (R68). -/
theorem State.setRateReset_maxLen (s : State) (sr : F64) :
    (s.setRateReset sr).maxLen = Sys2Proof.Machine.maxLen s.cfg sr := by
  obtain ⟨hcfg, hrate, -⟩ := s.setRateReset_frame sr
  rw [State.maxLen, hcfg, hrate]

/-! ## The effects of a command -/

/-- The commands that store a word in the buffer ch names (R75 to R77). -/
def StoresWord (ch : BitVec 8) (i : Instr) : Prop :=
  (∃ code d0, i = .bufwr ch code d0) ∨ (∃ code, i = .bufapp ch code) ∨ ∃ d0, i = .bufapq ch d0

/-- A command that stores a word does not only read. -/
theorem StoresWord.onlyReads_eq_false {ch : BitVec 8} {i : Instr} (h : StoresWord ch i) : onlyReads i = false := by
  obtain ⟨_, _, rfl⟩ | ⟨_, rfl⟩ | ⟨_, rfl⟩ := h <;> rfl

/-- A code's word has its low four bits 0 (R58). -/
theorem extractLsb'_codeWord (code : BitVec 12) : (codeWord code).extractLsb' 0 4 = 0#4 :=
  BitVec.extractLsb'_append_eq_right

/-- Sixteen times an integer has its low four bits 0 (R26). -/
theorem extractLsb'_ofInt_mul_16 (k : Int) : (BitVec.ofInt 16 (k * 16)).extractLsb' 0 4 = 0#4 := by
  apply BitVec.eq_of_toNat_eq
  rw [BitVec.extractLsb'_toNat, Nat.shiftRight_zero, BitVec.toNat_ofInt, BitVec.toNat_ofNat]
  omega

/-- The state and response that a filter step on l and r leaves (R106, R108). -/
def State.filterStepped (s : State) (l r : F64) : State :=
  (s.setFilter (s.filter.processStereo l r).2.2).respond .ok
    (laneOut s.filter.coeffs s.filter.left l).toBits (laneOut s.filter.coeffs s.filter.right r).toBits

/-- What a command that answers does: it answers and writes nothing, as a reading and a failing command do, or it has
the effect of its meaning. -/
inductive Effect (s : State) : Instr → State → Prop where
  | answered {i : Instr} (st : Status) (a b : Word) (h : st = .ok → onlyReads i = true) : Effect s i (s.respond st a b)
  | rateSet (d0 : Word) (h : rateOk s.cfg (f64 d0) = true) :
    Effect s (.setrate d0) ((s.setRateReset (f64 d0)).respond .ok 0 0)
  | paramWritten {idx : BitVec 8} (val : Param) (h : idx.toNat < 12) :
    Effect s (.wrparam idx val)
      (((s.setParam ⟨idx.toNat, h⟩ val).applyParam ⟨idx.toNat, h⟩ val).respond .ok 0 0)
  | bufferCleared (ch : BitVec 8) :
    Effect s (.bufclr ch) ((s.setBuf (chan ch) { s.buf (chan ch) with len := 0 }).respond .ok 0 0)
  | wordStored {i : Instr} {ch : BitVec 8} {a : Nat} {w : SampleWord} (r0 r1 : Word) (hi : StoresWord ch i)
      (ha : s.mayWrite (chan ch) a = true) (hw : w.extractLsb' 0 4 = 0#4) :
    Effect s i ((s.memWrite (chan ch) a w).respond .ok r0 r1)
  | triggered (ch : BitVec 8) :
    Effect s (.trig ch)
      ((s.setVoice (chan ch) ((s.voice (chan ch)).trigger s.params s.rate (s.buf (chan ch)))).respond .ok 0 0)
  | stopped (ch : BitVec 8) :
    Effect s (.stop ch) ((s.setVoice (chan ch) (s.voice (chan ch)).stopped).respond .ok 0 0)
  | stepped {ch : BitVec 8} {y : F64} {v : Voice}
      (hp : (s.voice (chan ch)).process s.rate (s.buf (chan ch)) (chan ch) = .ok (y, v)) :
    Effect s (.vstep ch) ((s.setVoice (chan ch) v).respond .ok y.toBits 0)
  | framed {s' : State} (m : F64) (hs : s' = { s with voices := s'.voices })
      (hp : ∀ c, ∃ y, (s.voice c).process s.rate (s.buf c) c = .ok (y, s'.voice c)) :
    Effect s .frame (s'.filterStepped m m)
  | filtered (d0 d1 : Word) : Effect s (.filt d0 d1) (s.filterStepped (f64 d0) (f64 d1))
  | inputsSet (val : Param) (d0 d1 : Word) :
    Effect s (.fset val d0 d1)
      ((s.fset (f64 d0) (f64 d1) (modeFromParam val)).respond .ok
        (bit64 (s.fset (f64 d0) (f64 d1) (modeFromParam val)).filter.fallback) 0)

section

variable {s t : State} {i : Instr}

/-- A reading command that completes or raises has written nothing. -/
theorem Effect.of_respond {st : Status} {a b : Word} (h : onlyReads i = true) (ht : s.respond st a b = t) :
    Effect s i t :=
  ht ▸ .answered st a b fun _ => h

/-- A command that raises has written nothing (R136). -/
theorem Effect.of_raise {st : Status} (hst : st ≠ .ok) (ht : raise s st = .next t) : Effect s i t :=
  (raise_next s t st).mp ht ▸ .answered st 0 0 fun h => absurd h hst

/-- Two ways of answering. -/
theorem ite_next {σ φ ρ : Type} {p : Prop} [Decidable p] {a b t : σ}
    (h : (if p then .next a else .next b : Host.Outcome σ φ ρ) = .next t) : p ∧ t = a ∨ ¬ p ∧ t = b := by
  split at h
  · next hp => cases h; exact .inl ⟨hp, rfl⟩
  · next hp => cases h; exact .inr ⟨hp, rfl⟩

/-- Every reading command only answers (R147). -/
theorem effect_of_onlyReads (hi : onlyReads i = true) (h : exec i s = .next t) : Effect s i t := by
  cases i with
  | setrate | wrparam | bufclr | bufwr | bufapp | bufapq | trig | stop | vstep | frame | filt | fset => cases hi
  | rdparam idx =>
    obtain hlt | hge := Nat.lt_or_ge idx.toNat 12
    · rw [exec_rdparam_of_lt hlt] at h
      exact .of_respond hi ((complete_next _ _ _ _).mp h)
    · rw [exec_rdparam_of_ge hge] at h
      exact .of_raise (by decide) h
  | bufrd ch d0 =>
    change execBufrd ch d0 s = .next t at h
    unfold execBufrd at h
    split at h
    · exact .of_raise (by decide) h
    · split at h
      · exact .of_respond hi ((complete_next _ _ _ _).mp h)
      · cases h
  | vrd ch sel =>
    change execVrd ch sel s = .next t at h
    unfold execVrd at h
    split at h
    · exact .of_respond hi ((complete_next _ _ _ _).mp h)
    · exact .of_raise (by decide) h
  | frd sel =>
    change execFrd sel s = .next t at h
    unfold execFrd at h
    split at h
    · exact .of_respond hi ((complete_next _ _ _ _).mp h)
    · exact .of_raise (by decide) h
  | _ => exact .of_respond hi ((complete_next _ _ _ _).mp h)

/-- Every command that answers has one of the effects. -/
theorem effect_of_exec (h : exec i s = .next t) : Effect s i t := by
  cases i with
  | setrate d0 =>
    obtain ⟨hok, rfl⟩ | ⟨-, rfl⟩ := ite_next h
    · exact .rateSet d0 hok
    · exact .of_raise (st := .refused) (by decide) rfl
  | wrparam idx val =>
    obtain hlt | hge := Nat.lt_or_ge idx.toNat 12
    · rw [exec_wrparam_of_lt hlt] at h
      cases h
      exact .paramWritten val hlt
    · rw [exec_wrparam_of_ge hge] at h
      exact .of_raise (by decide) h
  | bufclr ch =>
    cases h
    exact .bufferCleared ch
  | bufwr ch code d0 =>
    obtain ⟨hmay, rfl⟩ | ⟨-, rfl⟩ := ite_next h
    · exact .wordStored 0 0 (.inl ⟨code, d0, rfl⟩) hmay (extractLsb'_codeWord code)
    · exact .of_raise (st := .refused) (by decide) rfl
  | bufapp ch code =>
    obtain ⟨-, rfl⟩ | ⟨hroom, rfl⟩ := ite_next h
    · exact .of_raise (st := .refused) (by decide) rfl
    · exact .wordStored _ 0 (.inr (.inl ⟨code, rfl⟩)) (State.mayWrite_iff.mpr (.inr ⟨rfl, Nat.lt_of_not_le hroom⟩))
        (extractLsb'_codeWord code)
  | bufapq ch d0 =>
    obtain ⟨-, rfl⟩ | ⟨hroom, rfl⟩ := ite_next h
    · exact .of_raise (st := .refused) (by decide) rfl
    · refine .wordStored _ _ (.inr (.inr ⟨d0, rfl⟩)) (State.mayWrite_iff.mpr (.inr ⟨rfl, Nat.lt_of_not_le hroom⟩)) ?_
      exact extractLsb'_ofInt_mul_16 _
  | trig ch =>
    cases h
    exact .triggered ch
  | stop ch =>
    cases h
    exact .stopped ch
  | vstep ch =>
    obtain ⟨y, v, hp, rfl⟩ := exec_vstep.mp h
    exact .stepped hp
  | frame =>
    obtain ⟨m, s', hmix, hstep⟩ := exec_frame.mp h
    obtain ⟨hframe, -, y, -, hall⟩ := State.mixFrom_ok nodup_channels hmix
    cases (filterStep_eq s' m m).symm.trans hstep
    exact .framed m hframe fun c => ⟨y c, hall c (mem_channels c)⟩
  | filt d0 d1 =>
    cases (filterStep_eq s (f64 d0) (f64 d1)).symm.trans h
    exact .filtered d0 d1
  | fset val d0 d1 =>
    cases h
    exact .inputsSet val d0 d1
  | _ => exact effect_of_onlyReads rfl h

end

/-! ## One voice, one buffer -/

/-- What a command that answers leaves of voice c. -/
inductive VoiceEffect (s : State) (c : Channel) : Instr → Voice → Prop where
  | kept {i : Instr} : VoiceEffect s c i (s.voice c)
  | reset (d0 : Word) : VoiceEffect s c (.setrate d0) Voice.reset
  | triggered {ch : BitVec 8} (hc : chan ch = c) :
    VoiceEffect s c (.trig ch) ((s.voice c).trigger s.params s.rate (s.buf c))
  | stopped {ch : BitVec 8} (hc : chan ch = c) : VoiceEffect s c (.stop ch) (s.voice c).stopped
  | stepped {i : Instr} {y : F64} {v : Voice} (hi : i = .frame ∨ ∃ ch, i = .vstep ch ∧ chan ch = c)
      (hp : (s.voice c).process s.rate (s.buf c) c = .ok (y, v)) : VoiceEffect s c i v

/-- What a command that answers leaves of the length bound and of buffer c. -/
inductive BufferEffect (s : State) (c : Channel) : Instr → Nat → Buffer → Prop where
  | kept {i : Instr} : BufferEffect s c i s.maxLen (s.buf c)
  | cut (d0 : Word) (bound : Nat) : BufferEffect s c (.setrate d0) bound ((s.buf c).cut bound)
  | cleared {ch : BitVec 8} (hc : chan ch = c) : BufferEffect s c (.bufclr ch) s.maxLen { s.buf c with len := 0 }
  | stored {i : Instr} {ch : BitVec 8} {a : Nat} {w : SampleWord} (hc : chan ch = c) (hi : StoresWord ch i)
      (ha : s.mayWrite c a = true) (hw : w.extractLsb' 0 4 = 0#4) :
    BufferEffect s c i s.maxLen ((s.buf c).memWrite a w)

section

variable {s t : State} {i : Instr}

/-- A write of one voice is the effect on that voice, and keeps the others. -/
theorem VoiceEffect.of_setVoice {ch : BitVec 8} {v : Voice} {c : Channel}
    (h : chan ch = c → VoiceEffect s c i v) : VoiceEffect s c i ((s.setVoice (chan ch) v).voice c) := by
  by_cases hc : chan ch = c
  · subst hc
    rw [State.voice_setVoice_self]
    exact h rfl
  · rw [State.voice_setVoice_ne s v hc]
    exact .kept

/-- A write of one buffer is the effect on that buffer, and keeps the others. -/
theorem BufferEffect.of_setBuf {ch : BitVec 8} {b : Buffer} {c : Channel}
    (h : chan ch = c → BufferEffect s c i s.maxLen b) :
    BufferEffect s c i s.maxLen ((s.setBuf (chan ch) b).buf c) := by
  by_cases hc : chan ch = c
  · subst hc
    rw [State.buf_setBuf_self]
    exact h rfl
  · rw [State.buf_setBuf_ne s b hc]
    exact .kept

/-- The effect on each voice (R158). -/
theorem Effect.voice (h : Effect s i t) (c : Channel) : VoiceEffect s c i (t.voice c) := by
  cases h with
  | rateSet d0 =>
    rw [State.voice_respond, State.setRateReset_voice]
    exact .reset d0
  | paramWritten => rw [State.voice_respond, State.voice_applyParam]; exact .kept
  | triggered ch => exact .of_setVoice fun hc => by subst hc; exact .triggered rfl
  | stopped ch => exact .of_setVoice fun hc => by subst hc; exact .stopped rfl
  | stepped hp => exact .of_setVoice fun hc => by subst hc; exact .stepped (.inr ⟨_, rfl, rfl⟩) hp
  | framed m hs hp =>
    obtain ⟨y, hp⟩ := hp c
    exact .stepped (.inl rfl) hp
  | _ => exact .kept

/-- The effect on the length bound and on each buffer (R37, R44). -/
theorem Effect.buf (h : Effect s i t) (c : Channel) : BufferEffect s c i t.maxLen (t.buf c) := by
  cases h with
  | rateSet d0 =>
    rw [State.maxLen_respond, State.buf_respond, State.setRateReset_buf, State.setRateReset_maxLen]
    exact .cut d0 _
  | paramWritten =>
    rw [State.maxLen_respond, State.buf_respond, State.maxLen_applyParam, State.buf_applyParam]
    exact .kept
  | bufferCleared ch => exact .of_setBuf fun hc => by subst hc; exact .cleared rfl
  | wordStored r0 r1 hi ha hw => exact .of_setBuf fun hc => by subst hc; exact .stored rfl hi ha hw
  | framed m hs hp =>
    rw [hs]
    exact .kept
  | _ => exact .kept

/-- The commands that can change a snapshot (R24). -/
theorem VoiceEffect.snap {c : Channel} {v : Voice} (h : VoiceEffect s c i v) :
    v.snap = (s.voice c).snap ∨ (∃ ch, i = .trig ch ∧ chan ch = c) ∨ ∃ d0, i = .setrate d0 := by
  cases h with
  | kept => exact .inl rfl
  | reset d0 => exact .inr (.inr ⟨d0, rfl⟩)
  | triggered hc => exact .inr (.inl ⟨_, rfl, hc⟩)
  | stopped => exact .inl rfl
  | stepped hi hp =>
    obtain ⟨hsnap, -⟩ := Voice.process_keeps hp
    exact .inl hsnap

/-- The commands that can change a voice record (R158). -/
theorem VoiceEffect.writer {c : Channel} {v : Voice} (h : VoiceEffect s c i v) :
    v = s.voice c ∨ (∃ ch, (i = .trig ch ∨ i = .stop ch ∨ i = .vstep ch) ∧ chan ch = c) ∨ i = .frame ∨
      ∃ d0, i = .setrate d0 := by
  cases h with
  | kept => exact .inl rfl
  | reset d0 => exact .inr (.inr (.inr ⟨d0, rfl⟩))
  | triggered hc => exact .inr (.inl ⟨_, .inl rfl, hc⟩)
  | stopped hc => exact .inr (.inl ⟨_, .inr (.inl rfl), hc⟩)
  | stepped hi hp =>
    obtain hframe | ⟨ch, hstep, hc⟩ := hi
    · exact .inr (.inr (.inl hframe))
    · exact .inr (.inl ⟨ch, .inr (.inr hstep), hc⟩)

/-- The commands that can change a byte of memory (R37, R44). -/
theorem BufferEffect.mem {c : Channel} {n : Nat} {b : Buffer} (h : BufferEffect s c i n b) :
    b.mem = (s.buf c).mem ∨ ∃ ch, chan ch = c ∧ StoresWord ch i := by
  cases h with
  | kept => exact .inl rfl
  | cut d0 => exact .inl (Buffer.cut_mem _ _)
  | cleared hc => exact .inl rfl
  | stored hc hi => exact .inr ⟨_, hc, hi⟩

/-- The commands that can change a length (R37, R44). -/
theorem BufferEffect.len {c : Channel} {n : Nat} {b : Buffer} (h : BufferEffect s c i n b) :
    b.len = (s.buf c).len ∨ (∃ ch, chan ch = c ∧ (StoresWord ch i ∨ i = .bufclr ch)) ∨ ∃ d0, i = .setrate d0 := by
  cases h with
  | kept => exact .inl rfl
  | cut d0 => exact .inr (.inr ⟨d0, rfl⟩)
  | cleared hc => exact .inr (.inl ⟨_, hc, .inr rfl⟩)
  | stored hc hi => exact .inr (.inl ⟨_, hc, .inl hi⟩)

/-! ## RATE, the parameters and the filter -/

/-- The OPEN parameters are written by no command (log entry 1). -/
theorem Effect.cfg (h : Effect s i t) : t.cfg = s.cfg := by
  cases h with
  | rateSet d0 =>
    obtain ⟨hcfg, -⟩ := s.setRateReset_frame (f64 d0)
    exact hcfg
  | paramWritten => exact State.applyParam_cfg _ _ _
  | framed m hs hp => rw [hs]; rfl
  | _ => rfl

/-- RATE is written by SETRATE alone, with an accepted rate (R22). -/
theorem Effect.rate (h : Effect s i t) :
    t.rate = s.rate ∨ ∃ d0, i = .setrate d0 ∧ rateOk s.cfg (f64 d0) = true ∧ t.rate = f64 d0 := by
  cases h with
  | rateSet d0 hok =>
    obtain ⟨-, hrate, -⟩ := s.setRateReset_frame (f64 d0)
    exact .inr ⟨d0, rfl, hok, hrate⟩
  | paramWritten => exact .inl (State.applyParam_rate _ _ _)
  | framed m hs hp => rw [hs]; exact .inl rfl
  | _ => exact .inl rfl

/-- A parameter register is written by WRPARAM alone (R24). -/
theorem Effect.params (h : Effect s i t) : t.params = s.params ∨ ∃ idx val, i = .wrparam idx val := by
  cases h with
  | rateSet d0 =>
    obtain ⟨-, -, hparams, -⟩ := s.setRateReset_frame (f64 d0)
    exact .inl hparams
  | paramWritten val => exact .inr ⟨_, val, rfl⟩
  | framed m hs hp => rw [hs]; exact .inl rfl
  | _ => exact .inl rfl

/-- Current coefficients stay current (R104). -/
theorem Effect.coeffsCurrent (h : Effect s i t) (hs : s.coeffsCurrent) : t.coeffsCurrent := by
  cases h with
  | rateSet d0 => exact s.setRateReset_current (f64 d0)
  | @paramWritten idx val hlt =>
    obtain h9 | h9 := Nat.lt_or_ge idx.toNat 9
    · rw [State.applyParam_low _ val h9]
      exact hs
    · exact State.applyParam_current _ val h9
  | inputsSet val d0 d1 => exact State.filterRecompute_current _
  | framed m he hp => rw [he]; exact hs
  | _ => exact hs

/-- The coefficients are recomputed by FSET, by WRPARAM of index 9 to 11 and by a performed SETRATE (R104). -/
theorem recomputed_of_exec (h : exec i s = .next t)
    (hi : (∃ val d0 d1, i = .fset val d0 d1) ∨ (∃ idx val, i = .wrparam idx val ∧ 9 ≤ idx.toNat ∧ idx.toNat < 12) ∨
      ∃ d0, i = .setrate d0 ∧ t.response.status = .ok) : t.coeffsCurrent := by
  obtain ⟨val, d0, d1, rfl⟩ | ⟨idx, val, rfl, h9, h12⟩ | ⟨d0, rfl, hok⟩ := hi
  · cases h
    exact State.filterRecompute_current _
  · rw [exec_wrparam_of_lt h12] at h
    cases h
    exact State.applyParam_current _ val h9
  · rw [exec_setrate] at h
    obtain ⟨-, rfl⟩ | ⟨-, rfl⟩ := ite_next h
    · exact s.setRateReset_current (f64 d0)
    · cases hok

/-- A performed SETRATE clears the delay state (R68, R159). -/
theorem delay_of_setrate {d0 : Word} (h : exec (.setrate d0) s = .next t) (hok : t.response.status = .ok) :
    t.filter.left = Delay.reset ∧ t.filter.right = Delay.reset := by
  rw [exec_setrate] at h
  obtain ⟨-, rfl⟩ | ⟨-, rfl⟩ := ite_next h
  · obtain ⟨-, -, -, -, -, -, -, -, hleft, hright⟩ := s.setRateReset_frame (f64 d0)
    exact ⟨hleft, hright⟩
  · cases hok

/-- No command but FSET, WRPARAM of index 9 or more and SETRATE writes the filter's inputs, its coefficients or FALLBACK
(R104, R159). -/
theorem Effect.filter_keeps_inputs (h : Effect s i t) (hfset : ∀ val d0 d1, i ≠ .fset val d0 d1)
    (hparam : ∀ idx val, i = .wrparam idx val → idx.toNat < 9) (hrate : ∀ d0, i ≠ .setrate d0) :
    t.filter = { s.filter with left := t.filter.left, right := t.filter.right } := by
  cases h with
  | rateSet d0 => exact absurd rfl (hrate d0)
  | @paramWritten idx val hlt => rw [State.applyParam_low _ val (hparam idx val rfl)]; rfl
  | inputsSet val d0 d1 => exact absurd rfl (hfset val d0 d1)
  | framed m hs hp => rw [hs]; rfl
  | _ => rfl

/-- No command but FILT, FRAME and SETRATE writes the delay state (R104, R159). -/
theorem Effect.filter_keeps_delay (h : Effect s i t) (hfilt : ∀ d0 d1, i ≠ .filt d0 d1) (hframe : i ≠ .frame)
    (hrate : ∀ d0, i ≠ .setrate d0) : t.filter.left = s.filter.left ∧ t.filter.right = s.filter.right := by
  cases h with
  | rateSet d0 => exact absurd rfl (hrate d0)
  | paramWritten => exact State.applyParam_delay _ _ _
  | framed => exact absurd rfl hframe
  | filtered d0 d1 => exact absurd rfl (hfilt d0 d1)
  | _ => exact ⟨rfl, rfl⟩

/-- A reading command has no effect but its answer (R147). -/
theorem Effect.of_onlyReads (h : Effect s i t) (hi : onlyReads i = true) : t = { s with response := t.response } := by
  cases h with
  | answered => rfl
  | wordStored r0 r1 hstores => rw [hstores.onlyReads_eq_false] at hi; cases hi
  | _ => cases hi

/-! ## Steps -/

/-- A step that answers is idle, rejects an unassigned opcode, or performs a command (R53, R59). -/
theorem step_effect (h : step s = .next t) :
    t = s ∨ ∃ rest, t = ({ s with commands := rest } : State).respond .illegal 0 0 ∨
      ∃ i, exec i { s with commands := rest } = .next t := by
  cases hs : s.commands with
  | nil =>
    rw [step_of_idle hs] at h
    cases h
    exact .inl rfl
  | cons c rest =>
    refine .inr ⟨rest, ?_⟩
    cases hd : decode c with
    | error e =>
      rw [step_of_unassigned hs (unassigned_of_decode_error hd)] at h
      cases h
      exact .inl rfl
    | ok i => exact .inr ⟨i, by rw [← step_of_decoded hs hd, h]⟩

/-- What no response and no list of commands affects and every command keeps, every step keeps. -/
theorem step_keeps {P : State → Prop} (hport : ∀ s rest r, P s → P { s with commands := rest, response := r })
    (hexec : ∀ i s t, P s → exec i s = .next t → P t) (hs : P s) (h : step s = .next t) : P t := by
  obtain rfl | ⟨rest, rfl | ⟨i, hi⟩⟩ := step_effect h
  · exact hs
  · exact hport s rest _ hs
  · exact hexec i _ t (hport s rest s.response hs) hi

end

end Sys2Proof.Machine

/-- Settles O11: no command leaves coefficients of other inputs, and the port does not enter them. -/
theorem coefficientsStayCurrent : Obligations.CoefficientsStayCurrent := by
  unfold Obligations.CoefficientsStayCurrent
  exact fun s t hs h => step_keeps (P := State.coeffsCurrent) (fun _ _ _ hs => hs)
    (fun _ _ _ hs hexec => (effect_of_exec hexec).coeffsCurrent hs) hs h

/-- Settles O14: SETRATE alone writes RATE, with a rate its test accepts. -/
theorem rateWrittenOnlyBySetrate : Obligations.RateWrittenOnlyBySetrate := by
  unfold Obligations.RateWrittenOnlyBySetrate
  refine ⟨by decide, fun i s t h hne => ?_⟩
  obtain heq | ⟨d0, rfl, hok, hrate⟩ := (effect_of_exec h).rate
  · exact absurd heq hne
  · obtain ⟨hfin, hlo, hhi⟩ := rateOk_iff.mp hok
    rw [hrate]
    exact ⟨d0, rfl, rfl, hfin, hlo, hhi⟩

/-- Settles O15: the effect on a voice names the commands that can change it, and a step keeps the snapshot. -/
theorem voiceAndParameterWriters : Obligations.VoiceAndParameterWriters := by
  unfold Obligations.VoiceAndParameterWriters
  intro i s t h
  have heffect := effect_of_exec h
  exact ⟨heffect.params.resolve_left, fun c => (heffect.voice c).snap.resolve_left,
    fun c => (heffect.voice c).writer.resolve_left⟩

/-- Settles O16: the effect on a buffer names the commands that can change its bytes and its length. -/
theorem memoryWriters : Obligations.MemoryWriters := by
  unfold Obligations.MemoryWriters
  intro i s t c h
  have heffect := (effect_of_exec h).buf c
  refine ⟨fun a hne => heffect.mem.resolve_left fun heq => hne ?_, fun hne => ?_⟩
  · rw [State.byteAt, heq, State.byteAt]
  · simpa only [StoresWord, or_assoc] using
      heffect.len.resolve_left fun heq => hne (by rw [State.lenOf, heq, State.lenOf])

/-- Settles O17: a reading command answers and has no other effect. -/
theorem readsChangeNothing : Obligations.ReadsChangeNothing := by
  unfold Obligations.ReadsChangeNothing
  exact fun i s t hi h => (effect_of_exec h).of_onlyReads hi

/-- Settles O40: the effects on the filter, one part at a time. -/
theorem filterWriters : Obligations.FilterWriters := by
  unfold Obligations.FilterWriters
  intro i s t h
  have heffect := effect_of_exec h
  refine ⟨recomputed_of_exec h, heffect.filter_keeps_inputs, heffect.filter_keeps_delay, ?_⟩
  rintro ⟨d0, rfl, hok⟩
  exact delay_of_setrate h hok

end

/-! The filter's failing inputs (45_filter.md R101, R109) and its poisoned delay state (R108): a value that is not
finite stays so through products, sums and differences (00_scope.md R12). -/

section

open Sys2Proof Sys2Proof.Machine F64

set_option exponentiation.threshold 3000

namespace Sys2Proof

/-! ## Operations on values that are not finite (R12) -/

/-- A product with a factor that is not finite is not finite (R12). -/
theorem F64.isFinite_mul {x y : F64} (h : x.isFinite = false ∨ y.isFinite = false) : (x.mul y).isFinite = false := by
  unfold F64.mul
  match x, y with
  | .nan _ _, _ => rfl
  | .inf _, .nan _ _ | .fin _ _ _, .nan _ _ => rfl
  | .inf _, .inf _ => rfl
  | .inf _, .fin _ _ _ | .fin _ _ _, .inf _ =>
    dsimp only
    split <;> rfl
  | .fin _ _ _, .fin _ _ _ => obtain h | h := h <;> cases h

/-- A sum with a term that is not finite is not finite (R12). -/
theorem F64.isFinite_add {x y : F64} (h : x.isFinite = false ∨ y.isFinite = false) : (x.add y).isFinite = false := by
  unfold F64.add
  match x, y with
  | .nan _ _, _ => rfl
  | .inf _, .nan _ _ | .fin _ _ _, .nan _ _ => rfl
  | .inf s, .inf t =>
    dsimp only
    split <;> rfl
  | .inf _, .fin _ _ _ | .fin _ _ _, .inf _ => rfl
  | .fin _ _ _, .fin _ _ _ => obtain h | h := h <;> cases h

/-- A difference with a term that is not finite is not finite (R12). -/
theorem F64.isFinite_sub {x y : F64} (h : x.isFinite = false ∨ y.isFinite = false) : (x.sub y).isFinite = false := by
  unfold F64.sub
  split
  · rfl
  · exact isFinite_add (by rwa [isFinite_neg])

end Sys2Proof

namespace Sys2Proof.Machine

/-! ## The poisoned delay state (R105, R108) -/

/-- A lane step with an input that is not finite gives an output that is not (R105). -/
theorem isFinite_laneOut_of_input (k : Coeffs) (d : Delay) {x : F64} (h : x.isFinite = false) :
    (laneOut k d x).isFinite = false :=
  isFinite_sub (.inl (isFinite_sub (.inl (isFinite_add (.inl (isFinite_add (.inl (isFinite_mul (.inr h)))))))))

/-- A lane whose last output is not finite gives an output that is not (R105). -/
theorem isFinite_laneOut_of_output (k : Coeffs) {d : Delay} (x : F64) (h : d.y1.isFinite = false) :
    (laneOut k d x).isFinite = false :=
  isFinite_sub (.inl (isFinite_sub (.inr (isFinite_mul (.inr h)))))

/-- FRAME is a filter step, on the mix, of the filter as it was (R133). -/
theorem exec_frame_filter {s t : State} (h : exec .frame s = .next t) :
    ∃ (m : F64) (s' : State), s'.filter = s.filter ∧ t = s'.filterStepped m m := by
  obtain ⟨m, s', hmix, hstep⟩ := exec_frame.mp h
  obtain ⟨hframe, -⟩ := State.mixFrom_ok nodup_channels hmix
  cases (filterStep_eq s' m m).symm.trans hstep
  exact ⟨m, s', by rw [hframe], rfl⟩

/-- Every command but SETRATE keeps a lane's last output not finite, and FRAME answers with an output that is not
(R107, R163). -/
theorem exec_keeps_poisoned {i : Instr} {s t : State} (h : exec i s = .next t) (hrate : ∀ d0, i ≠ .setrate d0) :
    (s.filter.left.y1.isFinite = false →
      t.filter.left.y1.isFinite = false ∧ (i = .frame → (F64.ofBits t.response.rsp0).isFinite = false)) ∧
    (s.filter.right.y1.isFinite = false →
      t.filter.right.y1.isFinite = false ∧ (i = .frame → (F64.ofBits t.response.rsp1).isFinite = false)) := by
  cases i with
  | filt d0 d1 =>
    cases (filterStep_eq s (f64 d0) (f64 d1)).symm.trans h
    exact ⟨fun hl => ⟨isFinite_laneOut_of_output _ _ hl, nofun⟩, fun hr => ⟨isFinite_laneOut_of_output _ _ hr, nofun⟩⟩
  | frame =>
    obtain ⟨m, s', hfilter, rfl⟩ := exec_frame_filter h
    rw [← hfilter]
    refine ⟨fun hl => ?_, fun hr => ?_⟩
    · have hout := isFinite_laneOut_of_output s'.filter.coeffs m hl
      exact ⟨hout, fun _ => by rwa [← ofBits_toBits (laneOut _ _ _)] at hout⟩
    · have hout := isFinite_laneOut_of_output s'.filter.coeffs m hr
      exact ⟨hout, fun _ => by rwa [← ofBits_toBits (laneOut _ _ _)] at hout⟩
  | _ =>
    obtain ⟨hleft, hright⟩ := (effect_of_exec h).filter_keeps_delay nofun nofun hrate
    rw [hleft, hright]
    exact ⟨fun hl => ⟨hl, nofun⟩, fun hr => ⟨hr, nofun⟩⟩

/-! ## The inputs of FSET that always fail (R101, R109) -/

/-- -0.05, of which ten times is at most -0.5 (R101). -/
theorem negTwentieth_spec : (F64.ofBits 0xBFA999999999999A).isFinite = true ∧
    (F64.ofBits 0xBFA999999999999A).units < 0 ∧
    cHalf.mag * unitsOne ≤ (F64.ofBits 0xBFA999999999999A).mag * cTen.mag := by
  decide +kernel

/-- A finite resonance of -0.05 or less gives a Q that is not finite or not above 0 (R98, R101). -/
theorem qOf_fails_of_le {res : F64} (hres : res.isFinite = true)
    (h : res.le (F64.ofBits 0xBFA999999999999A) = true) : (qOf res).isFinite = false ∨ (qOf res).le cZero = true := by
  obtain ⟨hcfin, hneg, hten⟩ := negTwentieth_spec
  obtain ⟨htenfin, htensign, hhalf⟩ : cTen.isFinite = true ∧ cTen.sign = false ∧ cHalf.units = cHalf.mag := by
    decide +kernel
  rw [le_iff_of_finite hres hcfin] at h
  have hmag : (F64.ofBits 0xBFA999999999999A).mag ≤ res.mag := by
    rw [← natAbs_units, ← natAbs_units res]
    omega
  have hge : cHalf.mag ≤ roundMag (res.mag * cTen.mag) unitsOne := by
    rw [← roundMag_exact (representable_mag cHalf) unitsOne_pos]
    exact roundMag_mono unitsOne_pos unitsOne_pos
      (Nat.mul_le_mul_right _ (hten.trans (Nat.mul_le_mul_right _ hmag)))
  have hmul : res.mul cTen = roundRat true (res.mag * cTen.mag) unitsOne := by
    rw [mul_of_finite hres htenfin, sign_of_units_neg (h.trans_lt hneg), htensign, Bool.xor_false]
  obtain ⟨-, e, f, he, hm⟩ | ⟨-, hinf⟩ := roundRat_spec true (res.mag * cTen.mag) unitsOne_pos
  · rw [← hmul] at he hm
    have hfin : (res.mul cTen).isFinite = true := by rw [he]; rfl
    have hunits : (res.mul cTen).units = -((res.mul cTen).mag : Int) :=
      units_of_sign (s := true) (by rw [he]; rfl)
    obtain ⟨hqfin, -, hq⟩ := add_bounds (x := cHalf) (lo := res.mul cTen) (hi := cZero) rfl hfin (by omega)
      (by rw [units_cZero]; omega)
    exact .inr ((le_iff_of_finite hqfin rfl).mpr hq)
  · exact .inl (isFinite_add (.inr (by rw [hmul, hinf]; rfl)))

/-- The resonances that give no Q above 0: a NaN, an infinity, or -0.05 and less (R98, R101). -/
theorem qOf_fails {res : F64} (h : res.isFinite = false ∨ res.le (F64.ofBits 0xBFA999999999999A) = true) :
    (qOf res).isFinite = false ∨ (qOf res).le cZero = true := by
  cases hres : res.isFinite with
  | false => exact .inl (isFinite_add (.inr (isFinite_mul (.inl hres))))
  | true => exact qOf_fails_of_le hres (h.resolve_left (by simp [hres]))

/-- FSET of a cutoff that is a NaN, or of such a resonance, gives the fallback set (R101, R102). -/
theorem coeffsFor_of_failing_input (p : Params) (rate : F64) {fcReq res : F64} (mode : FilterMode)
    (h : fcReq.isNaN = true ∨ res.isFinite = false ∨ res.le (F64.ofBits 0xBFA999999999999A) = true) :
    coeffsFor p rate fcReq res mode = (Coeffs.fallbackSet, true) := by
  refine coeffsFor_of_failure (.inl (deriveFails_iff.mpr ?_))
  obtain hnan | hres := h
  · refine .inr (.inr (.inl ?_))
    rw [clampCutoff_of_nan rate hnan]
    exact Bool.eq_false_of_not_eq_true fun hfin => by simp [isNaN_of_isFinite hfin] at hnan
  · obtain hq | hq := qOf_fails hres
    · exact .inr (.inr (.inr (.inr (.inr (.inl hq)))))
    · exact .inr (.inr (.inr (.inr (.inr (.inr hq)))))

/-- FSET leaves the coefficients and FALLBACK of the inputs it wrote (R109). -/
theorem State.fset_of_coeffsFor {s : State} {fcReq res : F64} {mode : FilterMode} {k : Coeffs} {b : Bool}
    (h : coeffsFor s.cfg s.rate fcReq res mode = (k, b)) :
    (s.fset fcReq res mode).filter.coeffs = k ∧ (s.fset fcReq res mode).filter.fallback = b := by
  rw [State.fset, State.filterRecompute_of_coeffsFor
    (s := s.setFilter { s.filter with fcReq := fcReq, res := res, mode := mode }) h]
  exact ⟨rfl, rfl⟩

/-! ## The register inputs (R97, R98, R101) -/

/-- The entries of CUTOFF_HZ are finite and at least 20.0 (R97). -/
theorem cutoffHz_range : ∀ p : Param, (cutoffHz p).isFinite = true ∧ cTwenty.le (cutoffHz p) = true := by
  decide +kernel

/-- The Q of every resonance of the parameter file is finite and above 0: it is at least 0.5 (R98). -/
theorem qOf_normParam (p : Param) : (qOf (normParam p)).isFinite = true ∧ (qOf (normParam p)).le cZero = false := by
  obtain ⟨htenfin, hten0, hpos, hsum⟩ : cTen.isFinite = true ∧ 0 ≤ cTen.units ∧ 0 < cHalf.units ∧
      cHalf.units + cTen.units ≤ cN127.units := by decide +kernel
  obtain ⟨hmul, hrange, -⟩ := (normParam_fraction p).mul htenfin
  obtain ⟨h0, hle⟩ := hrange hten0
  obtain ⟨hfin, hge, -⟩ := add_bounds (x := cHalf) (lo := cHalf) (hi := cN127) rfl hmul (by omega) (by omega)
  refine ⟨hfin, ?_⟩
  rw [le_of_finite (x := qOf (normParam p)) hfin rfl, units_cZero, decide_eq_false_iff_not, Int.not_le]
  exact hpos.trans_le hge

/-- Half of a value of at least 1.0 is exact, and twice it is the value (R12). -/
theorem two_mul_half {x : F64} (hx : x.Unsigned) (hone : cOne.le x = true) : cTwo.mul (cHalf.mul x) = x := by
  obtain ⟨hmagone, hmaghalf, hmagtwo⟩ :
      cOne.mag = unitsOne ∧ cHalf.mag * 2 = unitsOne ∧ cTwo.mag = 2 * unitsOne := by decide +kernel
  have hge := (Unsigned.le_iff ⟨rfl, rfl⟩ hx).mp hone
  obtain ⟨m, j, hm, hj⟩ := representable_mag x
  obtain rfl | ⟨j, rfl⟩ : j = 0 ∨ ∃ k, j = k + 1 := by cases j <;> simp
  · rw [hmagone, hj, unitsOne] at hge
    omega
  have hr : x.mag = 2 * (m * 2 ^ j) := by rw [hj, pow_succ]; ring
  have hlim := mag_lt x
  obtain ⟨hfin, hsign, hmag⟩ := roundRat_exact false (num := cHalf.mag * x.mag) unitsOne_pos ⟨m, j, hm, rfl⟩
    (by rw [hr, ← hmaghalf]; ring) (by omega)
  rw [← timeFactor_half.unsigned.mul_eq hx] at hfin hsign hmag
  obtain ⟨hfin', hsign', hmag'⟩ := roundRat_exact false (num := cTwo.mag * (cHalf.mul x).mag) unitsOne_pos
    (representable_mag x) (by rw [hmag, hr, hmagtwo]; ring) hlim
  rw [← timeFactor_two.unsigned.mul_eq ⟨hfin, hsign⟩] at hfin' hsign' hmag'
  exact ext_finite hfin' hx.finite (hsign'.trans hx.sign.symm) hmag'

/-- What is at most half an accepted rate is at most the rate when doubled (R101). -/
theorem two_mul_le_rate {p : Params} (hp : paramsValid p) {rate fc : F64} (h : rateOk p rate = true)
    (hfc : fc.Unsigned) (hle : fc.le (cHalf.mul rate) = true) : (cTwo.mul fc).le rate = true := by
  obtain ⟨hrate, hone, -⟩ := rate_bounds hp h
  obtain ⟨hhalf, -⟩ := timeFactor_half.mul_rate hp h
  have htwo := timeFactor_two.unsigned
  have hmul := htwo.mul_le_mul htwo hfc hhalf ((htwo.le_iff htwo).mpr le_rfl) hle
  rwa [two_mul_half hrate hone] at hmul

/-- 0.45 times an accepted rate is above 0.0 and at most half the rate (R99). -/
theorem fcMax_bounds {p : Params} (hp : paramsValid p) {rate : F64} (h : rateOk p rate = true) :
    (cFcMaxFrac.mul rate).Unsigned ∧ cFcMaxFrac.le (cFcMaxFrac.mul rate) = true ∧
      (cFcMaxFrac.mul rate).le (cHalf.mul rate) = true := by
  obtain ⟨hrate, hone, -⟩ := rate_bounds hp h
  obtain ⟨hhalf, -⟩ := timeFactor_half.mul_rate hp h
  have hfrac : cFcMaxFrac.Unsigned := ⟨by decide, by decide⟩
  have hmul_one : cFcMaxFrac.mul cOne = cFcMaxFrac := by decide +kernel
  have hge := hfrac.mul_le_mul hfrac ⟨rfl, rfl⟩ hrate ((hfrac.le_iff hfrac).mpr le_rfl) hone
  have hle := hfrac.mul_le_mul timeFactor_half.unsigned hrate hrate (by decide +kernel)
    ((hrate.le_iff hrate).mpr le_rfl)
  rw [hmul_one] at hge
  exact ⟨hfrac.mul hrate hhalf.finite hle, hge, hle⟩

/-- The cutoff in use of a register cutoff at an accepted rate: the cutoff, or the upper limit (R99). -/
theorem clampCutoff_cutoffHz (rate : F64) (cut : Param) :
    clampCutoff rate (cutoffHz cut) = F64.min (cutoffHz cut) (cFcMaxFrac.mul rate) := by
  obtain ⟨hfin, hge⟩ := cutoffHz_range cut
  rw [clampCutoff_of_not_nan rate (isNaN_of_isFinite hfin), max_of_le hge]

/-- The cutoff in use is a finite value above 0.0 and at most half the rate (R99). -/
theorem clampCutoff_range {p : Params} (hp : paramsValid p) {rate : F64} (h : rateOk p rate = true) (cut : Param) :
    (clampCutoff rate (cutoffHz cut)).Unsigned ∧ cZero.lt (clampCutoff rate (cutoffHz cut)) = true ∧
      (clampCutoff rate (cutoffHz cut)).le (cHalf.mul rate) = true := by
  obtain ⟨hfin, hge⟩ := cutoffHz_range cut
  obtain ⟨hmax, hmaxge, hmaxle⟩ := fcMax_bounds hp h
  obtain ⟨hpos20, hposfrac⟩ : cZero.lt cTwenty = true ∧ cZero.lt cFcMaxFrac = true := by decide +kernel
  rw [clampCutoff_cutoffHz]
  cases hle : (cutoffHz cut).le (cFcMaxFrac.mul rate) with
  | true =>
    have hpos := lt_of_lt_of_le hpos20 hge
    have hsign : (cutoffHz cut).sign = false := by
      rw [lt_of_finite rfl hfin, decide_eq_true_eq, units_cZero] at hpos
      obtain ⟨hsign, -⟩ := sign_of_units_pos hpos
      exact hsign
    rw [min_of_le hle]
    exact ⟨⟨hfin, hsign⟩, hpos, le_trans hle hmaxle⟩
  | false =>
    rw [min_of_not_le hle]
    exact ⟨hmax, lt_of_lt_of_le hposfrac hmaxge, hmaxle⟩

end Sys2Proof.Machine

/-- Settles O37: FSET recomputes from the inputs it wrote, and a failing input meets a test before the derivation. -/
theorem fsetResult : Obligations.FsetResult := by
  unfold Obligations.FsetResult
  refine ⟨fun s val d0 d1 => ?_, fun s t val d0 d1 h hfail => ?_⟩
  · refine ⟨(s.fset (f64 d0) (f64 d1) (modeFromParam val)).respond .ok
      (bit64 (s.fset (f64 d0) (f64 d1) (modeFromParam val)).filter.fallback) 0, rfl, ?_, rfl, rfl, rfl,
      State.filterRecompute_current _, rfl, rfl, rfl⟩
    rw [bit64_eq]
    rfl
  · obtain ⟨hcoeffs, hfallback⟩ := State.fset_of_coeffsFor
      (coeffsFor_of_failing_input s.cfg s.rate (modeFromParam val) hfail)
    cases h
    exact ⟨by rw [State.respond_response, f64, f64, hfallback]; rfl, hcoeffs⟩

/-- Settles O38: the cutoff in use is above 0.0 and at most half the rate, and Q is above 0. -/
theorem registerInputsPassFailureTests : Obligations.RegisterInputsPassFailureTests := by
  unfold Obligations.RegisterInputsPassFailureTests
  intro p rate cut res hp h
  obtain ⟨hrate, hone, -⟩ := rate_bounds hp h
  obtain ⟨hfc, hpos, hhalf⟩ := clampCutoff_range hp h cut
  obtain ⟨hqfin, hq⟩ := qOf_normParam res
  have hrate0 : rate.le cZero = false := not_le_of_lt_of_le (y := cOne) (by decide +kernel) hone
  obtain ⟨-, hfc0⟩ := le_of_lt hpos
  have hnyquist := lt_eq_false_of_le (two_mul_le_rate hp h hfc hhalf)
  rw [← Bool.not_eq_true, deriveFails_iff]
  simp [hrate.finite, hrate0, hfc.finite, hfc0, hnyquist, hqfin, hq]

/-- Settles O41: a lane step multiplies its input and its last output, and a value that is not finite passes through. -/
theorem poisonedDelayStays : Obligations.PoisonedDelayStays := by
  unfold Obligations.PoisonedDelayStays
  exact ⟨fun s d0 d1 => ⟨_, filterStep_eq s (f64 d0) (f64 d1), isFinite_laneOut_of_input _ _,
    isFinite_laneOut_of_input _ _⟩, fun i s t h hrate => exec_keeps_poisoned h hrate⟩

end

/-! Voice steps on the state (46_voice.md R113, 47_frame.md R134): a step reads and writes its own voice, its output is
bounded in a sound state, and with no voice playing the frame is the filter's step on +0.0 (R152). -/

section

open Sys2Proof Sys2Proof.Machine

namespace Sys2Proof.Machine

/-- The state and response that one step of voice c leaves (R128). -/
def State.voiceStepped (s : State) (c : Channel) (y : F64) (v : Voice) : State :=
  (s.setVoice c v).respond .ok y.toBits 0

@[simp] theorem State.voice_voiceStepped_self (s : State) (c : Channel) (y : F64) (v : Voice) :
    (s.voiceStepped c y v).voice c = v := by
  rw [State.voiceStepped, State.voice_respond, State.voice_setVoice_self]

theorem State.voice_voiceStepped_ne (s : State) {c d : Channel} (y : F64) (v : Voice) (h : c ≠ d) :
    (s.voiceStepped c y v).voice d = s.voice d := by
  rw [State.voiceStepped, State.voice_respond, State.voice_setVoice_ne s v h]

/-- Steps of two voices leave the same state in either order, but for the response of the later one (R113). -/
theorem State.voiceStepped_comm (s : State) {c d : Channel} (h : c ≠ d) (y z : F64) (v w : Voice) :
    (s.voiceStepped d z w).voiceStepped c y v =
      { (s.voiceStepped c y v).voiceStepped d z w with response := (s.voiceStepped c y v).response } := by
  show (((s.setVoice d w).setVoice c v).respond .ok y.toBits 0) =
    { ((s.setVoice c v).setVoice d w) with response := ⟨.ok, y.toBits, 0⟩ }
  rw [State.setVoice_comm s v w h]
  rfl

/-- VSTEP answers with one step of its voice (R128). -/
theorem exec_vstep_iff {ch : BitVec 8} {s t : State} :
    exec (.vstep ch) s = .next t ↔
      ∃ y v, (s.voice (chan ch)).process s.rate (s.buf (chan ch)) (chan ch) = .ok (y, v) ∧
        t = s.voiceStepped (chan ch) y v :=
  exec_vstep

/-- VSTEP reads RATE, its buffer and its voice alone (R113). -/
theorem exec_vstep_congr {s s' : State} {ch : BitVec 8} {y : F64} {v : Voice} (hrate : s'.rate = s.rate)
    (hbuf : s'.buf (chan ch) = s.buf (chan ch)) (hvoice : s'.voice (chan ch) = s.voice (chan ch))
    (hp : (s.voice (chan ch)).process s.rate (s.buf (chan ch)) (chan ch) = .ok (y, v)) :
    exec (.vstep ch) s' = .next (s'.voiceStepped (chan ch) y v) :=
  exec_vstep_iff.mpr ⟨y, v, by rw [hrate, hbuf, hvoice, hp], rfl⟩

/-- A voice that is not playing gives +0.0 and is kept (R32, R121). -/
theorem Voice.process_of_not_playing {v : Voice} (rate : F64) (b : Buffer) (c : Channel) (h : v.playing = false) :
    v.process rate b c = .ok (F64.cZero, v) := by
  simp only [Voice.playing, Bool.or_eq_false_iff, decide_eq_false_iff_not] at h
  obtain ⟨ha, hrem⟩ := h
  exact Voice.process_of_idle rate b c ha (BitVec.eq_of_toNat_eq (Nat.eq_zero_of_not_pos hrem))

/-- A sum of +0.0s is +0.0 (R12). -/
theorem cZero_add_cZero : F64.cZero.add F64.cZero = F64.cZero := by decide +kernel

/-- The mix of voices that are not playing is +0.0 and writes nothing (R133). -/
theorem State.mixFrom_of_silent {s : State} (h : ∀ c, (s.voice c).playing = false) (cs : List Channel) :
    s.mixFrom F64.cZero cs = .ok (F64.cZero, s) := by
  induction cs with
  | nil => rfl
  | cons c rest ih =>
    have hstep : s.process c = .ok (F64.cZero, s) :=
      State.process_ok.mpr ⟨_, Voice.process_of_not_playing _ _ c (h c), (s.setVoice_voice_self c).symm⟩
    rw [State.mixFrom, hstep]
    simp only [cZero_add_cZero, ih]

/-- With no voice playing FRAME is the filter's step on +0.0 (R133). -/
theorem exec_frame_of_silent {s : State} (h : ∀ c, (s.voice c).playing = false) :
    exec .frame s = exec (.filt 0 0) s :=
  exec_frame.mpr ⟨_, _, State.mixFrom_of_silent h channels, filterStep_eq s _ _⟩

/-- No voice is playing at reset (R152). -/
theorem not_playing_reset (c : Channel) : (State.reset.voice c).playing = false := by
  rw [State.voice_reset]
  rfl

/-- The filter's step on +0.0 at reset gives +0.0 (R152). -/
theorem laneOut_reset : (laneOut State.reset.filter.coeffs Delay.reset (f64 0)).toBits = 0 := by decide +kernel

end Sys2Proof.Machine

/-- Settles O53: a step reads RATE, its buffer and its voice, and writes its voice, and writes of two voices commute. -/
theorem voicesAreIndependent : Obligations.VoicesAreIndependent := by
  unfold Obligations.VoicesAreIndependent
  refine ⟨fun s s' t ch hrate hbuf hvoice h => ?_, fun s t u a b hab ha hb => ?_⟩
  · obtain ⟨y, v, hp, rfl⟩ := exec_vstep_iff.mp h
    refine ⟨_, exec_vstep_congr hrate hbuf hvoice hp, rfl, ?_⟩
    rw [State.voice_voiceStepped_self, State.voice_voiceStepped_self]
  · obtain ⟨y, v, hp, rfl⟩ := exec_vstep_iff.mp ha
    obtain ⟨z, w, hq, rfl⟩ := exec_vstep_iff.mp hb
    have hb' := s.voice_voiceStepped_ne y v hab
    have ha' := s.voice_voiceStepped_ne z w hab.symm
    exact ⟨_, _, exec_vstep_congr (s := s.voiceStepped (chan a) y v) (s' := s) rfl rfl hb'.symm hq,
      exec_vstep_congr (s := s) (s' := s.voiceStepped (chan b) z w) rfl rfl ha' hp, rfl, rfl,
      s.voiceStepped_comm hab y z v w⟩

/-- Settles O54: the held value is on the quantizer's grid, and the level and the volume are fractions. -/
theorem voiceOutputBound : Obligations.VoiceOutputBound := by
  unfold Obligations.VoiceOutputBound
  intro s c y v hinv hp
  obtain ⟨hfin, hbound⟩ := hinv.process_within hp
  exact ⟨hfin, by rwa [Nat.cast_one, one_mul] at hbound⟩

/-- Settles O56: voices that are not playing add +0.0 to the mix and are kept; the reset coefficients take +0.0 to
+0.0. -/
theorem silentFrame : Obligations.SilentFrame := by
  unfold Obligations.SilentFrame
  refine ⟨fun s h => exec_frame_of_silent h, _,
    (exec_frame_of_silent not_playing_reset).trans (filterStep_eq _ _ _), ?_⟩
  obtain ⟨hleft, hright⟩ := State.filter_reset_delay
  rw [State.respond_response, hleft, hright, laneOut_reset]

end

/-! Every step keeps the invariant and answers (70_reset_and_hazards.md R156; 10_state.md R22 to R34): what each effect
leaves of a sound voice and of a sound buffer is sound. -/

section

open Sys2Proof Sys2Proof.Machine F64

set_option exponentiation.threshold 3000

namespace Sys2Proof.Machine

/-! ## Sound voices (R27, R31) -/

/-- A time at an accepted rate is within its bound at SR_MAX (R27). -/
theorem TimeFactor.trunc_le_srMax {k : F64} (hk : TimeFactor k) {p : Params} (hp : paramsValid p) {rate : F64}
    (h : rateOk p rate = true) : (k.mul rate).trunc ≤ (k.mul p.srMax).trunc := by
  have hmax := rateOk_srMax hp
  obtain ⟨hu, -⟩ := rate_bounds hp h
  obtain ⟨hmaxu, -⟩ := rate_bounds hp hmax
  obtain ⟨hmul, -⟩ := hk.mul_rate hp h
  obtain ⟨hmulmax, -⟩ := hk.mul_rate hp hmax
  obtain ⟨-, -, hhi⟩ := rateOk_iff.mp h
  have hle : rate.le p.srMax = true := by
    rw [lt_of_finite hmaxu.finite hu.finite, decide_eq_false_iff_not, Int.not_lt] at hhi
    exact (le_iff_of_finite hu.finite hmaxu.finite).mpr hhi
  obtain ⟨-, htrunc⟩ := hmul.trunc_le_trunc hmulmax
    (hk.unsigned.mul_le_mul hk.unsigned hu hmaxu ((hk.unsigned.le_iff hk.unsigned).mpr le_rfl) hle)
  exact htrunc

/-- The HOLDREM of a restart is within its bound (R27, R119). -/
theorem holdRem_le_holdBound {p : Params} (hp : paramsValid p) {rate : F64} (h : rateOk p rate = true) (n : Param) :
    ((BitVec.ofInt 32 (holdSamples rate n)).toNat : Int) ≤ holdBound p := by
  obtain ⟨h0, hle⟩ := holdSamples_range hp h n
  have hlt := trunc_two_mul_rate_lt hp h
  rw [toNat_ofInt_32 h0 (by omega)]
  exact hle.trans (timeFactor_two.trunc_le_srMax hp h)

/-- The RTRGINT that TRIG arms is within its bound (R27, R120). -/
theorem rtrgInt_le_intervalBound {p : Params} (hp : paramsValid p) {rate : F64} (h : rateOk p rate = true)
    (k n : Param) :
    ((if k = 0 then (0 : BitVec 32) else BitVec.ofInt 32 (retrigInterval rate n)).toNat : Int) ≤ intervalBound p := by
  obtain ⟨-, hbound⟩ := timeBounds_nonneg hp
  obtain ⟨-, hle⟩ := retrigInterval_range hp h n
  rw [toNat_armed_interval hp h]
  split
  · exact hbound
  · exact hle.trans (timeFactor_half.trunc_le_srMax hp h)

/-- A DECAYRATE is in its range (R27). -/
def decayRateOk (d : F64) : Prop :=
  d = cZero ∨ (cZero.lt d = true ∧ d.le (F64.ofBits 0x403FC00000000000#64) = true)

/-- The DECAYRATE of a restart is in its range (R117, R119). -/
theorem decayRateOk_decayRateFor {p : Params} (hp : paramsValid p) {rate : F64} (h : rateOk p rate = true)
    (n : Param) : decayRateOk (decayRateFor rate n) := by
  by_cases hn : n = 0
  · have hone : decayRateFor rate n = cOne := if_pos hn
    rw [hone]
    exact .inr (by decide +kernel)
  · obtain ⟨-, hpos, hle, -⟩ := decayRateFor_bounds hp h hn
    exact .inr ⟨hpos, hle⟩

/-- A DECAYRATE in its range is a finite value from 0.0 on. -/
theorem decayRateOk.nonneg {d : F64} (h : decayRateOk d) : d.isFinite = true ∧ 0 ≤ d.units := by
  obtain rfl | ⟨hpos, hle⟩ := h
  · exact ⟨rfl, by rw [units_cZero]⟩
  · obtain rfl | hinf | ⟨hfin, -, -⟩ := le_cases hle
    · cases hpos
    · exact absurd hinf (by decide)
    · rw [lt_of_finite rfl hfin, decide_eq_true_eq, units_cZero] at hpos
      exact ⟨hfin, hpos.le⟩

/-- The schedule of a sound voice (R27). -/
def scheduleOk (p : Params) (int cnt : BitVec 32) : Prop :=
  (int.toNat : Int) ≤ intervalBound p ∧ (cnt.toNat < int.toNat ∨ cnt = 0)

/-- The schedule of a sound voice is in its ranges. -/
theorem voiceOk_scheduleOk {p : Params} {v : Voice} (h : voiceOk p v) : scheduleOk p v.rtrgInt v.rtrgCnt := by
  obtain ⟨-, -, hint, hcnt, -⟩ := h
  exact ⟨hint, hcnt⟩

/-- A sound voice with another sound schedule is sound. -/
theorem voiceOk_setSchedule {p : Params} {v : Voice} (h : voiceOk p v) (rem : BitVec 7) {int cnt : BitVec 32}
    (hs : scheduleOk p int cnt) : voiceOk p { v with rtrgRem := rem, rtrgInt := int, rtrgCnt := cnt } := by
  obtain ⟨hreals, hhold, -, -, hsrr⟩ := h
  obtain ⟨hint, hcnt⟩ := hs
  exact ⟨hreals, hhold, hint, hcnt, hsrr⟩

/-- The levels 0.0 and 1.0 are in the range of ENV (R27). -/
theorem env_range_cZero : cZero.le cZero = true ∧ cZero.le cOne = true := by decide +kernel
theorem env_range_cOne : cZero.le cOne = true ∧ cOne.le cOne = true := by decide +kernel

/-- A restarted record is sound where the values it writes are: proved on variables, so that no check evaluates a
binary64 operation. -/
theorem voiceOk_restart {p : Params} {v : Voice} {pos d : F64} {hold : BitVec 32}
    (hpos : pos.isFinite = true ∧ cZero.le pos = true) (hd : decayRateOk d) (hhold : (hold.toNat : Int) ≤ holdBound p)
    (hs : scheduleOk p v.rtrgInt v.rtrgCnt) :
    voiceOk p { v with
      active := true, pos := pos, srrCnt := 0, srrHold := cZero, env := cOne, holdRem := hold, decayRate := d } := by
  obtain ⟨hint, hcnt⟩ := hs
  obtain ⟨hperiod, -⟩ := srrPeriod_range v.srrAmt
  exact ⟨⟨hpos, env_range_cOne, hd, onGrid_cZero⟩, hhold, hint, hcnt, fun _ => hperiod⟩

/-- A restart of a voice with a sound schedule is sound (R119). -/
theorem voiceOk_internalTrigger {p : Params} (hp : paramsValid p) {rate : F64} (h : rateOk p rate = true) (v : Voice)
    (b : Buffer) (hs : scheduleOk p v.rtrgInt v.rtrgCnt) : voiceOk p (v.internalTrigger rate b) := by
  have hstart : v.startFrac.Fraction := normParam_fraction _
  obtain ⟨hfin, h0, -⟩ := fraction_mul_lenF64 b hstart
  rw [Voice.internalTrigger_eq, clamp_fraction b hstart]
  exact voiceOk_restart ⟨hfin, (le_iff_of_finite rfl hfin).mpr (by rwa [units_cZero])⟩
    (decayRateOk_decayRateFor hp h _) (holdRem_le_holdBound hp h _) hs

/-- A triggered voice is sound (R120). -/
theorem voiceOk_trigger {p : Params} (hp : paramsValid p) {rate : F64} (h : rateOk p rate = true) {v : Voice}
    (hv : voiceOk p v) (ps : Vector Param 12) (b : Buffer) : voiceOk p (v.trigger ps rate b) := by
  have hs := voiceOk_scheduleOk hv
  rw [Voice.trigger, Voice.armRetrigger_eq]
  exact voiceOk_setSchedule (voiceOk_internalTrigger hp h { v with snap := takeSnapshot ps } b hs) _
    ⟨rtrgInt_le_intervalBound hp h _ _, .inr rfl⟩

/-- A stopped voice is sound (R127). -/
theorem voiceOk_stopped {p : Params} (hp : paramsValid p) {v : Voice} (h : voiceOk p v) : voiceOk p v.stopped := by
  obtain ⟨hhold, hint⟩ := timeBounds_nonneg hp
  obtain ⟨⟨hpos, -, hdecay, hgrid⟩, -, -, -, hsrr⟩ := h
  exact ⟨⟨hpos, env_range_cZero, hdecay, hgrid⟩, hhold, hint, .inr rfl, hsrr⟩

/-- The retrigger stage keeps a voice sound (R122). -/
theorem voiceOk_stepRetrigger {p : Params} (hp : paramsValid p) {rate : F64} (h : rateOk p rate = true) {v : Voice}
    (hv : voiceOk p v) (b : Buffer) : voiceOk p (v.stepRetrigger rate b) := by
  obtain ⟨hint, -⟩ := voiceOk_scheduleOk hv
  obtain ⟨-, e⟩ | ⟨-, hlt, e⟩ | ⟨-, -, e⟩ := v.stepRetrigger_cases rate b <;> rw [e]
  · exact hv
  · refine voiceOk_setSchedule hv v.rtrgRem ⟨hint, .inl ?_⟩
    have := v.rtrgInt.isLt
    have hone : (1 : BitVec 32).toNat = 1 := rfl
    rw [BitVec.toNat_add_of_lt (by omega), hone]
    exact hlt
  · exact voiceOk_internalTrigger hp h _ b ⟨hint, .inr rfl⟩

/-- An advance below the last sample stays finite (R82). -/
theorem Voice.isFinite_advance {v : Voice} (h0 : 0 ≤ v.pos.units) {i n : Nat} (hi : v.pos.floor = some (i : Int))
    (hlt : i + 1 < n) (hn : n < 2 ^ 32) : (v.pos.add v.ratio).isFinite = true := by
  obtain ⟨hpos, -, hhi⟩ := floor_eq_some hi
  obtain ⟨hratio, hr0, hr64⟩ := pitchRatio_range (v.snapAt 2)
  have hbound : (i : Int) * unitsOne + unitsOne ≤ (2 ^ 32 : Nat) * 2 ^ 1074 := by
    rw [unitsOne_cast, ← add_one_mul]
    exact Int.mul_le_mul_of_nonneg_right (by omega) (by positivity)
  have hx : v.pos.Within (2 ^ 32) := ⟨hpos, by rw [abs_of_nonneg h0]; omega⟩
  have hy : v.ratio.Within 64 := ⟨hratio, (abs_of_nonneg hr0.le).trans_le hr64⟩
  exact (hx.add hy (by decide)).finite

/-- The read of the engine keeps a voice sound (R82). -/
theorem voiceOk_readInterpolated {p : Params} {v v' : Voice} {b : Buffer} {c : Channel} {y : F64} (h : voiceOk p v)
    (hr : v.readInterpolated b c v.ratio = .ok (y, v')) : voiceOk p v' := by
  obtain ⟨-, rfl, -⟩ | ⟨i, w1, w2, hi, hlt, -, -, -, rfl⟩ := Voice.readInterpolated_ok hr
  · exact h
  · obtain ⟨-, hp0⟩ := voiceOk_pos h
    have hfin := Voice.isFinite_advance hp0 hi hlt b.len.isLt
    have hle := Voice.le_advance hi hlt b.len.isLt
    obtain ⟨⟨⟨-, h0⟩, hrest⟩, hcounts⟩ := h
    exact ⟨⟨⟨hfin, F64.le_trans h0 hle⟩, hrest⟩, hcounts⟩

/-- The reducer keeps a voice sound (R91). -/
theorem voiceOk_srr {p : Params} {v : Voice} (h : voiceOk p v) {x : F64} (hx : onGrid x) :
    voiceOk p (v.srr x v.srrAmt).2 := by
  by_cases ha : v.srrAmt = 0
  · rw [Voice.srr_of_zero v x ha]
    exact h
  · obtain ⟨⟨hpos, henv, hdecay, hgrid⟩, hhold, hint, hcnt, -⟩ := h
    obtain ⟨hperiod, h64⟩ := srrPeriod_range v.srrAmt
    rw [Voice.srr_of_ne_zero v x ha]
    refine ⟨⟨hpos, henv, hdecay, ?_⟩, hhold, hint, hcnt, fun _ => ?_⟩
    · show onGrid (if v.srrCnt = 0 then x else v.srrHold)
      split
      · exact hx
      · exact hgrid
    · show (if srrPeriod v.srrAmt ≤ v.srrCnt.toNat + 1 then 0 else BitVec.ofNat 6 (v.srrCnt.toNat + 1)).toNat <
        srrPeriod v.srrAmt
      split
      · exact hperiod
      · rw [BitVec.toNat_ofNat]
        omega

/-- A decrement of the level that leaves it above 0.0 leaves it in its range (R123). -/
theorem env_range_sub {e d : F64} (h0 : cZero.le e = true) (h1 : e.le cOne = true) (hd : decayRateOk d)
    (hpos : (e.sub d).le cZero = false) : cZero.le (e.sub d) = true ∧ (e.sub d).le cOne = true := by
  obtain ⟨-, ⟨hefin, he0, he1⟩, -⟩ := fraction_of_le (e := cZero) rfl h0 h1
  obtain ⟨hdfin, hd0⟩ := hd.nonneg
  obtain ⟨hfin, -, hle⟩ := sub_bounds (lo := d.neg) (hi := e) hefin hdfin (by rw [units_neg]; omega) (by omega)
  rw [le_of_finite hfin rfl, units_cZero, decide_eq_false_iff_not] at hpos
  rw [le_iff_of_finite rfl hfin, le_iff_of_finite hfin rfl, units_cZero, units_cOne]
  omega

/-- The envelope stage keeps a voice sound (R123). -/
theorem voiceOk_stepEnvelope {p : Params} {v : Voice} (h : voiceOk p v) : voiceOk p v.stepEnvelope := by
  obtain ⟨⟨hpos, ⟨h0, h1⟩, hdecay, hgrid⟩, hhold, hrest⟩ := h
  obtain ⟨hrem, e⟩ | ⟨-, -, e⟩ | ⟨-, hle, e⟩ := v.stepEnvelope_cases <;> rw [e]
  · refine ⟨⟨hpos, ⟨h0, h1⟩, hdecay, hgrid⟩, ?_, hrest⟩
    have hone : (1 : BitVec 32).toNat = 1 := rfl
    show ((v.holdRem - 1).toNat : Int) ≤ holdBound p
    rw [BitVec.toNat_sub_of_le (BitVec.le_def.mpr (by omega))]
    omega
  · exact ⟨⟨hpos, env_range_cZero, hdecay, hgrid⟩, hhold, hrest⟩
  · exact ⟨⟨hpos, env_range_sub h0 h1 hdecay hle, hdecay, hgrid⟩, hhold, hrest⟩

/-- Stages 2 to 6 keep a voice sound (R121). -/
theorem voiceOk_stepPlay {p : Params} {v v' : Voice} {b : Buffer} {c : Channel} {y : F64} (h : voiceOk p v)
    (hp : v.stepPlay b c = .ok (y, v')) : voiceOk p v' := by
  obtain ⟨-, -, rfl⟩ | ⟨-, -, -, rfl⟩ | ⟨-, -, x, u, hlofi, -, rfl⟩ := Voice.stepPlay_ok hp
  · exact h
  · exact h
  · obtain ⟨z, r, hr, -, rfl⟩ := Voice.readWithLoFi_ok hlofi
    have hamt : r.srrAmt = v.srrAmt := by
      obtain ⟨-, rfl, -⟩ | ⟨-, -, -, -, -, -, -, -, rfl⟩ := Voice.readInterpolated_ok hr <;> rfl
    rw [← hamt]
    exact voiceOk_stepEnvelope (voiceOk_srr (voiceOk_readInterpolated h hr) (quantize12_onGrid z))

/-- Every effect on a voice of a sound state leaves a sound voice (R27, R31). -/
theorem VoiceEffect.ok {s : State} {c : Channel} {i : Instr} {v : Voice} (he : VoiceEffect s c i v) (h : s.Inv) :
    voiceOk s.cfg v := by
  cases he with
  | kept => exact h.voices c
  | reset d0 => exact voiceOk_reset h.cfgValid
  | triggered => exact voiceOk_trigger h.cfgValid h.rateValid (h.voices c) _ _
  | stopped => exact voiceOk_stopped h.cfgValid (h.voices c)
  | stepped _ hp => exact voiceOk_stepPlay (voiceOk_stepRetrigger h.cfgValid h.rateValid (h.voices c) _) hp

/-! ## Sound buffers (R25, R26, R37) -/

/-- A word below LEN is the word of the memory (R38). -/
theorem Buffer.memRead_of_lt {b : Buffer} {a : Nat} (h : a < b.len.toNat) : b.memRead a = b.mem.readWord a := if_pos h

/-- A buffer with the memory of a sound one and a shorter length is sound under every bound on the length (R68, R74). -/
theorem bufferOk_shorten {p : Params} {n n' : Nat} {b b' : Buffer} (h : bufferOk p n b) (hmem : b'.mem = b.mem)
    (hlen : b'.len.toNat ≤ b.len.toNat) (hn : b'.len.toNat ≤ n') : bufferOk p n' b' := by
  obtain ⟨-, hwf, hcap, hwords⟩ := h
  rw [← hmem] at hwf hcap
  refine ⟨hn, hwf, hcap, fun a ha => ?_⟩
  have ha' := ha.trans_le hlen
  rw [Buffer.memRead_of_lt ha, hmem, ← Buffer.memRead_of_lt ha']
  exact hwords a ha'

/-- The cells after a word write are the two of the word and cells that were there. -/
theorem Memory.mem_writeWord {m : Memory} {a : Nat} {w : SampleWord} {cell : Host.Cell}
    (h : cell ∈ Memory.writeWord m a w) : cell.1 = 2 * a ∨ cell.1 = 2 * a + 1 ∨ cell ∈ m := by
  obtain rfl | h := Memory.mem_write h
  · exact .inr (.inl rfl)
  · obtain rfl | h := Memory.mem_write h
    · exact .inl rfl
    · exact .inr (.inr h)

/-- A word stored where a sound state may write leaves a sound buffer (R38, R75). -/
theorem State.Inv.bufferOk_memWrite {s : State} (h : s.Inv) {c : Channel} {a : Nat} {w : SampleWord}
    (ha : s.mayWrite c a = true) (hw : w.extractLsb' 0 4 = 0#4) : bufferOk s.cfg s.maxLen ((s.buf c).memWrite a w) := by
  have hmay := State.mayWrite_iff.mp ha
  obtain ⟨hlen, hword, hothers, -⟩ := h.wordWritten w hmay 0 0
  have hself : ((s.memWrite c a w).respond .ok 0 0).buf c = (s.buf c).memWrite a w := by
    rw [State.buf_respond, State.buf_memWrite_self]
  rw [State.lenOf, hself] at hlen
  rw [hself] at hword hothers
  have hbound := h.lenOf_le c
  have hcap : s.maxLen ≤ s.cfg.bufCap := Nat.min_le_left _ _
  obtain ⟨-, hwf, hcells, hwords⟩ := h.bufs c
  refine ⟨?_, Buffer.wf_memWrite hwf a w, fun cell hcell => ?_, fun x hx => ?_⟩
  · rw [hlen]
    split <;> omega
  · obtain hc | hc | hc := Memory.mem_writeWord hcell
    · omega
    · omega
    · exact hcells cell hc
  · by_cases hxa : x = a
    · exact ⟨w, hxa ▸ hword, hw⟩
    · have hxlen : x < s.lenOf c := by
        rw [hlen] at hx
        split at hx <;> omega
      rw [hothers x hxlen hxa]
      exact hwords x hxlen

/-- Every effect on a buffer of a sound state leaves a sound buffer (R25, R26, R37). -/
theorem BufferEffect.ok {s : State} {c : Channel} {i : Instr} {n : Nat} {b : Buffer} (he : BufferEffect s c i n b)
    (h : s.Inv) : bufferOk s.cfg n b := by
  cases he with
  | kept => exact h.bufs c
  | cut d0 bound =>
    have hlen := (s.buf c).cut_len n
    exact bufferOk_shorten (h.bufs c) (Buffer.cut_mem _ _) (hlen.trans_le (Nat.min_le_left _ _))
      (hlen.trans_le (Nat.min_le_right _ _))
  | cleared => exact bufferOk_shorten (h.bufs c) rfl (Nat.zero_le _) (Nat.zero_le _)
  | stored hc hi ha hw => exact h.bufferOk_memWrite ha hw

/-! ## Steps of a sound state -/

/-- Every effect on a sound state leaves a sound state. -/
theorem Effect.inv {s t : State} {i : Instr} (he : Effect s i t) (h : s.Inv) : t.Inv := by
  have hcfg := he.cfg
  refine ⟨?_, ?_, fun c => ?_, fun c => ?_, he.coeffsCurrent h.coeffs⟩ <;> rw [hcfg]
  · exact h.cfgValid
  · obtain hrate | ⟨d0, -, hok, hrate⟩ := he.rate <;> rw [hrate]
    · exact h.rateValid
    · exact hok
  · exact (he.buf c).ok h
  · exact (he.voice c).ok h

/-- The invariant does not speak of the port. -/
theorem State.Inv.port {s : State} (h : s.Inv) (rest : List Command) (r : Response) :
    ({ s with commands := rest, response := r } : State).Inv :=
  ⟨h.cfgValid, h.rateValid, h.bufs, h.voices, h.coeffs⟩

/-- A command that answers in either of two ways answers. -/
theorem ite_answers {σ φ ρ : Type} {p : Prop} [Decidable p] {a b : σ} :
    ∃ t, (if p then .next a else .next b : Host.Outcome σ φ ρ) = .next t := by
  split
  · exact ⟨_, rfl⟩
  · exact ⟨_, rfl⟩

/-- Every command of a sound state answers: a word below LEN is written and a voice can read (R156). -/
theorem State.Inv.exec_answers {s : State} (h : s.Inv) (i : Instr) : ∃ t, exec i s = .next t := by
  cases i with
  | setrate | bufwr | bufapp | bufapq => exact ite_answers
  | wrparam idx val =>
    obtain hlt | hge := Nat.lt_or_ge idx.toNat 12
    · exact ⟨_, exec_wrparam_of_lt hlt val s⟩
    · exact ⟨_, exec_wrparam_of_ge hge val s⟩
  | rdparam idx =>
    obtain hlt | hge := Nat.lt_or_ge idx.toNat 12
    · exact ⟨_, exec_rdparam_of_lt hlt s⟩
    · exact ⟨_, exec_rdparam_of_ge hge s⟩
  | bufrd ch d0 =>
    obtain hlt | hge := Nat.lt_or_ge d0.toNat (s.lenOf (chan ch))
    · obtain ⟨-, -, -, hwords⟩ := h.bufs (chan ch)
      obtain ⟨w, hw, -⟩ := hwords d0.toNat hlt
      exact ⟨_, exec_bufrd_of_word hw⟩
    · exact ⟨_, exec_bufrd_refused hge⟩
  | vrd ch sel =>
    show ∃ t, execVrd ch sel s = .next t
    unfold execVrd
    split
    · exact ⟨_, rfl⟩
    · exact ⟨_, rfl⟩
  | frd sel =>
    show ∃ t, execFrd sel s = .next t
    unfold execFrd
    split
    · exact ⟨_, rfl⟩
    · exact ⟨_, rfl⟩
  | vstep ch =>
    obtain ⟨y, v, hp⟩ := h.process_exists (chan ch)
    exact ⟨_, exec_vstep.mpr ⟨y, v, hp, rfl⟩⟩
  | frame =>
    obtain ⟨m, s', -, hmix, -⟩ := h.mix
    exact ⟨_, exec_frame.mpr ⟨m, s', hmix, filterStep_eq s' m m⟩⟩
  | _ => exact ⟨_, rfl⟩

end Sys2Proof.Machine

/-- Settles O9: every effect of a command on a sound state leaves a sound state, and the port does not enter it. -/
theorem stepKeepsInvariant : Obligations.StepKeepsInvariant := by
  unfold Obligations.StepKeepsInvariant
  exact fun s t hinv h => step_keeps (P := State.Inv) (fun _ rest r hinv => hinv.port rest r)
    (fun _ _ _ hinv hexec => (effect_of_exec hexec).inv hinv) hinv h

/-- Settles O10: an idle step and an unassigned opcode always answer, and so does every command of a sound state. -/
theorem stepAlwaysAnswers : Obligations.StepAlwaysAnswers := by
  unfold Obligations.StepAlwaysAnswers
  intro s hinv
  cases hs : s.commands with
  | nil => exact ⟨s, step_of_idle hs⟩
  | cons c rest =>
    cases hd : decode c with
    | error e => exact ⟨_, step_of_unassigned hs (unassigned_of_decode_error hd)⟩
    | ok i =>
      rw [step_of_decoded hs hd]
      exact (hinv.port rest s.response).exec_answers i

end
